-- ==== Sys2Proof/Word.lean ====
section
/-! DEFINITION. The word types of the ZFE and the byte string of 00_scope.md R11, R12. -/

namespace Sys2Proof

/-- An 8-bit unsigned value (00_scope.md R11). -/
abbrev Byte := BitVec 8

/-- A 16-bit field. -/
abbrev Half := BitVec 16

/-- A 32-bit register or bus value (10_state.md R33). -/
abbrev Word := BitVec 32

/-- A 64-bit address (10_state.md R51). -/
abbrev Addr64 := BitVec 64

/-- A finite sequence of bytes in wire order (00_scope.md R12). -/
abbrev Bytes := List Byte

end Sys2Proof
end

