-- ==== Sys2Proof/Machine/Bytes.lean ====
section
/-! DEFINITION. The byte-string operations of 00_scope.md R12: packing, exclusive or, padding and blocks. -/

namespace Sys2Proof.Machine

/-- `le_n(v)`: the `n`-byte little-endian encoding of `v mod 2^(8n)` (00_scope.md R12). -/
def le : Nat → Nat → Bytes
  | 0, _ => []
  | n + 1, v => BitVec.ofNat 8 v :: le n (v / 256)

/-- `rd_le(b)`: the unsigned value of `b` read little-endian (00_scope.md R12). -/
def rdLe : Bytes → Nat
  | [] => 0
  | x :: b => x.toNat + 256 * rdLe b

/-- `be16(v)`: two bytes, most significant first (00_scope.md R12). -/
def be16 (v : Nat) : Bytes := [BitVec.ofNat 8 (v / 256), BitVec.ofNat 8 v]

/-- `n` zero bytes. -/
def zeros (n : Nat) : Bytes := List.replicate n 0

/-- `b[i..i+n)` (00_scope.md R12). -/
def slice (b : Bytes) (i n : Nat) : Bytes := (b.drop i).take n

/-- The little-endian field of `w` bits at offset `i` of `b` (20_memory.md R84). -/
def fieldAt (w : Nat) (b : Bytes) (i : Nat) : BitVec w := BitVec.ofNat w (rdLe (slice b i (w / 8)))

/-- The little-endian bytes of a field whose width is a whole number of bytes (20_memory.md R84). -/
def leOf {w : Nat} (v : BitVec w) : Bytes := le (w / 8) v.toNat

/-- `xor(a, b)`, as long as the shorter string (00_scope.md R12: the strings have equal length; the counter pass
cuts its last keystream block to the data). -/
def xorBytes (a b : Bytes) : Bytes := List.zipWith (· ^^^ ·) a b

/-- `pad16(b)` (00_scope.md R12). -/
def pad16 (b : Bytes) : Bytes := b ++ zeros ((16 - b.length % 16) % 16)

/-- The number of 16-byte blocks that hold `n` bytes, `ceil(n / 16)` (44_facade.md R314). -/
def blockCount (n : Nat) : Nat := (n + 15) / 16

/-- The first `n` consecutive 16-byte sub-strings of `b`. -/
def takeBlocks : Nat → Bytes → List Bytes
  | 0, _ => []
  | n + 1, b => b.take 16 :: takeBlocks n (b.drop 16)

/-- `blocks16(b)`: the 16-byte blocks of `pad16(b)` (00_scope.md R12). -/
def blocks16 (b : Bytes) : List Bytes := takeBlocks (blockCount b.length) (pad16 b)

end Sys2Proof.Machine
end

