-- ==== Sys2Proof/Syntax.lean ====
section
/-! DEFINITION. The commands of the ZFE: one constructor per row of spec/opcode_table.json (30_encoding.md R112). -/

namespace Sys2Proof

/-- The L field of COMPOSE (30_encoding.md R110): which layers it builds. -/
structure LayerSet where
  mac : Bool
  nwk : Bool
  aps : Bool
  zcl : Bool
deriving DecidableEq, Repr

/-- A command, its operand fields decoded (30_encoding.md R111, R112). `m` is the MIC-length field M,
`v` the VALIDATE bit V, `aseq` the ASEQ bit S, `layers` the LAYERS field L. -/
inductive Instr where
  | nop
  | aesEnc
  | aesDec
  | ccmEnc (m : BitVec 4)
  | ccmDec (v : Bool) (m : BitVec 4)
  | macDec
  | macEnc (aseq : Bool)
  | nwkDec
  | nwkEnc
  | apsDec
  | apsEnc
  | zclDec
  | zclEnc
  | parse
  | compose (layers : LayerSet) (aseq : Bool)
deriving DecidableEq, Repr

end Sys2Proof
end

