-- ==== Sys2Proof/WellFormed.lean ====
section
/-! DEFINITION. Which command terms stand for a legal command word (30_encoding.md R113, R114). -/

namespace Sys2Proof

/-- The ten legal layer sets: non-empty and contiguous in MAC ⊃ NWK ⊃ APS ⊃ ZCL (30_encoding.md R114). -/
def LayerSet.legal : LayerSet → Bool
  | ⟨true, false, false, false⟩ => true
  | ⟨true, true, false, false⟩ => true
  | ⟨true, true, true, false⟩ => true
  | ⟨true, true, true, true⟩ => true
  | ⟨false, true, false, false⟩ => true
  | ⟨false, true, true, false⟩ => true
  | ⟨false, true, true, true⟩ => true
  | ⟨false, false, true, false⟩ => true
  | ⟨false, false, true, true⟩ => true
  | ⟨false, false, false, true⟩ => true
  | ⟨false, false, false, false⟩ => false
  | ⟨true, false, true, false⟩ => false
  | ⟨true, false, false, true⟩ => false
  | ⟨false, true, false, true⟩ => false
  | ⟨true, true, false, true⟩ => false
  | ⟨true, false, true, true⟩ => false

/-- A well-formed command: COMPOSE names a legal layer set, and takes ASEQ only with the MAC layer
(30_encoding.md R114). Every other field value is legal, M other than 4 included (R115). -/
def Instr.wellFormed : Instr → Bool
  | .nop => true
  | .aesEnc => true
  | .aesDec => true
  | .ccmEnc _ => true
  | .ccmDec _ _ => true
  | .macDec => true
  | .macEnc _ => true
  | .nwkDec => true
  | .nwkEnc => true
  | .apsDec => true
  | .apsEnc => true
  | .zclDec => true
  | .zclEnc => true
  | .parse => true
  | .compose layers aseq => layers.legal && (!aseq || layers.mac)

end Sys2Proof
end

