-- ==== Sys2Proof/Decode.lean ====
section
/-! DEFINITION. The command word (30_encoding.md R110 to R116): decoding, total on every 32-bit word and
rejecting by name, and after it the encoder (R150). -/

namespace Sys2Proof

/-- Why a command word is ILLEGAL_CMD (30_encoding.md R113). The engine reports all four alike; the name is the
model's own and no state holds it. -/
inductive Reject where
  /-- `w[7:0]` is no opcode of R112 (R116). -/
  | reservedOpcode (op : Byte)
  /-- A bit outside OP and the permitted fields of its opcode is 1 (R113). -/
  | strayBits
  /-- COMPOSE with an L field that is no legal layer set (R114). -/
  | illegalLayers
  /-- COMPOSE with S = 1 and no MAC layer (R114). -/
  | aseqWithoutMac
deriving DecidableEq, Repr

/-- OP, bits 7:0 (30_encoding.md R110). -/
def opField (w : Word) : Byte := w.extractLsb' 0 8

/-- V, bit 8 (30_encoding.md R110). -/
def vField (w : Word) : Bool := w.getLsbD 8

/-- S, bit 9 (30_encoding.md R110). -/
def sField (w : Word) : Bool := w.getLsbD 9

/-- L, bits 15:12: bit 12 MAC, bit 13 NWK, bit 14 APS, bit 15 ZCL (30_encoding.md R110). -/
def lField (w : Word) : LayerSet :=
  { mac := w.getLsbD 12, nwk := w.getLsbD 13, aps := w.getLsbD 14, zcl := w.getLsbD 15 }

/-- M, bits 19:16 (30_encoding.md R110). -/
def mField (w : Word) : BitVec 4 := w.extractLsb' 16 4

/-- `i`, unless a bit of `w` outside `permitted` is 1 (30_encoding.md R113). -/
def onlyBits (permitted w : Word) (i : Instr) : Except Reject Instr :=
  if w &&& ~~~permitted = 0#32 then .ok i else .error .strayBits

/-- COMPOSE's further checks (30_encoding.md R114). -/
def decodeCompose (w : Word) : Except Reject Instr :=
  if w &&& ~~~0xF2FF#32 ≠ 0#32 then .error .strayBits
  else if !(lField w).legal then .error .illegalLayers
  else if sField w && !(lField w).mac then .error .aseqWithoutMac
  else .ok (.compose (lField w) (sField w))

/-- The command a word stands for, or why it is ILLEGAL_CMD (30_encoding.md R112, R113). -/
def decode (w : Word) : Except Reject Instr :=
  match (opField w).toNat with
  | 0x00 => onlyBits 0xFF#32 w .nop
  | 0x01 => onlyBits 0xFF#32 w .aesEnc
  | 0x02 => onlyBits 0xFF#32 w .aesDec
  | 0x10 => onlyBits 0xF00FF#32 w (.ccmEnc (mField w))
  | 0x11 => onlyBits 0xF01FF#32 w (.ccmDec (vField w) (mField w))
  | 0x20 => onlyBits 0xFF#32 w .macDec
  | 0x21 => onlyBits 0x2FF#32 w (.macEnc (sField w))
  | 0x30 => onlyBits 0xFF#32 w .nwkDec
  | 0x31 => onlyBits 0xFF#32 w .nwkEnc
  | 0x40 => onlyBits 0xFF#32 w .apsDec
  | 0x41 => onlyBits 0xFF#32 w .apsEnc
  | 0x50 => onlyBits 0xFF#32 w .zclDec
  | 0x51 => onlyBits 0xFF#32 w .zclEnc
  | 0x60 => onlyBits 0xFF#32 w .parse
  | 0x61 => decodeCompose w
  | _ => .error (.reservedOpcode (opField w))

/-- The instruction the decoder reads from a table word of `nbits` bits, the bits above them 0. A command is one
32-bit word and is stored nowhere but in CMD (30_encoding.md R110), so no byte order enters. -/
def decodeTableWord (nbits w : Nat) : Option Instr :=
  (decode (BitVec.ofNat 32 (w % 2 ^ nbits))).toOption

/-- A field of width `n` placed at bit `pos` of a 32-bit word. -/
def place {n : Nat} (pos : Nat) (v : BitVec n) : Word := v.setWidth 32 <<< pos

/-- A single bit placed in a 32-bit word. -/
def placeBit (pos : Nat) (b : Bool) : Word := place pos (BitVec.ofBool b)

/-- The L field of a layer set in its place (30_encoding.md R110). -/
def LayerSet.word (l : LayerSet) : Word :=
  placeBit 12 l.mac ||| placeBit 13 l.nwk ||| placeBit 14 l.aps ||| placeBit 15 l.zcl

/-- The command word of a command: `OP | V<<8 | S<<9 | L<<12 | M<<16` (30_encoding.md R112, R150). -/
def encode : Instr → Word
  | .nop => 0x00#32
  | .aesEnc => 0x01#32
  | .aesDec => 0x02#32
  | .ccmEnc m => 0x10#32 ||| place 16 m
  | .ccmDec v m => 0x11#32 ||| placeBit 8 v ||| place 16 m
  | .macDec => 0x20#32
  | .macEnc aseq => 0x21#32 ||| placeBit 9 aseq
  | .nwkDec => 0x30#32
  | .nwkEnc => 0x31#32
  | .apsDec => 0x40#32
  | .apsEnc => 0x41#32
  | .zclDec => 0x50#32
  | .zclEnc => 0x51#32
  | .parse => 0x60#32
  | .compose layers aseq => 0x61#32 ||| placeBit 9 aseq ||| layers.word

end Sys2Proof
end

