-- ==== Sys2Proof/Config.lean ====
section
/-! DEFINITION. What an implementation fixes: the parameters of 00_scope.md R9 and the free values.
The opaque constants have no body, so no proof can see what they are. -/

namespace Sys2Proof

/-- DMEM_BYTES, the size of the data memory (00_scope.md R9, 10_state.md R66). -/
abbrev Config.dmemBytes : Nat := 512

/-- MIC_BYTES, the only accepted MIC length (00_scope.md R9). -/
abbrev Config.micBytes : Nat := 4

/-- P_AES (00_scope.md R9, R13): for each key a permutation of 16-byte blocks. The forward direction is the
spec's AES_ENC and the inverse its AES_DEC, so `AES_DEC(K, AES_ENC(K, B)) = B` holds and nothing else is known.
Key and block are read as little-endian numbers of their byte strings. Log entry 1. -/
opaque Config.aes : BitVec 128 → Equiv.Perm (BitVec 128)

/-- P_BASE divided by 4096 (20_memory.md R81: the window is 4096-byte aligned). Log entry 2. -/
opaque Config.windowPage : Nat

/-- P_BASE, the bus address of host-window offset 0 (20_memory.md R81). -/
def Config.pBase : Nat := 4096 * Config.windowPage

/-- What the n-th free draw gives to a host read of a result location while BUSY (20_memory.md R88). Log entry 9. -/
opaque Config.busyRead : Nat → Word

/-- What the n-th free draw leaves at a DMEM address that an aborted command would have written
(70_reset_and_hazards.md R363). Log entry 10. -/
opaque Config.abortByte : Nat → Nat → Byte

/-- What the n-th free draw leaves at a DMEM address after a hardware reset (10_state.md R69). Log entry 8. -/
opaque Config.powerOnByte : Nat → Nat → Byte

/-- What the n-th free draw leaves in KEY word k after a hardware reset (10_state.md R40). Log entry 8. -/
opaque Config.powerOnKey : Nat → Nat → Word

end Sys2Proof
end

