-- ==== Sys2Proof/Machine/State.lean ====
section
/-! DEFINITION. The state of the ZFE (10_state.md) as plain data, the reasons a step can stop, and the state
right after hardware reset (70_reset_and_hazards.md R360). -/

namespace Sys2Proof.Machine

/-- Error codes of STATUS.ERR (60_exceptions.md R330). -/
inductive ErrCode where
  | none
  | illegalCmd
  | param
  | range
  | overlap
  | noKey
  | addressing
  | fcExhausted
  | malformed
  | overflow
deriving DecidableEq, Repr

/-- STATUS.AUTH (10_state.md R36). -/
inductive Auth where
  | notChecked
  | pass
  | fail
deriving DecidableEq, Repr

/-- A layer, whose number is the layer code of ERR_INFO.LAYER and of STATUS.DEPTH (00_scope.md R19, 10_state.md
R36, R38); `none` is code 0. -/
inductive Layer where
  | none
  | mac
  | nwk
  | aps
  | zcl
deriving DecidableEq, Repr

/-- STATUS.ROUTE (10_state.md R36, 44_facade.md R304). -/
inductive Route where
  | raw
  | zcl
  | joinMgmt
deriving DecidableEq, Repr

/-- NWK_FC.FAIL (10_state.md R52). -/
inductive NwkFail where
  | none
  | hdr
  | aux
  | nonceSrc
  | noKey
  | mic
deriving DecidableEq, Repr

/-- STATUS but KEY_SET, which is a view of `kw` (10_state.md R36). `busy` is also the sequencer: it is 1 exactly
in BUSY (R31). -/
structure Status where
  busy : Bool
  done : Bool
  ovr : Bool
  buserr : Bool
  err : ErrCode
  auth : Auth
  depth : Layer
  route : Route
  dfail : Bool
deriving DecidableEq, Repr

/-- ERR_INFO (10_state.md R38). -/
structure ErrInfo where
  layer : Layer
  offset : BitVec 12
deriving DecidableEq, Repr

/-- Four 32-bit words: KEY0 to KEY3, NONCE0 to NONCE3 (10_state.md R40, R41). -/
structure Words4 where
  w0 : Word
  w1 : Word
  w2 : Word
  w3 : Word
deriving DecidableEq, Repr

/-- The key-written bits `kw[0..3]` (10_state.md R39). -/
structure KeyWritten where
  k0 : Bool
  k1 : Bool
  k2 : Bool
  k3 : Bool
deriving DecidableEq, Repr

/-- The region registers (10_state.md R45). -/
structure Regions where
  iPtr : Half
  iLen : Half
  pPtr : Half
  pLen : Half
  oPtr : Half
  oCap : Half
  aPtr : Half
  aLen : Half
  mPtr : Half
  mLen : Half
deriving DecidableEq, Repr

/-- MacFields (10_state.md R65): MAC_FC, MAC_SQC, MAC_PAN, MAC_DADDR, MAC_SADDR (R48 to R51). -/
structure MacFields where
  fc : Half
  spanp : Bool
  seq : Byte
  cmd : Byte
  dpan : Half
  span : Half
  daddr : Addr64
  saddr : Addr64
deriving DecidableEq, Repr

/-- NwkFields (10_state.md R65): the registers NWK_FC to NWK_MIC (R52 to R59). -/
structure NwkFields where
  fc : Half
  valid : Bool
  fail : NwkFail
  dst : Half
  src : Half
  radius : Byte
  seq : Byte
  secctl : Byte
  keyseq : Byte
  extdst : Addr64
  extsrc : Addr64
  secfc : Word
  secsrc : Addr64
  mic : Word
deriving DecidableEq, Repr

/-- ApsFields (10_state.md R65): the registers APS_FC to APS_EC (R60 to R63). -/
structure ApsFields where
  fc : Byte
  dst : Half
  cluster : Half
  profile : Half
  srcep : Byte
  ctr : Byte
deriving DecidableEq, Repr

/-- ZclFields (10_state.md R65): ZCL_HDR (R64). -/
structure ZclFields where
  fc : Byte
  seq : Byte
  cmd : Byte
deriving DecidableEq, Repr

/-- DMEM (10_state.md R66). `cells` lists written bytes by rising address, none equal to what its address reads as
unlisted; `powerOn` is the image drawn at the last hardware reset (R69), read where no cell stands. Log entry 6. -/
structure Dmem where
  cells : List Host.Cell
  powerOn : Bytes
deriving DecidableEq, Repr

/-- Width of a host access (20_memory.md R85). -/
inductive AccessWidth where
  | w8
  | w16
  | w32
deriving DecidableEq, Repr

/-- What reaches the ZFE from outside: a bus transaction `(dir, offset, width, data)` (30_encoding.md R151) or the
hardware-reset input (70_reset_and_hazards.md R360). -/
inductive HostInput where
  | read (width : AccessWidth) (off : BitVec 12)
  | write (width : AccessWidth) (off : BitVec 12) (data : Word)
  | hardReset
deriving DecidableEq, Repr

/-- The architectural state (10_state.md R30), then the model's own fields `wait`, `latencies`, `inbox`, `busData`,
`draws` (INVENTORY.md, State). -/
structure State where
  /-- The latched command word (R31). -/
  cur : Word
  status : Status
  /-- CTRL.IE (R37). -/
  ie : Bool
  errInfo : ErrInfo
  key : Words4
  kw : KeyWritten
  nonce : Words4
  mic : Word
  /-- FC, the NWK frame counter (R43). -/
  fc : Word
  /-- SEQCTR.SEQ (R44). -/
  seqctr : Byte
  regions : Regions
  oLen : Half
  mac : MacFields
  nwk : NwkFields
  aps : ApsFields
  zcl : ZclFields
  dmem : Dmem
  /-- Turns of the host still to pass before the accepted command completes (P_LATENCY). Log entry 3. -/
  wait : Nat
  /-- The latency of each command still to be accepted (P_LATENCY). Log entry 3. -/
  latencies : List Nat
  /-- The host's inputs in issue order (20_memory.md R93). Log entry 4. -/
  inbox : List HostInput
  /-- The data the bus returned on the latest host read. Log entry 4. -/
  busData : Word
  /-- How many free values have been drawn. Log entry 9. -/
  draws : Nat
deriving DecidableEq, Repr

/-- Reasons the machine stops. The ZFE itself never stops (60_exceptions.md R337, R340). -/
inductive Fault where
  /-- Raised by an engine access to DMEM that reaches address `addr` past its 512 bytes. The spec leaves such an
  access undefined and says that it never happens (00_scope.md R15). Safe: the model stops. -/
  | dmemRange (addr : Nat)
deriving DecidableEq, Repr

/-- Reasons a step has no meaning. -/
inductive Refusal where
  /-- Raised by an arm of exec for an instruction that has no meaning yet; no arm does. Safe: the model stops. -/
  | notModelled (mnemonic : String)
deriving DecidableEq, Repr

/-- STATUS with every field 0: IDLE (70_reset_and_hazards.md R360). -/
def Status.zero : Status :=
  { busy := false, done := false, ovr := false, buserr := false, err := .none, auth := .notChecked,
    depth := .none, route := .raw, dfail := false }

/-- ERR_INFO with every field 0. -/
def ErrInfo.zero : ErrInfo := { layer := .none, offset := 0 }

/-- Four zero words. -/
def Words4.zero : Words4 := { w0 := 0, w1 := 0, w2 := 0, w3 := 0 }

/-- No KEY word written (10_state.md R39). -/
def KeyWritten.zero : KeyWritten := { k0 := false, k1 := false, k2 := false, k3 := false }

/-- Every region register 0. -/
def Regions.zero : Regions :=
  { iPtr := 0, iLen := 0, pPtr := 0, pLen := 0, oPtr := 0, oCap := 0, aPtr := 0, aLen := 0, mPtr := 0, mLen := 0 }

/-- ZERO_MAC (10_state.md R65). -/
def MacFields.zero : MacFields :=
  { fc := 0, spanp := false, seq := 0, cmd := 0, dpan := 0, span := 0, daddr := 0, saddr := 0 }

/-- ZERO_NWK (10_state.md R65). -/
def NwkFields.zero : NwkFields :=
  { fc := 0, valid := false, fail := .none, dst := 0, src := 0, radius := 0, seq := 0, secctl := 0, keyseq := 0,
    extdst := 0, extsrc := 0, secfc := 0, secsrc := 0, mic := 0 }

/-- ZERO_APS (10_state.md R65). -/
def ApsFields.zero : ApsFields := { fc := 0, dst := 0, cluster := 0, profile := 0, srcep := 0, ctr := 0 }

/-- ZERO_ZCL (10_state.md R65). -/
def ZclFields.zero : ZclFields := { fc := 0, seq := 0, cmd := 0 }

/-- The state right after hardware reset (70_reset_and_hazards.md R360). DESIGN CHOICE: the KEY words and the
power-on image of DMEM, unspecified there, are zero here (log entries 6 and 7); nothing is pending from outside. -/
def State.reset : State :=
  { cur := 0
    status := .zero
    ie := false
    errInfo := .zero
    key := .zero
    kw := .zero
    nonce := .zero
    mic := 0
    fc := 0
    seqctr := 0
    regions := .zero
    oLen := 0
    mac := .zero
    nwk := .zero
    aps := .zero
    zcl := .zero
    dmem := { cells := [], powerOn := [] }
    wait := 0
    latencies := []
    inbox := []
    busData := 0
    draws := 0 }

end Sys2Proof.Machine
end

