-- ==== Sys2Proof/Machine/Flags.lean ====
section
/-! DEFINITION. The result fields of STATUS and ERR_INFO, their codes, KEY_SET, IRQ, and what a completion writes
(10_state.md R36, R38, R39, R68; 60_exceptions.md R330, R332, R333). -/

namespace Sys2Proof.Machine

/-- The code of STATUS.ERR (60_exceptions.md R330). -/
def ErrCode.code : ErrCode → BitVec 4
  | .none => 0
  | .illegalCmd => 1
  | .param => 2
  | .range => 3
  | .overlap => 4
  | .noKey => 5
  | .addressing => 6
  | .fcExhausted => 7
  | .malformed => 8
  | .overflow => 9

/-- The code of STATUS.AUTH (10_state.md R36). -/
def Auth.code : Auth → BitVec 2
  | .notChecked => 0
  | .pass => 1
  | .fail => 2

/-- The layer code of ERR_INFO.LAYER and STATUS.DEPTH (00_scope.md R19). -/
def Layer.code : Layer → BitVec 3
  | .none => 0
  | .mac => 1
  | .nwk => 2
  | .aps => 3
  | .zcl => 4

/-- The code of STATUS.ROUTE (10_state.md R36). -/
def Route.code : Route → BitVec 2
  | .raw => 0
  | .zcl => 1
  | .joinMgmt => 2

/-- The code of NWK_FC.FAIL (10_state.md R52). -/
def NwkFail.code : NwkFail → BitVec 3
  | .none => 0
  | .hdr => 1
  | .aux => 2
  | .nonceSrc => 3
  | .noKey => 4
  | .mic => 5

/-- `kw[0] and kw[1] and kw[2] and kw[3]` (10_state.md R39). -/
def KeyWritten.all (k : KeyWritten) : Bool := k.k0 && k.k1 && k.k2 && k.k3

/-- STATUS.KEY_SET (10_state.md R36, R39). -/
def State.keySet (s : State) : Bool := s.kw.all

/-- The interrupt output IRQ = CTRL.IE and STATUS.DONE (10_state.md R68, 60_exceptions.md R339). -/
def State.irq (s : State) : Bool := s.ie && s.status.done

/-- STATUS as the host reads it (10_state.md R36). -/
def State.statusWord (s : State) : Word :=
  placeBit 0 s.status.busy ||| placeBit 1 s.status.done ||| placeBit 2 s.status.ovr |||
  placeBit 3 s.status.buserr ||| place 4 s.status.err.code ||| place 8 s.status.auth.code |||
  placeBit 10 s.keySet ||| place 11 s.status.depth.code ||| place 14 s.status.route.code |||
  placeBit 16 s.status.dfail

/-- ERR_INFO as the host reads it (10_state.md R38). -/
def ErrInfo.word (e : ErrInfo) : Word := place 0 e.offset ||| place 12 e.layer.code

/-- The result fields a completion writes; the defaults are those of a command whose rule names no value
(60_exceptions.md R333). -/
structure Report where
  err : ErrCode := .none
  auth : Auth := .notChecked
  depth : Layer := .none
  route : Route := .raw
  dfail : Bool := false
  layer : Layer := .none
  offset : Nat := 0
deriving DecidableEq, Repr

/-- STATUS after a completion with these results: OVR, BUSERR and KEY_SET are not written (60_exceptions.md R333). -/
def Status.completed (st : Status) (r : Report) : Status :=
  { st with
    busy := false, done := true, err := r.err, auth := r.auth, depth := r.depth, route := r.route, dfail := r.dfail }

/-- ERR_INFO after a completion with these results (60_exceptions.md R332). -/
def Report.errInfo (r : Report) : ErrInfo := { layer := r.layer, offset := BitVec.ofNat 12 r.offset }

/-- STATUS after a host write of `v`: a 1 in bits 1, 2, 3 clears DONE, OVR, BUSERR; every other bit is RO or RSV
(10_state.md R33, R36). -/
def Status.hostWritten (st : Status) (v : Word) : Status :=
  { st with
    done := st.done && !v.getLsbD 1, ovr := st.ovr && !v.getLsbD 2, buserr := st.buserr && !v.getLsbD 3 }

end Sys2Proof.Machine
end

