-- ==== Sys2Proof/Machine/Ops.lean ====
section
/-! DEFINITION. The named operations over DMEM and registers, and the end of a command: `complete`, and `raise` as
an error completion. The ZFE has no trap and no return from one (60_exceptions.md R340, R341): raising an error is
its whole exception mechanism. -/

namespace Sys2Proof.Machine

/-- What a DMEM address reads as while no cell stands there: the byte of the power-on image (10_state.md R69). -/
def Dmem.unwritten (m : Dmem) (a : Nat) : Byte := m.powerOn.getD a 0

/-- The byte a cell list holds at an address. -/
def cellAt : List Host.Cell → Nat → Option Byte
  | [], _ => none
  | c :: cs, a => if c.1 = a then some c.2 else cellAt cs a

/-- A cell list with the byte at `a` set, in rising order. -/
def putCell : List Host.Cell → Nat → Byte → List Host.Cell
  | [], a, v => [(a, v)]
  | c :: cs, a, v => if a < c.1 then (a, v) :: c :: cs else if a = c.1 then (a, v) :: cs else c :: putCell cs a v

/-- A cell list with no byte at `a`. -/
def dropCell (cs : List Host.Cell) (a : Nat) : List Host.Cell := cs.filter (fun c => c.1 ≠ a)

/-- `DMEM[a]` (10_state.md R66). -/
def Dmem.read (m : Dmem) (a : Nat) : Byte := (cellAt m.cells a).getD (m.unwritten a)

/-- `DMEM[a] <- v`, keeping the canonical form: a value that the address reads as unlisted is not listed. -/
def Dmem.write (m : Dmem) (a : Nat) (v : Byte) : Dmem :=
  if v = m.unwritten a then { m with cells := dropCell m.cells a } else { m with cells := putCell m.cells a v }

/-- The canonical form of DMEM: addresses strictly rising, inside the 512 bytes, and no cell equal to what its
address reads as unlisted. -/
abbrev Dmem.wf (m : Dmem) : Prop :=
  m.cells.Pairwise (fun c d => c.1 < d.1) ∧ ∀ c ∈ m.cells, c.1 < Config.dmemBytes ∧ c.2 ≠ m.unwritten c.1

/-- `DMEM[a..a+n)`. -/
def Dmem.readBytes (m : Dmem) (a : Nat) : Nat → Bytes
  | 0 => []
  | n + 1 => m.read a :: Dmem.readBytes m (a + 1) n

/-- `DMEM[a..a+len(b)) <- b`. -/
def Dmem.writeBytes (m : Dmem) (a : Nat) : Bytes → Dmem
  | [] => m
  | x :: b => Dmem.writeBytes (m.write a x) (a + 1) b

/-- An error a command raises: its code and its ERR_INFO contents (00_scope.md R16, 60_exceptions.md R332). -/
structure CmdError where
  code : ErrCode
  layer : Layer := .none
  offset : Nat := 0
deriving DecidableEq, Repr

/-- Why a command's body ends without a result. -/
inductive Halt where
  /-- The command raises an error and completes with it (60_exceptions.md R333). -/
  | error (e : CmdError)
  /-- The machine stops; no command of this model does (00_scope.md R15). -/
  | fault (f : Fault)
deriving DecidableEq, Repr

/-- `raise <Error>(layer, offset)` (00_scope.md R16). -/
def raise {α : Type} (code : ErrCode) (layer : Layer := .none) (offset : Nat := 0) : Except Halt α :=
  .error (.error { code := code, layer := layer, offset := offset })

/-- The result fields of a command that raises: AUTH = NOT_CHECKED, DEPTH = 0, ROUTE = RAW, DFAIL = 0
(60_exceptions.md R333). -/
def CmdError.report (e : CmdError) : Report := { err := e.code, layer := e.layer, offset := e.offset }

/-- The completion fields, written at every completion (60_exceptions.md R333, R337). -/
def State.complete (s : State) (r : Report) : State :=
  { s with status := s.status.completed r, errInfo := r.errInfo }

/-- The end of a command whose body ran on `s`: a result completes its own state, an error completes `s` itself, so
that nothing else changes (60_exceptions.md R333, R334). -/
def State.finish (s : State) (body : Except Halt (State × Report)) : Host.Outcome State Fault Refusal :=
  match body with
  | .ok (t, r) => .next (t.complete r)
  | .error (.error e) => .next (s.complete e.report)
  | .error (.fault f) => .fault f

/-- `MemRead(a, n)`, defined only inside DMEM (00_scope.md R15). -/
def memRead (s : State) (a n : Nat) : Except Halt Bytes :=
  if a + n ≤ Config.dmemBytes then .ok (s.dmem.readBytes a n) else .error (.fault (.dmemRange (a + n)))

/-- `MemWrite(a, len(b), b)`, defined only inside DMEM (00_scope.md R15). -/
def memWrite (s : State) (a : Nat) (b : Bytes) : Except Halt State :=
  if a + b.length ≤ Config.dmemBytes then .ok { s with dmem := s.dmem.writeBytes a b }
  else .error (.fault (.dmemRange (a + b.length)))

/-- The byte string four words hold: byte `4k + j` is bits `8j+7 : 8j` of word k (10_state.md R40, R41). -/
def Words4.bytes (w : Words4) : Bytes := leOf w.w0 ++ leOf w.w1 ++ leOf w.w2 ++ leOf w.w3

/-- The four words of a 16-byte string (10_state.md R41). -/
def Words4.ofBytes (b : Bytes) : Words4 :=
  { w0 := fieldAt 32 b 0, w1 := fieldAt 32 b 4, w2 := fieldAt 32 b 8, w3 := fieldAt 32 b 12 }

/-- `AES_ENC(K, B)` (00_scope.md R13). -/
def aesEnc (k b : Bytes) : Bytes := le 16 (Config.aes (BitVec.ofNat 128 (rdLe k)) (BitVec.ofNat 128 (rdLe b))).toNat

/-- `AES_DEC(K, B)` (00_scope.md R13). -/
def aesDec (k b : Bytes) : Bytes :=
  le 16 ((Config.aes (BitVec.ofNat 128 (rdLe k))).symm (BitVec.ofNat 128 (rdLe b))).toNat

/-- The forward cipher under the key the state holds (10_state.md R40). -/
def State.cipher (s : State) : Bytes → Bytes := aesEnc s.key.bytes

/-- The inverse cipher under the key the state holds. -/
def State.decipher (s : State) : Bytes → Bytes := aesDec s.key.bytes

/-- Word k of four. -/
def Words4.get (w : Words4) : Fin 4 → Word
  | 0 => w.w0
  | 1 => w.w1
  | 2 => w.w2
  | 3 => w.w3

/-- Four words with word k replaced. -/
def Words4.set (w : Words4) (v : Word) : Fin 4 → Words4
  | 0 => { w with w0 := v }
  | 1 => { w with w1 := v }
  | 2 => { w with w2 := v }
  | 3 => { w with w3 := v }

/-- `kw[k] <- 1` (10_state.md R39). -/
def KeyWritten.set (w : KeyWritten) : Fin 4 → KeyWritten
  | 0 => { w with k0 := true }
  | 1 => { w with k1 := true }
  | 2 => { w with k2 := true }
  | 3 => { w with k3 := true }

end Sys2Proof.Machine
end

