-- ==== Sys2Proof/Machine/Operands.lean ====
section
/-! DEFINITION. The region operands: which registers name them, the range and overlap checks, the key check, reading
an input and writing an output (30_encoding.md R123 to R126). -/

namespace Sys2Proof.Machine

/-- The five regions (10_state.md R45). -/
inductive Region where
  | i
  | p
  | o
  | a
  | m
deriving DecidableEq, Repr

/-- The operand code of ERR_INFO.OFFSET: 1 = I, 2 = P, 3 = O, 4 = A, 5 = M (30_encoding.md R124). -/
def Region.code : Region → Nat
  | .i => 1
  | .p => 2
  | .o => 3
  | .a => 4
  | .m => 5

/-- The pointer of a region, a DMEM offset (10_state.md R45). -/
def Regions.ptr (r : Regions) : Region → Nat
  | .i => r.iPtr.toNat
  | .p => r.pPtr.toNat
  | .o => r.oPtr.toNat
  | .a => r.aPtr.toNat
  | .m => r.mPtr.toNat

/-- The length of a region, O_CAP for O (10_state.md R45). -/
def Regions.len (r : Regions) : Region → Nat
  | .i => r.iLen.toNat
  | .p => r.pLen.toNat
  | .o => r.oCap.toNat
  | .a => r.aLen.toNat
  | .m => r.mLen.toNat

/-- `ptr + len <= DMEM_BYTES`, without wrap-around (30_encoding.md R124). -/
def Regions.inRange (r : Regions) (x : Region) : Bool := r.ptr x + r.len x ≤ Config.dmemBytes

/-- `m > 0 and n > 0 and a < b + n and b < a + m` (30_encoding.md R125). -/
def Regions.overlap (r : Regions) (x y : Region) : Bool :=
  0 < r.len x && 0 < r.len y && r.ptr x < r.ptr y + r.len y && r.ptr y < r.ptr x + r.len x

/-- The range check of the regions a command uses, in the order given, which is I, P, A, M, O; the first that fails
raises RANGE with its operand code (30_encoding.md R124). -/
def rangeCheck (r : Regions) : List Region → Except Halt Unit
  | [] => .ok ()
  | x :: xs => if r.inRange x then rangeCheck r xs else raise .range .none x.code

/-- The overlap check of one pair; OVERLAP carries the operand code of `x`: 1 for (I, O), 2 for (P, O), 4 for (A, M)
(30_encoding.md R125). -/
def overlapCheck (r : Regions) (x y : Region) : Except Halt Unit :=
  if r.overlap x y then raise .overlap .none x.code else .ok ()

/-- NOKEY while KEY_SET = 0 (60_exceptions.md R330). -/
def keyCheck (s : State) : Except Halt Unit := if s.keySet then .ok () else raise .noKey

/-- The bytes of a region (30_encoding.md R123). -/
def regionBytes (s : State) (x : Region) : Except Halt Bytes := memRead s (s.regions.ptr x) (s.regions.len x)

/-- The output of a command: OVERFLOW when it is longer than O_CAP, else written at O_PTR with O_LEN its length; the
bytes past it are unchanged (30_encoding.md R126). -/
def putOutput (s : State) (out : Bytes) : Except Halt State :=
  if out.length ≤ s.regions.len .o then do
    let t ← memWrite s (s.regions.ptr .o) out
    .ok { t with oLen := BitVec.ofNat 16 out.length }
  else raise .overflow

/-- The checks and the input of a command that reads I and writes O (30_encoding.md R123 to R125). -/
def inputOfI (s : State) : Except Halt Bytes := do
  rangeCheck s.regions [.i, .o]
  overlapCheck s.regions .i .o
  regionBytes s .i

/-- The checks and the payload of a command that reads P and writes O (30_encoding.md R123 to R125). -/
def inputOfP (s : State) : Except Halt Bytes := do
  rangeCheck s.regions [.p, .o]
  overlapCheck s.regions .p .o
  regionBytes s .p

end Sys2Proof.Machine
end

