-- ==== Sys2Proof/Machine/Mac.lean ====
section
/-! DEFINITION. The IEEE 802.15.4 MAC codec and the commands MAC_DEC, MAC_ENC (41_mac.md; 30_encoding.md R130 to
R133). -/

namespace Sys2Proof.Machine

/-- TYPE, bits 2:0 of the MAC frame control (30_encoding.md R130). -/
def macType (fc : Half) : Nat := (fc.extractLsb' 0 3).toNat

/-- PANC, bit 6 (30_encoding.md R130). -/
def macPanc (fc : Half) : Bool := fc.getLsbD 6

/-- DMODE, bits 11:10 (30_encoding.md R130). -/
def macDmode (fc : Half) : Nat := (fc.extractLsb' 10 2).toNat

/-- SMODE, bits 15:14 (30_encoding.md R130). -/
def macSmode (fc : Half) : Nat := (fc.extractLsb' 14 2).toNat

/-- `alen(2) = 2`, `alen(3) = 8` (30_encoding.md R132). -/
def alen (mode : Nat) : Nat := if mode = 3 then 8 else 2

/-- A frame control with PANC replaced (10_state.md R48). -/
def withPanc (fc : Half) (panc : Bool) : Half := (fc &&& ~~~0x0040#16) ||| ((BitVec.ofBool panc).setWidth 16 <<< 6)

/-- `take(n)` at offset `p` of a frame: the value and the next offset, or the offset of the field that could not be
read (41_mac.md R201, 43_aps_zcl.md R270). -/
def takeField (b : Bytes) (p n : Nat) : Except Nat (Nat × Nat) :=
  if p + n > b.length then .error p else .ok (rdLe (slice b p n), p + n)

/-- A field that is present only when `present`; an absent one is 0 and takes no byte (41_mac.md R202). -/
def takeIf (present : Bool) (b : Bytes) (p n : Nat) : Except Nat (Nat × Nat) :=
  if present then takeField b p n else .ok (0, p)

/-- The fields after the sequence number of a MAC frame whose frame control is `fc` (41_mac.md R201, R203). -/
def macDecodeFields (b : Bytes) (fc : Half) : Except Nat (MacFields × Bytes) := do
  let hasDst := macDmode fc ≠ 0
  let hasSrc := macSmode fc ≠ 0
  let (dpan, p) ← takeIf hasDst b 3 2
  let (daddr, p) ← takeIf hasDst b p (alen (macDmode fc))
  let (span, p) ← takeIf (hasSrc && !macPanc fc) b p 2
  let (saddr, p) ← takeIf hasSrc b p (alen (macSmode fc))
  let (cmd, p) ← takeIf (macType fc = 3) b p 1
  let reuse := hasSrc && macPanc fc && hasDst
  .ok
    ({ fc := fc
       spanp := reuse || (hasSrc && !macPanc fc)
       seq := b.getD 2 0
       cmd := BitVec.ofNat 8 cmd
       dpan := BitVec.ofNat 16 dpan
       span := BitVec.ofNat 16 (if reuse then dpan else span)
       daddr := BitVec.ofNat 64 daddr
       saddr := BitVec.ofNat 64 saddr },
     b.drop p)

/-- MAC_DECODE: the fields and the payload, or `Malformed(off)` (41_mac.md R200, R201, R207). -/
def macDecode (b : Bytes) : Except Nat (MacFields × Bytes) :=
  let fc := fieldAt 16 b 0
  if b.length < 2 then .error 0
  else if macDmode fc = 1 ∨ macSmode fc = 1 then .error 0
  else if b.length < 3 then .error 2
  else macDecodeFields b fc

/-- PANC_OF (41_mac.md R212). -/
def pancOf (f : MacFields) : Bool :=
  macSmode f.fc = 0 || !f.spanp || (macDmode f.fc ≠ 0 && f.span = f.dpan)

/-- A reserved addressing mode, the one addressing error of the MAC encoder (41_mac.md R211). -/
def macBadModes (f : MacFields) : Bool := macDmode f.fc = 1 || macSmode f.fc = 1

/-- The frame MAC_ENCODE emits when no mode is reserved (41_mac.md R206). -/
def macFrame (f : MacFields) (pl : Bytes) : Bytes :=
  leOf (withPanc f.fc (pancOf f)) ++ [f.seq] ++
  (if macDmode f.fc ≠ 0 then leOf f.dpan ++ le (alen (macDmode f.fc)) f.daddr.toNat else []) ++
  (if macSmode f.fc ≠ 0 then
    (if pancOf f then [] else leOf f.span) ++ le (alen (macSmode f.fc)) f.saddr.toNat
  else []) ++
  (if macType f.fc = 3 then [f.cmd] else []) ++ pl

/-- MAC_ENCODE: the frame and the derived PANC, or `none` for `Addressing` (41_mac.md R200, R206). -/
def macEncode (f : MacFields) (pl : Bytes) : Option (Bytes × Bool) :=
  if macBadModes f then none else some (macFrame f pl, pancOf f)

/-- The record the encoder takes: with ASEQ its sequence number is the next one of SEQCTR (41_mac.md R214). -/
def macOperand (s : State) (aseq : Bool) : MacFields :=
  if aseq then { s.mac with seq := s.seqctr + 1 } else s.mac

/-- The registers a MAC encode writes: PANC, and with ASEQ the sequence number in MAC_SQC and SEQCTR
(41_mac.md R214, R216). -/
def putMacEncoded (s : State) (aseq panc : Bool) : State :=
  let t := { s with mac := { s.mac with fc := withPanc s.mac.fc panc } }
  if aseq then { t with seqctr := s.seqctr + 1, mac := { t.mac with seq := s.seqctr + 1 } } else t

/-- MAC_DEC (41_mac.md R215). -/
def macDecBody (s : State) : Except Halt (State × Report) := do
  let b ← inputOfI s
  match macDecode b with
  | .error off => raise .malformed .mac off
  | .ok (f, p) => do
    let t ← putOutput { s with mac := f } p
    .ok (t, {})

/-- MAC_ENC (41_mac.md R216). -/
def macEncBody (aseq : Bool) (s : State) : Except Halt (State × Report) := do
  let pl ← inputOfP s
  match macEncode (macOperand s aseq) pl with
  | none => raise .addressing .mac
  | some (b, panc) => do
    let t ← putOutput (putMacEncoded s aseq panc) b
    .ok (t, {})

/-- MAC_DEC (41_mac.md R215). -/
def execMacDec (s : State) : Host.Outcome State Fault Refusal := s.finish (macDecBody s)

/-- MAC_ENC (41_mac.md R216). -/
def execMacEnc (aseq : Bool) (s : State) : Host.Outcome State Fault Refusal := s.finish (macEncBody aseq s)

end Sys2Proof.Machine
end

