-- ==== Sys2Proof/Machine/ApsZcl.lean ====
section
/-! DEFINITION. The APS and ZCL codecs and the commands APS_DEC, APS_ENC, ZCL_DEC, ZCL_ENC (43_aps_zcl.md;
30_encoding.md R140 to R144). -/

namespace Sys2Proof.Machine

/-- DMODE, bits 3:2 of the APS frame control (30_encoding.md R140). -/
def apsDmode (fc : Byte) : Nat := (fc.extractLsb' 2 2).toNat

/-- The destination width: 2 bytes for a group id, else 1 for an endpoint (43_aps_zcl.md R271). -/
def apsDstLen (fc : Byte) : Nat := if apsDmode fc = 3 then 2 else 1

/-- The fields after the frame control of an APS frame (43_aps_zcl.md R270). DEDUCED, log entry 22: a group frame has a
header of 9 bytes, as R270, R272, 30_encoding.md R142 and 95_test_vectors.md 5.2 have it, and one of 8 bytes is
malformed at offset 8; R280's corner case "an 8-byte group frame with no payload gives O_LEN = 0" says otherwise. -/
def apsDecodeFields (b : Bytes) (fc : Byte) : Except Nat (ApsFields × Bytes) := do
  let (dst, p) ← takeField b 1 (apsDstLen fc)
  let (cluster, p) ← takeField b p 2
  let (profile, p) ← takeField b p 2
  let (srcep, p) ← takeField b p 1
  let (ctr, p) ← takeField b p 1
  .ok
    ({ fc := fc
       dst := BitVec.ofNat 16 dst
       cluster := BitVec.ofNat 16 cluster
       profile := BitVec.ofNat 16 profile
       srcep := BitVec.ofNat 8 srcep
       ctr := BitVec.ofNat 8 ctr },
     b.drop p)

/-- APS_DECODE (43_aps_zcl.md R270, R272). -/
def apsDecode (b : Bytes) : Except Nat (ApsFields × Bytes) :=
  if b.length < 1 then .error 0 else apsDecodeFields b (b.getD 0 0)

/-- APS_ENCODE; it cannot fail (43_aps_zcl.md R273). -/
def apsEncode (f : ApsFields) (pl : Bytes) : Bytes :=
  [f.fc] ++ le (apsDstLen f.fc) f.dst.toNat ++ leOf f.cluster ++ leOf f.profile ++ [f.srcep, f.ctr] ++ pl

/-- ZCL_DECODE (43_aps_zcl.md R282). -/
def zclDecode (b : Bytes) : Except Nat (ZclFields × Bytes) :=
  if b.length < 3 then .error b.length
  else .ok ({ fc := b.getD 0 0, seq := b.getD 1 0, cmd := b.getD 2 0 }, b.drop 3)

/-- ZCL_ENCODE; it cannot fail (43_aps_zcl.md R284). -/
def zclEncode (f : ZclFields) (pl : Bytes) : Bytes := [f.fc, f.seq, f.cmd] ++ pl

/-- APS_DEC (43_aps_zcl.md R280). -/
def apsDecBody (s : State) : Except Halt (State × Report) := do
  let b ← inputOfI s
  match apsDecode b with
  | .error off => raise .malformed .aps off
  | .ok (f, p) => do
    let t ← putOutput { s with aps := f } p
    .ok (t, {})

/-- APS_ENC (43_aps_zcl.md R281). -/
def apsEncBody (s : State) : Except Halt (State × Report) := do
  let pl ← inputOfP s
  let t ← putOutput s (apsEncode s.aps pl)
  .ok (t, {})

/-- ZCL_DEC (43_aps_zcl.md R286). -/
def zclDecBody (s : State) : Except Halt (State × Report) := do
  let b ← inputOfI s
  match zclDecode b with
  | .error off => raise .malformed .zcl off
  | .ok (f, p) => do
    let t ← putOutput { s with zcl := f } p
    .ok (t, {})

/-- ZCL_ENC (43_aps_zcl.md R287). -/
def zclEncBody (s : State) : Except Halt (State × Report) := do
  let pl ← inputOfP s
  let t ← putOutput s (zclEncode s.zcl pl)
  .ok (t, {})

/-- APS_DEC (43_aps_zcl.md R280). -/
def execApsDec (s : State) : Host.Outcome State Fault Refusal := s.finish (apsDecBody s)

/-- APS_ENC (43_aps_zcl.md R281). -/
def execApsEnc (s : State) : Host.Outcome State Fault Refusal := s.finish (apsEncBody s)

/-- ZCL_DEC (43_aps_zcl.md R286). -/
def execZclDec (s : State) : Host.Outcome State Fault Refusal := s.finish (zclDecBody s)

/-- ZCL_ENC (43_aps_zcl.md R287). -/
def execZclEnc (s : State) : Host.Outcome State Fault Refusal := s.finish (zclEncBody s)

end Sys2Proof.Machine
end

