-- ==== Sys2Proof/Machine/Ccm.lean ====
section
/-! DEFINITION. The CCM* functions and the commands AES_ENC, AES_DEC, CCM_ENC, CCM_DEC (40_aes_ccm.md). The functions
take the forward cipher under the key, `enc = AES_ENC(K, ·)`, as an argument. -/

namespace Sys2Proof.Machine

/-- The flags byte of B0: 0x49 with auth data, 0x09 without (40_aes_ccm.md R161). -/
def ccmFlags (a : Bytes) : Byte := if a.length = 0 then 0x09 else 0x49

/-- The first MAC block, `[flags] ++ N[1..14) ++ be16(len(m))` (40_aes_ccm.md R161). -/
def ccmB0 (n a m : Bytes) : Bytes := ccmFlags a :: (slice n 1 13 ++ be16 m.length)

/-- The auth blocks: none without auth data, else `pad16(be16(len(a)) ++ a)` (40_aes_ccm.md R162). -/
def authBlocks (a : Bytes) : List Bytes := if a.length = 0 then [] else blocks16 (be16 a.length ++ a)

/-- The chained block after a list of MAC blocks (40_aes_ccm.md R164). -/
def cbcChain (enc : Bytes → Bytes) (x : Bytes) (bs : List Bytes) : Bytes :=
  bs.foldl (fun y b => enc (xorBytes y b)) x

/-- CBC_TAG, the 4-byte cleartext MIC; the auth part and the message part are padded separately
(40_aes_ccm.md R163, R164). -/
def cbcTag (enc : Bytes → Bytes) (n a m : Bytes) : Bytes :=
  (cbcChain enc (zeros 16) (ccmB0 n a m :: (authBlocks a ++ blocks16 m))).take 4

/-- A tag masked, or a MIC unmasked, with the first 4 bytes of `S0 = AES_ENC(K, N)` (40_aes_ccm.md R165). -/
def maskTag (enc : Bytes → Bytes) (n t : Bytes) : Bytes := xorBytes t ((enc n).take 4)

/-- The nonce with byte 15 incremented mod 256, no carry into byte 14 (40_aes_ccm.md R166). -/
def bumpNonce (n : Bytes) : Bytes := n.set 15 (n.getD 15 0 + 1)

/-- The counter pass over the next `k` blocks of `d`: the result and the advanced nonce (40_aes_ccm.md R166). -/
def ctrBlocks (enc : Bytes → Bytes) : Nat → Bytes → Bytes → Bytes × Bytes
  | 0, n, _ => ([], n)
  | k + 1, n, d =>
    let r := ctrBlocks enc k (bumpNonce n) (d.drop 16)
    (xorBytes (d.take 16) (enc (bumpNonce n)) ++ r.1, r.2)

/-- CTR (40_aes_ccm.md R166). -/
def ctr (enc : Bytes → Bytes) (n d : Bytes) : Bytes × Bytes := ctrBlocks enc (blockCount d.length) n d

/-- The results of CCM_ENCRYPT: ciphertext, masked MIC, advanced nonce (40_aes_ccm.md R167). -/
structure CcmSealed where
  c : Bytes
  u : Bytes
  nonce : Bytes
deriving DecidableEq, Repr

/-- CCM_ENCRYPT (40_aes_ccm.md R167). -/
def ccmEncrypt (enc : Bytes → Bytes) (n a m : Bytes) : CcmSealed :=
  { c := (ctr enc n m).1, u := maskTag enc n (cbcTag enc n a m), nonce := (ctr enc n m).2 }

/-- The results of CCM_DECRYPT: message, authentication result, advanced nonce (40_aes_ccm.md R168). -/
structure CcmOpened where
  m : Bytes
  auth : Auth
  nonce : Bytes
deriving DecidableEq, Repr

/-- CCM_DECRYPT: the message is recovered always, the tag recomputed over it with the nonce as it stood before the
counter pass (40_aes_ccm.md R168). -/
def ccmDecrypt (enc : Bytes → Bytes) (n a c u : Bytes) (validate : Bool) : CcmOpened :=
  let m := (ctr enc n c).1
  { m := m
    auth :=
      if validate then (if cbcTag enc n a m = maskTag enc n u then .pass else .fail) else .notChecked
    nonce := (ctr enc n c).2 }

/-- The common prologue of AES_ENC and AES_DEC, and the block they read (40_aes_ccm.md R173). -/
def aesInput (s : State) : Except Halt Bytes := do
  if s.regions.iLen.toNat ≠ 16 then raise .param .none 1
  rangeCheck s.regions [.i, .o]
  overlapCheck s.regions .i .o
  keyCheck s
  if s.regions.len .o < 16 then raise .overflow
  regionBytes s .i

/-- A raw AES command through the cipher `f` (40_aes_ccm.md R175, R176). -/
def aesBody (f : Bytes → Bytes) (s : State) : Except Halt (State × Report) := do
  let b ← aesInput s
  let t ← putOutput s (f b)
  .ok (t, {})

/-- AES_ENC (40_aes_ccm.md R175). -/
def execAesEnc (s : State) : Host.Outcome State Fault Refusal := s.finish (aesBody s.cipher s)

/-- AES_DEC (40_aes_ccm.md R176). -/
def execAesDec (s : State) : Host.Outcome State Fault Refusal := s.finish (aesBody s.decipher s)

/-- The common prologue of CCM_ENC and CCM_DEC, and the auth data and message they read (40_aes_ccm.md R174). -/
def ccmInput (s : State) (micLen : BitVec 4) : Except Halt (Bytes × Bytes) := do
  if micLen.toNat ≠ Config.micBytes then raise .param
  rangeCheck s.regions [.a, .m]
  overlapCheck s.regions .a .m
  keyCheck s
  let a ← regionBytes s .a
  let d ← regionBytes s .m
  .ok (a, d)

/-- CCM_ENC on cipher `enc` (40_aes_ccm.md R177). -/
def ccmEncBody (enc : Bytes → Bytes) (micLen : BitVec 4) (s : State) : Except Halt (State × Report) := do
  let (a, d) ← ccmInput s micLen
  let r := ccmEncrypt enc s.nonce.bytes a d
  let t ← memWrite s (s.regions.ptr .m) r.c
  .ok ({ t with mic := fieldAt 32 r.u 0, nonce := .ofBytes r.nonce }, {})

/-- CCM_DEC on cipher `enc`; the message is written even when the check fails, MIC is not changed
(40_aes_ccm.md R178). -/
def ccmDecBody (enc : Bytes → Bytes) (validate : Bool) (micLen : BitVec 4) (s : State) :
    Except Halt (State × Report) := do
  let (a, d) ← ccmInput s micLen
  let r := ccmDecrypt enc s.nonce.bytes a d (leOf s.mic) validate
  let t ← memWrite s (s.regions.ptr .m) r.m
  .ok ({ t with nonce := .ofBytes r.nonce }, { auth := r.auth })

/-- CCM_ENC (40_aes_ccm.md R177). -/
def execCcmEnc (m : BitVec 4) (s : State) : Host.Outcome State Fault Refusal := s.finish (ccmEncBody s.cipher m s)

/-- CCM_DEC (40_aes_ccm.md R178). -/
def execCcmDec (v : Bool) (m : BitVec 4) (s : State) : Host.Outcome State Fault Refusal :=
  s.finish (ccmDecBody s.cipher v m s)

end Sys2Proof.Machine
end

