-- ==== Sys2Proof/Machine/Nwk.lean ====
section
/-! DEFINITION. The Zigbee NWK codec, its nonce mux and the commands NWK_DEC, NWK_ENC (42_nwk.md; 30_encoding.md R134
to R136). -/

namespace Sys2Proof.Machine

/-- TYPE, bits 1:0 of the NWK frame control (30_encoding.md R134). -/
def nwkType (fc : Half) : Nat := (fc.extractLsb' 0 2).toNat

/-- SEC, bit 9 (30_encoding.md R134). -/
def nwkSec (fc : Half) : Bool := fc.getLsbD 9

/-- EXTDSTP, bit 11 (30_encoding.md R134). -/
def nwkExtDstP (fc : Half) : Bool := fc.getLsbD 11

/-- EXTSRCP, bit 12 (30_encoding.md R134). -/
def nwkExtSrcP (fc : Half) : Bool := fc.getLsbD 12

/-- EXTNONCE, bit 5 of the security-control byte (30_encoding.md R136). -/
def extNonce (sc : Byte) : Bool := sc.getLsbD 5

/-- The corrected security-control byte, SECLEVEL = 5 (42_nwk.md R234). -/
def patchSec (sc : Byte) : Byte := (sc &&& 0xF8#8) ||| 0x05#8

/-- The emitted security-control byte, SECLEVEL = 0 (42_nwk.md R245). -/
def emittedSec (sc : Byte) : Byte := sc &&& 0xF8#8

/-- 8 bytes when a 64-bit field is present. -/
def len8 (present : Bool) : Nat := if present then 8 else 0

/-- The NWK header length `h = 8 + 8·EXTDSTP + 8·EXTSRCP` (30_encoding.md R135). -/
def nwkHeaderLen (fc : Half) : Nat := 8 + len8 (nwkExtDstP fc) + len8 (nwkExtSrcP fc)

/-- NWK_NONCE (42_nwk.md R235). -/
def nwkNonce (src : Addr64) (counter : Word) (sc : Byte) : Bytes :=
  [0x01#8] ++ leOf src ++ leOf counter ++ [sc, 0x00#8, 0x00#8]

/-- The result record of NWK_DECODE (42_nwk.md R230). -/
structure NwkResult where
  f : NwkFields
  p : Bytes
  wb : Option (Nat × Byte) := none
  nonce : Option Bytes := none
  auth : Auth := .notChecked
  foff : Nat := 0
deriving DecidableEq, Repr

/-- `fail_hdr(b)` (42_nwk.md R232). -/
def nwkHdrFail (b : Bytes) : NwkResult := { f := { NwkFields.zero with fail := .hdr }, p := b }

/-- The header fields of a frame long enough for its own header (42_nwk.md R231). -/
def nwkHeader (b : Bytes) : NwkFields :=
  let fc := fieldAt 16 b 0
  { NwkFields.zero with
    fc := fc
    dst := fieldAt 16 b 2
    src := fieldAt 16 b 4
    radius := b.getD 6 0
    seq := b.getD 7 0
    extdst := if nwkExtDstP fc then fieldAt 64 b 8 else 0
    extsrc := if nwkExtSrcP fc then fieldAt 64 b (8 + len8 (nwkExtDstP fc)) else 0 }

/-- The 64-bit source of the nonce: the auxiliary source with EXTNONCE, else the header's extended source, else none
(42_nwk.md R240, R244). -/
def nonceSource (f : NwkFields) (sc : Byte) : Option Addr64 :=
  if extNonce sc then some f.secsrc else if nwkExtSrcP f.fc then some f.extsrc else none

/-- The auxiliary security header at offset `h` of a frame long enough for it and the MIC (42_nwk.md R231, R239). -/
def nwkAuxFields (b : Bytes) (h : Nat) (f : NwkFields) : NwkFields :=
  let en := extNonce f.secctl
  { f with
    secfc := fieldAt 32 b (h + 1)
    secsrc := if en then fieldAt 64 b (h + 5) else 0
    keyseq := b.getD (h + 5 + len8 en) 0
    mic := fieldAt 32 b (b.length - 4) }

/-- The security of a decoded frame: `b` corrected, `f` with every field read, `r` the end of the auxiliary header
(42_nwk.md R231, R238 to R242). -/
def nwkOpen (enc : Bytes → Bytes) (keyset : Bool) (b : Bytes) (h r : Nat) (f : NwkFields) : NwkResult :=
  let c := slice b r (b.length - 4 - r)
  let wb := some (h, f.secctl)
  match nonceSource f f.secctl with
  | none => { f := { f with fail := .nonceSrc }, p := c, wb := wb, foff := h }
  | some src =>
    let n := nwkNonce src f.secfc f.secctl
    if keyset then
      let o := ccmDecrypt enc n (b.take r) c (slice b (b.length - 4) 4) true
      if o.auth = .pass then
        { f := { f with valid := true }, p := o.m, wb := wb, nonce := some o.nonce, auth := .pass }
      else
        { f := { f with fail := .mic }, p := c, wb := wb, nonce := some o.nonce, auth := .fail, foff := b.length - 4 }
    else { f := { f with fail := .noKey }, p := c, wb := wb, nonce := some n }

/-- The secured part of NWK_DECODE: header length `h`, header fields `f` (42_nwk.md R231, R234, R237). -/
def nwkDecodeSecured (enc : Bytes → Bytes) (keyset : Bool) (b : Bytes) (h : Nat) (f : NwkFields) : NwkResult :=
  if b.length < h + 1 then { f := { f with fail := .aux }, p := [], foff := h }
  else
    let sc := patchSec (b.getD h 0)
    let b' := b.set h sc
    let g := { f with secctl := sc }
    if b.length < h + 1 + 4 + len8 (extNonce sc) + 1 + 4 then
      { f := { g with fail := .aux }, p := b'.drop h, wb := some (h, sc), foff := h }
    else nwkOpen enc keyset b' h (h + 1 + 4 + len8 (extNonce sc) + 1) (nwkAuxFields b' h g)

/-- NWK_DECODE, total on every byte string (42_nwk.md R230, R231). -/
def nwkDecode (enc : Bytes → Bytes) (keyset : Bool) (b : Bytes) : NwkResult :=
  let fc := fieldAt 16 b 0
  if b.length < 8 then nwkHdrFail b
  else if b.length < nwkHeaderLen fc then nwkHdrFail b
  else if nwkSec fc then nwkDecodeSecured enc keyset b (nwkHeaderLen fc) (nwkHeader b)
  else { f := { nwkHeader b with valid := true }, p := b.drop (nwkHeaderLen fc) }

/-- What a secured NWK encode leaves in the registers (42_nwk.md R244). -/
structure NwkUpdate where
  secfc : Word
  mic : Word
  secctl : Byte
  nonce : Bytes
  fc : Word
deriving DecidableEq, Repr

/-- The check for a key at the top of NWK_ENCODE (42_nwk.md R244). -/
def nwkNoKey (f : NwkFields) (keyset : Bool) : Bool := nwkSec f.fc && !keyset

/-- The check for a nonce source at the top of NWK_ENCODE (42_nwk.md R244). -/
def nwkNoSource (f : NwkFields) : Bool := nwkSec f.fc && !extNonce f.secctl && !nwkExtSrcP f.fc

/-- The check for an exhausted frame counter at the top of NWK_ENCODE (42_nwk.md R244, R246). -/
def nwkExhausted (f : NwkFields) (counter : Word) : Bool := nwkSec f.fc && counter = 0xFFFFFFFF#32

/-- The NWK header NWK_ENCODE emits (42_nwk.md R244). -/
def nwkHeaderBytes (f : NwkFields) : Bytes :=
  leOf f.fc ++ leOf f.dst ++ leOf f.src ++ [f.radius, f.seq] ++
  (if nwkExtDstP f.fc then leOf f.extdst else []) ++ (if nwkExtSrcP f.fc then leOf f.extsrc else [])

/-- The auxiliary security header after the security-control byte (42_nwk.md R244). -/
def nwkAuxBytes (f : NwkFields) (counter : Word) : Bytes :=
  leOf counter ++ (if extNonce f.secctl then leOf f.secsrc else []) ++ [f.keyseq]

/-- The frame and the register updates of NWK_ENCODE when none of its checks fails (42_nwk.md R244, R245). -/
def nwkFrame (enc : Bytes → Bytes) (f : NwkFields) (pl : Bytes) (counter : Word) : Bytes × Option NwkUpdate :=
  if nwkSec f.fc then
    let sc := patchSec f.secctl
    let src := if extNonce sc then f.secsrc else f.extsrc
    let auth := nwkHeaderBytes f ++ [sc] ++ nwkAuxBytes f counter
    let r := ccmEncrypt enc (nwkNonce src counter sc) auth pl
    (nwkHeaderBytes f ++ [emittedSec sc] ++ nwkAuxBytes f counter ++ r.c ++ r.u,
     some { secfc := counter, mic := fieldAt 32 r.u 0, secctl := emittedSec sc, nonce := r.nonce, fc := counter + 1 })
  else (nwkHeaderBytes f ++ pl, none)

/-- The errors NWK_ENCODE returns (42_nwk.md R244). -/
inductive NwkEncError where
  | noKey
  | addressing
  | fcExhausted
deriving DecidableEq, Repr

/-- NWK_ENCODE (42_nwk.md R244). -/
def nwkEncode (enc : Bytes → Bytes) (f : NwkFields) (pl : Bytes) (keyset : Bool) (counter : Word) :
    Except NwkEncError (Bytes × Option NwkUpdate) :=
  if nwkNoKey f keyset then .error .noKey
  else if nwkNoSource f then .error .addressing
  else if nwkExhausted f counter then .error .fcExhausted
  else .ok (nwkFrame enc f pl counter)

/-- The command errors of a NWK encode (42_nwk.md R248). -/
def NwkEncError.raised {α : Type} : NwkEncError → Except Halt α
  | .noKey => raise .noKey
  | .addressing => raise .addressing .nwk
  | .fcExhausted => raise .fcExhausted

/-- The registers a NWK encode writes; an unsecured one writes none (42_nwk.md R248). -/
def putNwkUpdate (s : State) : Option NwkUpdate → State
  | none => s
  | some u =>
    { s with
      nwk := { s.nwk with secfc := u.secfc, mic := u.mic, secctl := u.secctl }, nonce := .ofBytes u.nonce, fc := u.fc }

/-- The write-back of the corrected security-control byte into the I region (42_nwk.md R234). -/
def putWriteBack (s : State) : Option (Nat × Byte) → Except Halt State
  | none => .ok s
  | some (off, v) => memWrite s (s.regions.ptr .i + off) [v]

/-- The NONCE register after a NWK decode (42_nwk.md R236). -/
def putNonce (s : State) : Option Bytes → State
  | none => s
  | some n => { s with nonce := .ofBytes n }

/-- NWK_DEC on cipher `enc` (42_nwk.md R247). -/
def nwkDecBody (enc : Bytes → Bytes) (s : State) : Except Halt (State × Report) := do
  let b ← inputOfI s
  let r := nwkDecode enc s.keySet b
  let t ← putWriteBack (putNonce { s with nwk := r.f } r.nonce) r.wb
  let t ← putOutput t r.p
  .ok (t, { auth := r.auth })

/-- NWK_ENC on cipher `enc` (42_nwk.md R248). -/
def nwkEncBody (enc : Bytes → Bytes) (s : State) : Except Halt (State × Report) := do
  let pl ← inputOfP s
  match nwkEncode enc s.nwk pl s.keySet s.fc with
  | .error e => e.raised
  | .ok (b, u) => do
    let t ← putOutput (putNwkUpdate s u) b
    .ok (t, {})

/-- NWK_DEC (42_nwk.md R247). -/
def execNwkDec (s : State) : Host.Outcome State Fault Refusal := s.finish (nwkDecBody s.cipher s)

/-- NWK_ENC (42_nwk.md R248). -/
def execNwkEnc (s : State) : Host.Outcome State Fault Refusal := s.finish (nwkEncBody s.cipher s)

end Sys2Proof.Machine
end

