-- ==== Sys2Proof/Machine/Facade.lean ====
section
/-! DEFINITION. The parser facade and the commands NOP, PARSE, COMPOSE (44_facade.md). -/

namespace Sys2Proof.Machine

/-- NOP (44_facade.md R300): only the completion fields are written. -/
def execNop (s : State) : Host.Outcome State Fault Refusal := s.finish (.ok (s, {}))

/-- The profile whose payloads are eligible for ZCL decode (44_facade.md R301, R304). -/
def zclProfile : Half := 0x0104

/-- The device profile (44_facade.md R304; 93_implementation_defined.md G13). -/
def deviceProfile : Half := 0x0000

/-- The join-management cluster (44_facade.md R304). -/
def joinCluster : Half := 0x0036

/-- The result record of PARSE_FN (44_facade.md R302). -/
structure ParseResult where
  mac : MacFields := .zero
  nwk : NwkFields := .zero
  aps : ApsFields := .zero
  zcl : ZclFields := .zero
  depth : Layer := .none
  route : Route := .raw
  dfail : Bool := false
  layer : Layer := .none
  offset : Nat := 0
  auth : Auth := .notChecked
  wb : Option (Nat × Byte) := none
  nonce : Option Bytes := none
  out : Bytes := []
deriving DecidableEq, Repr

/-- A descent that stops because a layer failed, at that layer and offset (44_facade.md R305). -/
def ParseResult.failAt (r : ParseResult) (layer : Layer) (offset : Nat) : ParseResult :=
  { r with dfail := true, layer := layer, offset := offset }

/-- The ZCL part of PARSE_FN on the APS payload `ap` (44_facade.md R303, R304). -/
def parseZcl (r : ParseResult) (ap : Bytes) : ParseResult :=
  if r.aps.profile = zclProfile then
    match zclDecode ap with
    | .error off => { r with route := .zcl }.failAt .zcl off
    | .ok (f, zp) => { r with route := .zcl, zcl := f, depth := .zcl, out := zp }
  else if r.aps.profile = deviceProfile ∧ r.aps.cluster = joinCluster then { r with route := .joinMgmt }
  else r

/-- The APS part of PARSE_FN on the NWK payload `np` (44_facade.md R303). -/
def parseAps (r : ParseResult) (np : Bytes) : ParseResult :=
  match apsDecode np with
  | .error off => r.failAt .aps off
  | .ok (f, ap) => parseZcl { r with aps := f, depth := .aps, out := ap } ap

/-- The NWK part of PARSE_FN: `n` the NWK decode's result, `hm` the MAC header length (44_facade.md R303, R309). -/
def parseNwk (r : ParseResult) (n : NwkResult) (hm : Nat) : ParseResult :=
  let r := { r with
    nwk := n.f, auth := n.auth, nonce := n.nonce, wb := n.wb.map (fun (w : Nat × Byte) => (hm + w.1, w.2)) }
  if n.f.fail = .hdr then r.failAt .nwk 0
  else
    let r := { r with depth := .nwk, out := n.p }
    if !n.f.valid then r.failAt .nwk n.foff
    else if nwkType n.f.fc ≠ 0 then r
    else parseAps r n.p

/-- PARSE_FN, or `Malformed(off)` from the MAC layer (44_facade.md R301 to R303). -/
def parseFn (enc : Bytes → Bytes) (keyset : Bool) (b : Bytes) : Except Nat ParseResult :=
  match macDecode b with
  | .error off => .error off
  | .ok (f, mp) =>
    let r : ParseResult := { mac := f, depth := .mac, out := mp }
    if macType f.fc ≠ 1 then .ok r
    else .ok (parseNwk r (nwkDecode enc keyset mp) (b.length - mp.length))

/-- All four field records of a parse, the unreached ones zero, and NONCE (44_facade.md R307, R310). -/
def putParsed (s : State) (r : ParseResult) : State :=
  putNonce { s with mac := r.mac, nwk := r.nwk, aps := r.aps, zcl := r.zcl } r.nonce

/-- The completion fields of a parse (44_facade.md R310). -/
def ParseResult.report (r : ParseResult) : Report :=
  { auth := r.auth, depth := r.depth, route := r.route, dfail := r.dfail, layer := r.layer, offset := r.offset }

/-- PARSE on cipher `enc` (44_facade.md R310). -/
def parseBody (enc : Bytes → Bytes) (s : State) : Except Halt (State × Report) := do
  let b ← inputOfI s
  match parseFn enc s.keySet b with
  | .error off => raise .malformed .mac off
  | .ok r => do
    let t ← putWriteBack (putParsed s r) r.wb
    let t ← putOutput t r.out
    .ok (t, r.report)

/-- PARSE (44_facade.md R310). -/
def execParse (s : State) : Host.Outcome State Fault Refusal := s.finish (parseBody s.cipher s)

/-- COMPOSE's checks in the priority order of the error codes, the NWK layer before the MAC layer where they tie
(60_exceptions.md R331, 44_facade.md R312). R311's pseudocode would report an exhausted FC before a reserved MAC mode;
R331 and R312 give the order modelled. Log entry 12. -/
def composeCheck (s : State) (l : LayerSet) : Except Halt Unit :=
  if l.nwk && nwkNoKey s.nwk s.keySet then raise .noKey
  else if l.nwk && nwkNoSource s.nwk then raise .addressing .nwk
  else if l.mac && macBadModes s.mac then raise .addressing .mac
  else if l.nwk && nwkExhausted s.nwk s.fc then raise .fcExhausted
  else .ok ()

/-- The payload of the NWK layer: the ZCL and APS layers of the set around `pl` (44_facade.md R311). -/
def composeInner (s : State) (l : LayerSet) (pl : Bytes) : Bytes :=
  let d := if l.zcl then zclEncode s.zcl pl else pl
  if l.aps then apsEncode s.aps d else d

/-- The NWK layer of the set around the inner layers (44_facade.md R311). -/
def composeNwk (enc : Bytes → Bytes) (s : State) (l : LayerSet) (pl : Bytes) : Bytes × Option NwkUpdate :=
  let d := composeInner s l pl
  if l.nwk then nwkFrame enc s.nwk d s.fc else (d, none)

/-- The composed frame (44_facade.md R311). -/
def composeFrame (enc : Bytes → Bytes) (s : State) (l : LayerSet) (aseq : Bool) (pl : Bytes) : Bytes :=
  let d := (composeNwk enc s l pl).1
  if l.mac then macFrame (macOperand s aseq) d else d

/-- The registers a COMPOSE writes (44_facade.md R312). -/
def putComposed (s : State) (l : LayerSet) (aseq : Bool) (u : Option NwkUpdate) : State :=
  let t := putNwkUpdate s u
  if l.mac then putMacEncoded t aseq (pancOf (macOperand s aseq)) else t

/-- COMPOSE on cipher `enc` (44_facade.md R312). -/
def composeBody (enc : Bytes → Bytes) (l : LayerSet) (aseq : Bool) (s : State) : Except Halt (State × Report) := do
  let pl ← inputOfP s
  composeCheck s l
  let t ← putOutput (putComposed s l aseq (composeNwk enc s l pl).2) (composeFrame enc s l aseq pl)
  .ok (t, {})

/-- COMPOSE (44_facade.md R312). -/
def execCompose (layers : LayerSet) (aseq : Bool) (s : State) : Host.Outcome State Fault Refusal :=
  s.finish (composeBody s.cipher layers aseq s)

end Sys2Proof.Machine
end

