-- ==== Sys2Proof/Machine/Registers.lean ====
section
/-! DEFINITION. The register map of the host window, and what the host reads from and writes to each register
(10_state.md R33 to R64). -/

namespace Sys2Proof.Machine

/-- The registers of 10_state.md R34 and R47. -/
inductive Reg where
  | cmd
  | status
  | ctrl
  | errInfo
  | key (k : Fin 4)
  | nonce (k : Fin 4)
  | mic
  | fc
  | seqctr
  | iPtr
  | iLen
  | pPtr
  | pLen
  | oPtr
  | oCap
  | oLen
  | aPtr
  | aLen
  | mPtr
  | mLen
  | macFc
  | macSqc
  | macPan
  | macDaddrLo
  | macDaddrHi
  | macSaddrLo
  | macSaddrHi
  | nwkFc
  | nwkAddr
  | nwkHop
  | nwkSec
  | nwkExtdstLo
  | nwkExtdstHi
  | nwkExtsrcLo
  | nwkExtsrcHi
  | nwkSecfc
  | nwkSecsrcLo
  | nwkSecsrcHi
  | nwkMic
  | apsFc
  | apsDst
  | apsCp
  | apsEc
  | zclHdr
deriving DecidableEq, Repr

/-- The CSR map (10_state.md R34). -/
def csrMap : List (Nat × Reg) :=
  [(0x000, .cmd), (0x004, .status), (0x008, .ctrl), (0x00C, .errInfo),
   (0x010, .key 0), (0x014, .key 1), (0x018, .key 2), (0x01C, .key 3),
   (0x020, .nonce 0), (0x024, .nonce 1), (0x028, .nonce 2), (0x02C, .nonce 3),
   (0x030, .mic), (0x034, .fc), (0x038, .seqctr),
   (0x040, .iPtr), (0x044, .iLen), (0x048, .pPtr), (0x04C, .pLen), (0x050, .oPtr), (0x054, .oCap), (0x058, .oLen),
   (0x05C, .aPtr), (0x060, .aLen), (0x064, .mPtr), (0x068, .mLen)]

/-- The field-register map (10_state.md R47). -/
def fieldMap : List (Nat × Reg) :=
  [(0x100, .macFc), (0x104, .macSqc), (0x108, .macPan),
   (0x10C, .macDaddrLo), (0x110, .macDaddrHi), (0x114, .macSaddrLo), (0x118, .macSaddrHi),
   (0x120, .nwkFc), (0x124, .nwkAddr), (0x128, .nwkHop), (0x12C, .nwkSec),
   (0x130, .nwkExtdstLo), (0x134, .nwkExtdstHi), (0x138, .nwkExtsrcLo), (0x13C, .nwkExtsrcHi),
   (0x140, .nwkSecfc), (0x144, .nwkSecsrcLo), (0x148, .nwkSecsrcHi), (0x14C, .nwkMic),
   (0x160, .apsFc), (0x164, .apsDst), (0x168, .apsCp), (0x16C, .apsEc), (0x170, .zclHdr)]

/-- The register at a window offset, none at a reserved one (20_memory.md R86). -/
def regAt (off : Nat) : Option Reg := ((csrMap ++ fieldMap).find? (fun e => e.1 == off)).map Prod.snd

/-- Bits 31:0 of a 64-bit address (10_state.md R51). -/
def lo32 (a : Addr64) : Word := a.extractLsb' 0 32

/-- Bits 63:32 of a 64-bit address (10_state.md R51). -/
def hi32 (a : Addr64) : Word := a.extractLsb' 32 32

/-- A 64-bit address with its low word replaced. -/
def withLo (a : Addr64) (v : Word) : Addr64 := ((hi32 a).setWidth 64 <<< 32) ||| v.setWidth 64

/-- A 64-bit address with its high word replaced. -/
def withHi (a : Addr64) (v : Word) : Addr64 := (v.setWidth 64 <<< 32) ||| (lo32 a).setWidth 64

/-- Bits 15:0. -/
def lo16 (v : Word) : Half := v.extractLsb' 0 16

/-- Bits 31:16. -/
def hi16 (v : Word) : Half := v.extractLsb' 16 16

/-- Byte `k` of a word. -/
def byteOf (k : Nat) (v : Word) : Byte := v.extractLsb' (8 * k) 8

/-- What a host read of a register returns in IDLE: WO fields and reserved bits read 0 (10_state.md R33 to R64). -/
def readReg (s : State) : Reg → Word
  | .cmd => 0
  | .status => s.statusWord
  | .ctrl => placeBit 0 s.ie
  | .errInfo => s.errInfo.word
  | .key _ => 0
  | .nonce k => s.nonce.get k
  | .mic => s.mic
  | .fc => s.fc
  | .seqctr => place 0 s.seqctr
  | .iPtr => place 0 s.regions.iPtr
  | .iLen => place 0 s.regions.iLen
  | .pPtr => place 0 s.regions.pPtr
  | .pLen => place 0 s.regions.pLen
  | .oPtr => place 0 s.regions.oPtr
  | .oCap => place 0 s.regions.oCap
  | .oLen => place 0 s.oLen
  | .aPtr => place 0 s.regions.aPtr
  | .aLen => place 0 s.regions.aLen
  | .mPtr => place 0 s.regions.mPtr
  | .mLen => place 0 s.regions.mLen
  | .macFc => place 0 s.mac.fc ||| placeBit 16 s.mac.spanp
  | .macSqc => place 0 s.mac.seq ||| place 8 s.mac.cmd
  | .macPan => place 0 s.mac.dpan ||| place 16 s.mac.span
  | .macDaddrLo => lo32 s.mac.daddr
  | .macDaddrHi => hi32 s.mac.daddr
  | .macSaddrLo => lo32 s.mac.saddr
  | .macSaddrHi => hi32 s.mac.saddr
  | .nwkFc => place 0 s.nwk.fc ||| placeBit 16 s.nwk.valid ||| place 17 s.nwk.fail.code
  | .nwkAddr => place 0 s.nwk.dst ||| place 16 s.nwk.src
  | .nwkHop => place 0 s.nwk.radius ||| place 8 s.nwk.seq
  | .nwkSec => place 0 s.nwk.secctl ||| place 8 s.nwk.keyseq
  | .nwkExtdstLo => lo32 s.nwk.extdst
  | .nwkExtdstHi => hi32 s.nwk.extdst
  | .nwkExtsrcLo => lo32 s.nwk.extsrc
  | .nwkExtsrcHi => hi32 s.nwk.extsrc
  | .nwkSecfc => s.nwk.secfc
  | .nwkSecsrcLo => lo32 s.nwk.secsrc
  | .nwkSecsrcHi => hi32 s.nwk.secsrc
  | .nwkMic => s.nwk.mic
  | .apsFc => place 0 s.aps.fc
  | .apsDst => place 0 s.aps.dst
  | .apsCp => place 0 s.aps.cluster ||| place 16 s.aps.profile
  | .apsEc => place 0 s.aps.srcep ||| place 8 s.aps.ctr
  | .zclHdr => place 0 s.zcl.fc ||| place 8 s.zcl.seq ||| place 16 s.zcl.cmd

/-- What a host write of `v` to a register stores in IDLE: its RW fields; RO fields and reserved bits ignore it
(10_state.md R33 to R64). CMD and CTRL, whose writes are events, are the bus's (Bus.lean) and store nothing here. -/
def writeReg (s : State) (v : Word) : Reg → State
  | .cmd => s
  | .status => { s with status := s.status.hostWritten v }
  | .ctrl => s
  | .errInfo => s
  | .key k => { s with key := s.key.set v k, kw := s.kw.set k }
  | .nonce k => { s with nonce := s.nonce.set v k }
  | .mic => { s with mic := v }
  | .fc => { s with fc := v }
  | .seqctr => { s with seqctr := byteOf 0 v }
  | .iPtr => { s with regions := { s.regions with iPtr := lo16 v } }
  | .iLen => { s with regions := { s.regions with iLen := lo16 v } }
  | .pPtr => { s with regions := { s.regions with pPtr := lo16 v } }
  | .pLen => { s with regions := { s.regions with pLen := lo16 v } }
  | .oPtr => { s with regions := { s.regions with oPtr := lo16 v } }
  | .oCap => { s with regions := { s.regions with oCap := lo16 v } }
  | .oLen => s
  | .aPtr => { s with regions := { s.regions with aPtr := lo16 v } }
  | .aLen => { s with regions := { s.regions with aLen := lo16 v } }
  | .mPtr => { s with regions := { s.regions with mPtr := lo16 v } }
  | .mLen => { s with regions := { s.regions with mLen := lo16 v } }
  | .macFc => { s with mac := { s.mac with fc := lo16 v, spanp := v.getLsbD 16 } }
  | .macSqc => { s with mac := { s.mac with seq := byteOf 0 v, cmd := byteOf 1 v } }
  | .macPan => { s with mac := { s.mac with dpan := lo16 v, span := hi16 v } }
  | .macDaddrLo => { s with mac := { s.mac with daddr := withLo s.mac.daddr v } }
  | .macDaddrHi => { s with mac := { s.mac with daddr := withHi s.mac.daddr v } }
  | .macSaddrLo => { s with mac := { s.mac with saddr := withLo s.mac.saddr v } }
  | .macSaddrHi => { s with mac := { s.mac with saddr := withHi s.mac.saddr v } }
  | .nwkFc => { s with nwk := { s.nwk with fc := lo16 v } }
  | .nwkAddr => { s with nwk := { s.nwk with dst := lo16 v, src := hi16 v } }
  | .nwkHop => { s with nwk := { s.nwk with radius := byteOf 0 v, seq := byteOf 1 v } }
  | .nwkSec => { s with nwk := { s.nwk with secctl := byteOf 0 v, keyseq := byteOf 1 v } }
  | .nwkExtdstLo => { s with nwk := { s.nwk with extdst := withLo s.nwk.extdst v } }
  | .nwkExtdstHi => { s with nwk := { s.nwk with extdst := withHi s.nwk.extdst v } }
  | .nwkExtsrcLo => { s with nwk := { s.nwk with extsrc := withLo s.nwk.extsrc v } }
  | .nwkExtsrcHi => { s with nwk := { s.nwk with extsrc := withHi s.nwk.extsrc v } }
  | .nwkSecfc => { s with nwk := { s.nwk with secfc := v } }
  | .nwkSecsrcLo => { s with nwk := { s.nwk with secsrc := withLo s.nwk.secsrc v } }
  | .nwkSecsrcHi => { s with nwk := { s.nwk with secsrc := withHi s.nwk.secsrc v } }
  | .nwkMic => { s with nwk := { s.nwk with mic := v } }
  | .apsFc => { s with aps := { s.aps with fc := byteOf 0 v } }
  | .apsDst => { s with aps := { s.aps with dst := lo16 v } }
  | .apsCp => { s with aps := { s.aps with cluster := lo16 v, profile := hi16 v } }
  | .apsEc => { s with aps := { s.aps with srcep := byteOf 0 v, ctr := byteOf 1 v } }
  | .zclHdr => { s with zcl := { s.zcl with fc := byteOf 0 v, seq := byteOf 1 v, cmd := byteOf 2 v } }

/-- The RW bits of a register (10_state.md R33 to R64). CTRL.IE is the one RW bit of CTRL. -/
def Reg.rwMask : Reg → Word
  | .cmd => 0
  | .status => 0
  | .ctrl => 0x00000001
  | .errInfo => 0
  | .key _ => 0
  | .nonce _ => 0xFFFFFFFF
  | .mic => 0xFFFFFFFF
  | .fc => 0xFFFFFFFF
  | .seqctr => 0x000000FF
  | .iPtr => 0x0000FFFF
  | .iLen => 0x0000FFFF
  | .pPtr => 0x0000FFFF
  | .pLen => 0x0000FFFF
  | .oPtr => 0x0000FFFF
  | .oCap => 0x0000FFFF
  | .oLen => 0
  | .aPtr => 0x0000FFFF
  | .aLen => 0x0000FFFF
  | .mPtr => 0x0000FFFF
  | .mLen => 0x0000FFFF
  | .macFc => 0x0001FFFF
  | .macSqc => 0x0000FFFF
  | .macPan => 0xFFFFFFFF
  | .macDaddrLo => 0xFFFFFFFF
  | .macDaddrHi => 0xFFFFFFFF
  | .macSaddrLo => 0xFFFFFFFF
  | .macSaddrHi => 0xFFFFFFFF
  | .nwkFc => 0x0000FFFF
  | .nwkAddr => 0xFFFFFFFF
  | .nwkHop => 0x0000FFFF
  | .nwkSec => 0x0000FFFF
  | .nwkExtdstLo => 0xFFFFFFFF
  | .nwkExtdstHi => 0xFFFFFFFF
  | .nwkExtsrcLo => 0xFFFFFFFF
  | .nwkExtsrcHi => 0xFFFFFFFF
  | .nwkSecfc => 0xFFFFFFFF
  | .nwkSecsrcLo => 0xFFFFFFFF
  | .nwkSecsrcHi => 0xFFFFFFFF
  | .nwkMic => 0xFFFFFFFF
  | .apsFc => 0x000000FF
  | .apsDst => 0x0000FFFF
  | .apsCp => 0xFFFFFFFF
  | .apsEc => 0x0000FFFF
  | .zclHdr => 0x00FFFFFF

end Sys2Proof.Machine
end

