-- ==== Sys2Proof/Machine/Bus.lean ====
section
/-! DEFINITION. The host's side: bus accesses (20_memory.md), command acceptance (60_exceptions.md R336), the soft
reset and its abort (70_reset_and_hazards.md R362, R363), the hardware-reset input (R360), and the host's turn. -/

namespace Sys2Proof.Machine

/-- The window offset of a bus address, none outside the ZFE's window (20_memory.md R81). -/
def windowOffset (addr : Nat) : Option (BitVec 12) :=
  if Config.pBase ≤ addr ∧ addr < Config.pBase + 4096 then some (BitVec.ofNat 12 (addr - Config.pBase)) else none

/-- The number of bytes of an access. -/
def AccessWidth.bytes : AccessWidth → Nat
  | .w8 => 1
  | .w16 => 2
  | .w32 => 4

/-- What a permitted access reaches. -/
inductive Target where
  | reg (r : Reg)
  | dmem (a : Nat)
deriving DecidableEq, Repr

/-- The map of the window with its widths and alignments; none is a refused access (20_memory.md R82, R85, R86). No
naturally aligned access crosses a row of the map. -/
def target (width : AccessWidth) (off : BitVec 12) : Option Target :=
  if off.toNat < 0x200 then
    if width = .w32 then (regAt off.toNat).map .reg else none
  else if 0x400 ≤ off.toNat ∧ off.toNat < 0x600 ∧ off.toNat % width.bytes = 0 then some (.dmem (off.toNat - 0x400))
  else none

/-- The effect of a refused access: BUSERR, nothing else; a refused read returns 0 (20_memory.md R87). -/
def State.refuseAccess (s : State) : State := { s with status := { s.status with buserr := true } }

/-- The little-endian value of `width` bytes of DMEM at `a` (20_memory.md R83). -/
def dmemValue (m : Dmem) (width : AccessWidth) (a : Nat) : Word := BitVec.ofNat 32 (rdLe (m.readBytes a width.bytes))

/-- DMEM after a host write of the low `width` bytes of `v` at `a` (20_memory.md R83). -/
def dmemStore (m : Dmem) (width : AccessWidth) (a : Nat) (v : Word) : Dmem := m.writeBytes a (le width.bytes v.toNat)

/-- The low `width` bytes of a value, zero-extended. -/
def AccessWidth.cut (width : AccessWidth) (v : Word) : Word := BitVec.ofNat 32 (v.toNat % 256 ^ width.bytes)

/-- Registers whose reads while BUSY are not unspecified: STATUS and CTRL read their values, CMD and KEY read 0
(20_memory.md R88). -/
def Reg.readableBusy : Reg → Bool
  | .cmd => true
  | .status => true
  | .ctrl => true
  | .key _ => true
  | _ => false

/-- The data of the read just made. -/
def State.answer (s : State) (v : Word) : State := { s with busData := v }

/-- A read that returns an unspecified value: a fresh free value cut to the access width (20_memory.md R88). -/
def State.answerFree (s : State) (width : AccessWidth) : State :=
  { s with busData := width.cut (Config.busyRead s.draws), draws := s.draws + 1 }

/-- A host read (20_memory.md R83, R87, R88). -/
def hostRead (s : State) (width : AccessWidth) (off : BitVec 12) : State :=
  match target width off with
  | none => s.refuseAccess.answer 0
  | some (.reg r) => if s.status.busy && !r.readableBusy then s.answerFree width else s.answer (readReg s r)
  | some (.dmem a) => if s.status.busy then s.answerFree width else s.answer (dmemValue s.dmem width a)

/-- A CMD write: accepted in IDLE, with the next latency of P_LATENCY; dropped with OVR in BUSY
(60_exceptions.md R336). -/
def writeCmd (s : State) (w : Word) : State :=
  if s.status.busy then { s with status := { s.status with ovr := true } }
  else
    { s with
      cur := w, status := { s.status with busy := true, done := false }, wait := s.latencies.headD 0
      latencies := s.latencies.tail }

/-- The DMEM addresses of `n` bytes from `p`, those past DMEM left out. -/
def spanAddrs (p n : Nat) : List Nat := (List.range (min n (Config.dmemBytes - p))).map (p + ·)

/-- The address of the byte a write-back names, none when the I region is not in DMEM (42_nwk.md R234). -/
def writeBackAddr (s : State) (wb : Bytes → Option (Nat × Byte)) : List Nat :=
  if s.regions.inRange .i then
    match wb (s.dmem.readBytes (s.regions.ptr .i) (s.regions.len .i)) with
    | none => []
    | some (off, _) => [s.regions.ptr .i + off]
  else []

/-- The write-back of a PARSE of `b`. -/
def parseWriteBack (s : State) (b : Bytes) : Option (Nat × Byte) :=
  match parseFn s.cipher s.keySet b with
  | .error _ => none
  | .ok r => r.wb

/-- The DMEM bytes an aborted command leaves unspecified: its whole O region, its M region, its write-back byte
(70_reset_and_hazards.md R363). Log entry 10. -/
def abortAddrs (s : State) (i : Instr) : List Nat :=
  let o := spanAddrs (s.regions.ptr .o) (s.regions.len .o)
  let m := spanAddrs (s.regions.ptr .m) (s.regions.len .m)
  match i with
  | .nop => []
  | .aesEnc => o
  | .aesDec => o
  | .ccmEnc _ => m
  | .ccmDec _ _ => m
  | .macDec => o
  | .macEnc _ => o
  | .nwkDec => o ++ writeBackAddr s (fun b => (nwkDecode s.cipher s.keySet b).wb)
  | .nwkEnc => o
  | .apsDec => o
  | .apsEnc => o
  | .zclDec => o
  | .zclEnc => o
  | .parse => o ++ writeBackAddr s (parseWriteBack s)
  | .compose _ _ => o

/-- Whether an aborted command leaves FC advanced: a NWK_ENC, or a COMPOSE with NWK, whose NWK_FC.SEC = 1, while
KEY_SET = 1 and FC is not exhausted (70_reset_and_hazards.md R363). -/
def abortAdvancesFc (s : State) (i : Instr) : Bool :=
  let secured := nwkSec s.nwk.fc && s.keySet && s.fc ≠ 0xFFFFFFFF#32
  match i with
  | .nop => false
  | .aesEnc => false
  | .aesDec => false
  | .ccmEnc _ => false
  | .ccmDec _ _ => false
  | .macDec => false
  | .macEnc _ => false
  | .nwkDec => false
  | .nwkEnc => secured
  | .apsDec => false
  | .apsEnc => false
  | .zclDec => false
  | .zclEnc => false
  | .parse => false
  | .compose l _ => l.nwk && secured

/-- DMEM with a fresh free value at each of the addresses. -/
def scramble (m : Dmem) (draw : Nat) : List Nat → Dmem
  | [] => m
  | a :: as => scramble (m.write a (Config.abortByte draw a)) draw as

/-- What abandoning `cur` leaves of FC and DMEM; an illegal word would have written neither
(70_reset_and_hazards.md R363). -/
def abortCommand (s : State) : State :=
  match decode s.cur with
  | .error _ => s
  | .ok i =>
    { s with
      fc := if abortAdvancesFc s i then s.fc + 1 else s.fc
      dmem := scramble s.dmem s.draws (abortAddrs s i)
      draws := s.draws + 1 }

/-- The registers after a soft reset: KEY, kw, FC and DMEM kept, the rest as after hardware reset, then CTRL.IE
(70_reset_and_hazards.md R362). The model's own fields are kept. -/
def clearSoft (s : State) (ie : Bool) : State :=
  { State.reset with
    ie := ie, key := s.key, kw := s.kw, fc := s.fc, dmem := s.dmem, latencies := s.latencies, inbox := s.inbox
    busData := s.busData, draws := s.draws }

/-- A soft reset, in BUSY after abandoning the command (70_reset_and_hazards.md R362, R363). -/
def softReset (s : State) (ie : Bool) : State :=
  clearSoft (if s.status.busy then abortCommand s else s) ie

/-- A CTRL write: SRST first, then IE (10_state.md R37). -/
def writeCtrl (s : State) (v : Word) : State :=
  if v.getLsbD 1 then softReset s (v.getLsbD 0) else { s with ie := v.getLsbD 0 }

/-- A permitted write to a register: CMD, CTRL and STATUS in IDLE and BUSY, any other only in IDLE
(20_memory.md R87, R89). -/
def writeTarget (s : State) (v : Word) : Reg → State
  | .cmd => writeCmd s v
  | .ctrl => writeCtrl s v
  | .status => writeReg s v .status
  | r => if s.status.busy then s.refuseAccess else writeReg s v r

/-- A host write (20_memory.md R83, R87, R89). -/
def hostWrite (s : State) (width : AccessWidth) (off : BitVec 12) (v : Word) : State :=
  match target width off with
  | none => s.refuseAccess
  | some (.reg r) => writeTarget s v r
  | some (.dmem a) => if s.status.busy then s.refuseAccess else { s with dmem := dmemStore s.dmem width a v }

/-- Hardware reset in the course of a run: `State.reset` but for KEY and DMEM, whose contents are drawn afresh, and
the model's own fields (70_reset_and_hazards.md R360). Log entry 8. -/
def hardReset (s : State) : State :=
  { State.reset with
    key :=
      { w0 := Config.powerOnKey s.draws 0, w1 := Config.powerOnKey s.draws 1, w2 := Config.powerOnKey s.draws 2
        w3 := Config.powerOnKey s.draws 3 }
    dmem := { cells := [], powerOn := (List.range Config.dmemBytes).map (Config.powerOnByte s.draws) }
    latencies := s.latencies
    inbox := s.inbox
    busData := s.busData
    draws := s.draws + 1 }

/-- The effect of one input. -/
def State.take (s : State) : HostInput → State
  | .read width off => hostRead s width off
  | .write width off v => hostWrite s width off v
  | .hardReset => hardReset s

/-- The host's turn: it makes its next access, or none while it has nothing to do; a command in progress comes one
turn nearer to its completion (20_memory.md R93, 70_reset_and_hazards.md R361, R368). -/
def hostTurn (s : State) : State :=
  match s.inbox with
  | [] => { s with wait := s.wait - 1 }
  | x :: rest => State.take { s with wait := s.wait - 1, inbox := rest } x

/-- The completion of an illegal command word: ILLEGAL_CMD and no other effect (30_encoding.md R113, R116). -/
def execIllegal (s : State) : Host.Outcome State Fault Refusal := s.finish (raise .illegalCmd)

/-- The command word the engine executes next (10_state.md R31, 60_exceptions.md R337). -/
def fetch (s : State) : Except Reject Instr := decode s.cur

/-- The engine acts: a command is in progress and its latency has passed (60_exceptions.md R337). -/
def State.completing (s : State) : Bool := s.status.busy && s.wait = 0

end Sys2Proof.Machine
end

