-- ==== Sys2Proof/Machine/Dispatch.lean ====
section
/-! DEFINITION. The dispatch of a decoded command to its meaning. -/

namespace Sys2Proof.Machine

def exec (i : Instr) (s : State) : Host.Outcome State Fault Refusal :=
  match i with
  | .nop => Sys2Proof.Machine.execNop s
  | .aesEnc => Sys2Proof.Machine.execAesEnc s
  | .aesDec => Sys2Proof.Machine.execAesDec s
  | .ccmEnc m => Sys2Proof.Machine.execCcmEnc m s
  | .ccmDec v m => Sys2Proof.Machine.execCcmDec v m s
  | .macDec => Sys2Proof.Machine.execMacDec s
  | .macEnc aseq => Sys2Proof.Machine.execMacEnc aseq s
  | .nwkDec => Sys2Proof.Machine.execNwkDec s
  | .nwkEnc => Sys2Proof.Machine.execNwkEnc s
  | .apsDec => Sys2Proof.Machine.execApsDec s
  | .apsEnc => Sys2Proof.Machine.execApsEnc s
  | .zclDec => Sys2Proof.Machine.execZclDec s
  | .zclEnc => Sys2Proof.Machine.execZclEnc s
  | .parse => Sys2Proof.Machine.execParse s
  | .compose layers aseq => Sys2Proof.Machine.execCompose layers aseq s

end Sys2Proof.Machine
end

