-- ==== Sys2Proof/Machine/Step.lean ====
section
/-! DEFINITION. One step: the engine's completion of the command in progress, or the host's turn. -/

namespace Sys2Proof.Machine

/-- One step (20_memory.md R93, 60_exceptions.md R337, 70_reset_and_hazards.md R368). -/
def step (s : State) : Host.Outcome State Fault Refusal :=
  if s.completing then
    match fetch s with
    | .ok i => exec i s
    | .error _ => execIllegal s
  else .next (hostTurn s)

/-- `s` with the command word of a table row accepted and its latency passed, so that the next step executes it: the
CMD write of the host has been made (60_exceptions.md R336). Log entry 5. -/
def State.withFetchWord (s : State) (nbits w : Nat) : State :=
  { s with cur := BitVec.ofNat 32 (w % 2 ^ nbits), status := { s.status with busy := true }, wait := 0 }

end Sys2Proof.Machine
end

