-- ==== Sys2Proof/Safety.lean ====
section
/-! DEFINITION. The terms the claims use: when a command completes with an error, when it may run, what it leaves in
DMEM, the canonical field records, the malformed frames, what the host may reach, and the invariant. Each is written
from its rule of spec/, not from the meaning it is compared with. -/

namespace Sys2Proof.Machine

/-! ### Outcomes -/

/-- `s` after the command in progress raised an error: only the completion fields change (60_exceptions.md R333,
R334). -/
def State.raised (s : State) (code : ErrCode) (layer : Layer) (offset : Nat) : State :=
  { s with
    status :=
      { s.status with
        busy := false, done := true, err := code, auth := .notChecked, depth := .none, route := .raw, dfail := false }
    errInfo := { layer := layer, offset := BitVec.ofNat 12 offset } }

/-- `s` after the command in progress succeeded with AUTH `a`, for a command that names no other result field
(60_exceptions.md R333). -/
def State.succeeded (s : State) (a : Auth) : State :=
  { s with
    status :=
      { s.status with
        busy := false, done := true, err := .none, auth := a, depth := .none, route := .raw, dfail := false }
    errInfo := { layer := .none, offset := 0 } }

/-- `t` is `m` with the string `b` at `p` and every other byte as before. -/
def stored (m t : Dmem) (p : Nat) (b : Bytes) : Prop :=
  ∀ a, t.read a = if p ≤ a ∧ a < p + b.length then b.getD (a - p) 0 else m.read a

/-! ### Regions and the checks before a command's body -/

/-- The regions a command uses, in the order of the range check: I, P, A, M, O (30_encoding.md R112, R124). -/
def regionsOf : Instr → List Region
  | .nop => []
  | .aesEnc => [.i, .o]
  | .aesDec => [.i, .o]
  | .ccmEnc _ => [.a, .m]
  | .ccmDec _ _ => [.a, .m]
  | .macDec => [.i, .o]
  | .macEnc _ => [.p, .o]
  | .nwkDec => [.i, .o]
  | .nwkEnc => [.p, .o]
  | .apsDec => [.i, .o]
  | .apsEnc => [.p, .o]
  | .zclDec => [.i, .o]
  | .zclEnc => [.p, .o]
  | .parse => [.i, .o]
  | .compose _ _ => [.p, .o]

/-- The two regions of a command that may not overlap (30_encoding.md R125). -/
def pairOf : Instr → Option (Region × Region)
  | .nop => none
  | .aesEnc => some (.i, .o)
  | .aesDec => some (.i, .o)
  | .ccmEnc _ => some (.a, .m)
  | .ccmDec _ _ => some (.a, .m)
  | .macDec => some (.i, .o)
  | .macEnc _ => some (.p, .o)
  | .nwkDec => some (.i, .o)
  | .nwkEnc => some (.p, .o)
  | .apsDec => some (.i, .o)
  | .apsEnc => some (.p, .o)
  | .zclDec => some (.i, .o)
  | .zclEnc => some (.p, .o)
  | .parse => some (.i, .o)
  | .compose _ _ => some (.p, .o)

/-- `ptr + len <= DMEM_BYTES` (30_encoding.md R124). -/
def State.inDmem (s : State) (x : Region) : Prop := s.regions.ptr x + s.regions.len x ≤ 512

/-- Two regions overlap (30_encoding.md R125). -/
def State.overlapping (s : State) (x y : Region) : Prop :=
  s.regions.len x > 0 ∧ s.regions.len y > 0 ∧ s.regions.ptr x < s.regions.ptr y + s.regions.len y ∧
    s.regions.ptr y < s.regions.ptr x + s.regions.len x

/-- The parameter of a command is accepted: I_LEN = 16 for AES, M = 4 for CCM (60_exceptions.md R330, PARAM). -/
def State.paramOk (s : State) : Instr → Prop
  | .nop => True
  | .aesEnc => s.regions.iLen = 16
  | .aesDec => s.regions.iLen = 16
  | .ccmEnc m => m = 4
  | .ccmDec _ m => m = 4
  | .macDec => True
  | .macEnc _ => True
  | .nwkDec => True
  | .nwkEnc => True
  | .apsDec => True
  | .apsEnc => True
  | .zclDec => True
  | .zclEnc => True
  | .parse => True
  | .compose _ _ => True

/-- The pair of a command does not overlap. -/
def State.pairOk (s : State) (i : Instr) : Prop :=
  match pairOf i with
  | none => True
  | some (x, y) => ¬ s.overlapping x y

/-- The parameter and region checks of a command pass (60_exceptions.md R331: PARAM, RANGE, OVERLAP). -/
structure State.Ready (s : State) (i : Instr) : Prop where
  param : s.paramOk i
  range : ∀ x ∈ regionsOf i, s.inDmem x
  apart : s.pairOk i

/-- The bytes of a region (30_encoding.md R123). -/
def State.bytesOf (s : State) (x : Region) : Bytes := s.dmem.readBytes (s.regions.ptr x) (s.regions.len x)

/-- The command writes an O region (30_encoding.md R112, R123). -/
def hasOutput (i : Instr) : Prop := Region.o ∈ regionsOf i

/-- The command builds a NWK frame with NWK_FC.SEC = 1 (60_exceptions.md R330: NWK_ENC, COMPOSE with NWK). -/
def State.securesNwk (s : State) : Instr → Prop
  | .nop => False
  | .aesEnc => False
  | .aesDec => False
  | .ccmEnc _ => False
  | .ccmDec _ _ => False
  | .macDec => False
  | .macEnc _ => False
  | .nwkDec => False
  | .nwkEnc => s.nwk.fc.getLsbD 9 = true
  | .apsDec => False
  | .apsEnc => False
  | .zclDec => False
  | .zclEnc => False
  | .parse => False
  | .compose l _ => l.nwk = true ∧ s.nwk.fc.getLsbD 9 = true

/-- The command builds a MAC frame (MAC_ENC, COMPOSE with MAC). -/
def buildsMac : Instr → Prop
  | .nop => False
  | .aesEnc => False
  | .aesDec => False
  | .ccmEnc _ => False
  | .ccmDec _ _ => False
  | .macDec => False
  | .macEnc _ => True
  | .nwkDec => False
  | .nwkEnc => False
  | .apsDec => False
  | .apsEnc => False
  | .zclDec => False
  | .zclEnc => False
  | .parse => False
  | .compose l _ => l.mac = true

/-- The command assigns the next MAC sequence number: ASEQ is set on a MAC encode (41_mac.md R214). -/
def assignsSeq : Instr → Prop
  | .nop => False
  | .aesEnc => False
  | .aesDec => False
  | .ccmEnc _ => False
  | .ccmDec _ _ => False
  | .macDec => False
  | .macEnc aseq => aseq = true
  | .nwkDec => False
  | .nwkEnc => False
  | .apsDec => False
  | .apsEnc => False
  | .zclDec => False
  | .zclEnc => False
  | .parse => False
  | .compose l aseq => l.mac = true ∧ aseq = true

/-- AES_ENC, AES_DEC, CCM_ENC and CCM_DEC, which need the key whatever their data (60_exceptions.md R330). -/
def rawCipher : Instr → Prop
  | .nop => False
  | .aesEnc => True
  | .aesDec => True
  | .ccmEnc _ => True
  | .ccmDec _ _ => True
  | .macDec => False
  | .macEnc _ => False
  | .nwkDec => False
  | .nwkEnc => False
  | .apsDec => False
  | .apsEnc => False
  | .zclDec => False
  | .zclEnc => False
  | .parse => False
  | .compose _ _ => False

/-- NWK_SEC.SECCTL.EXTNONCE or NWK_FC.EXTSRCP is 1, so the nonce has a source (42_nwk.md R240). -/
def State.hasNonceSource (s : State) : Prop := s.nwk.secctl.getLsbD 5 = true ∨ s.nwk.fc.getLsbD 12 = true

/-- An addressing mode of MAC_FC is the reserved value 1 (41_mac.md R211). -/
def MacFields.reservedMode (f : MacFields) : Prop := f.fc.extractLsb' 10 2 = 1 ∨ f.fc.extractLsb' 14 2 = 1

/-- The output string of a command whose checks up to the input structure pass; none where one fails or the command
has no output (30_encoding.md R126). -/
def State.output (s : State) : Instr → Option Bytes
  | .nop => none
  | .aesEnc => if s.keySet then some (aesEnc s.key.bytes (s.bytesOf .i)) else none
  | .aesDec => if s.keySet then some (aesDec s.key.bytes (s.bytesOf .i)) else none
  | .ccmEnc _ => none
  | .ccmDec _ _ => none
  | .macDec => (macDecode (s.bytesOf .i)).toOption.map Prod.snd
  | .macEnc aseq => (macEncode (macOperand s aseq) (s.bytesOf .p)).map Prod.fst
  | .nwkDec => some (nwkDecode (aesEnc s.key.bytes) s.keySet (s.bytesOf .i)).p
  | .nwkEnc => (nwkEncode (aesEnc s.key.bytes) s.nwk (s.bytesOf .p) s.keySet s.fc).toOption.map Prod.fst
  | .apsDec => (apsDecode (s.bytesOf .i)).toOption.map Prod.snd
  | .apsEnc => some (apsEncode s.aps (s.bytesOf .p))
  | .zclDec => (zclDecode (s.bytesOf .i)).toOption.map Prod.snd
  | .zclEnc => some (zclEncode s.zcl (s.bytesOf .p))
  | .parse => (parseFn (aesEnc s.key.bytes) s.keySet (s.bytesOf .i)).toOption.map ParseResult.out
  | .compose l aseq =>
    (composeCheck s l).toOption.map (fun _ => composeFrame (aesEnc s.key.bytes) s l aseq (s.bytesOf .p))

/-- Every check of a COMPOSE but the output size passes (44_facade.md R311, R312). -/
structure State.Composable (s : State) (l : LayerSet) : Prop where
  key : l.nwk = true → s.nwk.fc.getLsbD 9 = true → s.keySet = true
  source : l.nwk = true → s.nwk.fc.getLsbD 9 = true → s.hasNonceSource
  modes : l.mac = true → ¬ s.mac.reservedMode
  counter : l.nwk = true → s.nwk.fc.getLsbD 9 = true → s.fc ≠ 0xFFFFFFFF#32

/-! ### Canonical field records (30_encoding.md R146) and malformed frames -/

/-- PANC as the encoder derives it: the source PAN is absent, or equals the destination PAN (41_mac.md R212). -/
def MacFields.derivedPanc (f : MacFields) : Bool :=
  f.fc.extractLsb' 14 2 = 0 ∨ f.spanp = false ∨ (f.fc.extractLsb' 10 2 ≠ 0 ∧ f.span = f.dpan)

/-- The frame control the encoder emits and writes back: the given one with PANC, bit 6, replaced (41_mac.md R206,
R212, R216). -/
def MacFields.emittedFc (f : MacFields) : Half := (f.fc &&& 0xFFBF#16) ||| (if f.derivedPanc then 0x0040#16 else 0#16)

/-- The frame of a MacFields record whose modes are not reserved (41_mac.md R206). -/
def MacFields.frame (f : MacFields) (pl : Bytes) : Bytes :=
  let addr (mode : BitVec 2) (a : Addr64) : Bytes := le (if mode = 3 then 8 else 2) a.toNat
  let dm := f.fc.extractLsb' 10 2
  let sm := f.fc.extractLsb' 14 2
  le 2 f.emittedFc.toNat ++ [f.seq] ++ (if dm = 0 then [] else le 2 f.dpan.toNat ++ addr dm f.daddr) ++
  (if sm = 0 then [] else (if f.derivedPanc then [] else le 2 f.span.toNat) ++ addr sm f.saddr) ++
  (if f.fc.extractLsb' 0 3 = 3 then [f.cmd] else []) ++ pl

/-- A MacFields record in the round-trip canonical form (30_encoding.md R146). -/
structure MacFields.Canonical (f : MacFields) : Prop where
  panc : f.fc.getLsbD 6 = f.derivedPanc
  noSource : f.fc.extractLsb' 14 2 = 0 → f.spanp = false ∧ f.span = 0
  both : f.fc.extractLsb' 14 2 ≠ 0 → f.fc.extractLsb' 10 2 ≠ 0 → f.spanp = true
  noSpan : f.spanp = false → f.span = 0
  noDest : f.fc.extractLsb' 10 2 = 0 → f.dpan = 0 ∧ f.daddr = 0
  noSaddr : f.fc.extractLsb' 14 2 = 0 → f.saddr = 0
  shortDest : f.fc.extractLsb' 10 2 = 2 → f.daddr.extractLsb' 16 48 = 0
  shortSource : f.fc.extractLsb' 14 2 = 2 → f.saddr.extractLsb' 16 48 = 0
  noCmd : f.fc.extractLsb' 0 3 ≠ 3 → f.cmd = 0

/-- A NwkFields record in the round-trip canonical form (30_encoding.md R146). -/
structure NwkFields.Canonical (f : NwkFields) : Prop where
  noExtDst : f.fc.getLsbD 11 = false → f.extdst = 0
  noExtSrc : f.fc.getLsbD 12 = false → f.extsrc = 0
  valid : f.valid = true ∧ f.fail = .none
  plain : f.fc.getLsbD 9 = false → f.secctl = 0 ∧ f.keyseq = 0 ∧ f.secfc = 0 ∧ f.secsrc = 0 ∧ f.mic = 0
  level : f.fc.getLsbD 9 = true → f.secctl.extractLsb' 0 3 = 5
  noSecSrc : f.fc.getLsbD 9 = true → f.secctl.getLsbD 5 = false → f.secsrc = 0

/-- An ApsFields record in the round-trip canonical form (30_encoding.md R146). -/
def ApsFields.Canonical (f : ApsFields) : Prop := f.fc.extractLsb' 2 2 ≠ 3 → f.dst.extractLsb' 8 8 = 0

/-- The widths of the conditional fields of a MAC frame, in wire order: destination PAN and address, source PAN and
address, command id; an absent field has width 0 (30_encoding.md R132, R133). -/
def macFieldWidths (fc : Half) : List Nat :=
  let alenOf (mode : BitVec 2) : Nat := if mode = 0 then 0 else if mode = 3 then 8 else 2
  let dm := fc.extractLsb' 10 2
  let sm := fc.extractLsb' 14 2
  [if dm = 0 then 0 else 2, alenOf dm, if sm = 0 ∨ fc.getLsbD 6 = true then 0 else 2, alenOf sm,
   if fc.extractLsb' 0 3 = 3 then 1 else 0]

/-- The offset of the first field that extends past a string of `n` bytes, for fields of the given widths from `p`;
none when all fit. -/
def firstCut (n : Nat) : Nat → List Nat → Option Nat
  | _, [] => none
  | p, w :: ws => if p + w > n ∧ w ≠ 0 then some p else firstCut n (p + w) ws

/-- The offset MAC_DECODE reports for a frame, none for a well-formed one (41_mac.md R207). -/
def macMalformedAt (b : Bytes) : Option Nat :=
  let fc : Half := b.getD 1 0 ++ b.getD 0 0
  if b.length < 2 then some 0
  else if fc.extractLsb' 10 2 = 1 ∨ fc.extractLsb' 14 2 = 1 then some 0
  else if b.length < 3 then some 2
  else firstCut b.length 3 (macFieldWidths fc)

/-- The little-endian number of the `n` bytes of `b` at `p` (00_scope.md R12). -/
def leAt (b : Bytes) (p n : Nat) : Nat := rdLe ((b.drop p).take n)

/-- The length of the header of a well-formed MAC frame (30_encoding.md R133). -/
def macHeaderLen (b : Bytes) : Nat := 3 + (macFieldWidths (b.getD 1 0 ++ b.getD 0 0)).sum

/-- The fields of a well-formed MAC frame: each conditional field stands behind the widths of those before it, an
absent one is 0, and a compressed source PAN is the destination PAN where there is one (41_mac.md R201 to R203). -/
def macFieldsOf (b : Bytes) : MacFields :=
  let fc : Half := b.getD 1 0 ++ b.getD 0 0
  let widths := macFieldWidths fc
  let field (k : Nat) : Nat := leAt b (3 + (widths.take k).sum) (widths.getD k 0)
  let dm := fc.extractLsb' 10 2
  let sm := fc.extractLsb' 14 2
  { fc := fc
    spanp := sm ≠ 0 ∧ (fc.getLsbD 6 = false ∨ dm ≠ 0)
    seq := b.getD 2 0
    cmd := BitVec.ofNat 8 (field 4)
    dpan := BitVec.ofNat 16 (field 0)
    span := BitVec.ofNat 16 (if sm ≠ 0 ∧ fc.getLsbD 6 = true then field 0 else field 2)
    daddr := BitVec.ofNat 64 (field 1)
    saddr := BitVec.ofNat 64 (field 3) }

/-- The offset APS_DECODE reports for a frame, none for a well-formed one (43_aps_zcl.md R272). -/
def apsMalformedAt (b : Bytes) : Option Nat :=
  let n := if (b.getD 0 0).extractLsb' 2 2 = 3 then 2 else 1
  if b.length = 0 then some 0
  else if b.length < 1 + n then some 1
  else if b.length < 3 + n then some (1 + n)
  else if b.length < 5 + n then some (3 + n)
  else if b.length < 6 + n then some (5 + n)
  else if b.length < 7 + n then some (6 + n)
  else none

/-- The offset a decoding command reports with MALFORMED, and the layer: MAC_DEC and PARSE by the MAC layer, APS_DEC,
ZCL_DEC (60_exceptions.md R330, R332). -/
def State.malformed (s : State) : Instr → Option (Layer × Nat)
  | .nop => none
  | .aesEnc => none
  | .aesDec => none
  | .ccmEnc _ => none
  | .ccmDec _ _ => none
  | .macDec => (macMalformedAt (s.bytesOf .i)).map (fun off => (.mac, off))
  | .macEnc _ => none
  | .nwkDec => none
  | .nwkEnc => none
  | .apsDec => (apsMalformedAt (s.bytesOf .i)).map (fun off => (.aps, off))
  | .apsEnc => none
  | .zclDec => if (s.bytesOf .i).length < 3 then some (.zcl, (s.bytesOf .i).length) else none
  | .zclEnc => none
  | .parse => (macMalformedAt (s.bytesOf .i)).map (fun off => (.mac, off))
  | .compose _ _ => none

/-! ### NWK frames on the wire (30_encoding.md R134 to R136; 42_nwk.md R231) -/

/-- The frame control of a NWK frame. -/
def nwkFcOf (b : Bytes) : Half := BitVec.ofNat 16 (leAt b 0 2)

/-- Where the extended source of a NWK header stands: behind the 8 fixed bytes and the extended destination. -/
def nwkExtSrcAt (b : Bytes) : Nat := 8 + if (nwkFcOf b).getLsbD 11 then 8 else 0

/-- The length of a NWK header, which is where the security-control byte stands (`h` of R231). -/
def nwkHeaderEnd (b : Bytes) : Nat := nwkExtSrcAt b + if (nwkFcOf b).getLsbD 12 then 8 else 0

/-- The security-control byte with its MIC size corrected to 5 (42_nwk.md R234). -/
def nwkSecctlOf (b : Bytes) : Byte := (b.getD (nwkHeaderEnd b) 0 &&& 0xF8#8) ||| 0x05#8

/-- The end of the auxiliary header: security control, frame counter, extended source with EXTNONCE, key sequence. -/
def nwkAuxEnd (b : Bytes) : Nat := nwkHeaderEnd b + 6 + if (nwkSecctlOf b).getLsbD 5 then 8 else 0

/-- A secured NWK frame that holds its auxiliary header and the MIC (42_nwk.md R237). -/
def nwkSealed (b : Bytes) : Prop := (nwkFcOf b).getLsbD 9 = true ∧ nwkAuxEnd b + 4 ≤ b.length

/-- The frame carries a source for the nonce, EXTNONCE or EXTSRCP (42_nwk.md R240). -/
def nwkHasSource (b : Bytes) : Prop := (nwkSecctlOf b).getLsbD 5 = true ∨ (nwkFcOf b).getLsbD 12 = true

/-- The nonce of a secured frame: the auxiliary source with EXTNONCE, else the header's, then the frame counter and
the corrected security-control byte (42_nwk.md R235, R240). -/
def nwkNonceOf (b : Bytes) : Bytes :=
  let src := if (nwkSecctlOf b).getLsbD 5 then leAt b (nwkHeaderEnd b + 5) 8 else leAt b (nwkExtSrcAt b) 8
  [0x01#8] ++ le 8 src ++ le 4 (leAt b (nwkHeaderEnd b + 1) 4) ++ [nwkSecctlOf b, 0x00#8, 0x00#8]

/-- The ciphertext of a secured frame, between the auxiliary header and the MIC (42_nwk.md R239). -/
def nwkCipherOf (b : Bytes) : Bytes := (b.take (b.length - 4)).drop (nwkAuxEnd b)

/-- What CCM_DECRYPT makes of a secured frame; the auth data are the corrected bytes through the key sequence
(42_nwk.md R238, R239). -/
def nwkOpenedOf (enc : Bytes → Bytes) (b : Bytes) : CcmOpened :=
  ccmDecrypt enc (nwkNonceOf b) ((b.set (nwkHeaderEnd b) (nwkSecctlOf b)).take (nwkAuxEnd b)) (nwkCipherOf b)
    (b.drop (b.length - 4)) true

/-- Where a NWK decode writes the corrected security-control byte back: at its offset, when the header is whole, the
frame secured and the byte there (42_nwk.md R234). -/
def nwkWriteBackAt (b : Bytes) : Option Nat :=
  if 8 ≤ b.length ∧ nwkHeaderEnd b < b.length ∧ (nwkFcOf b).getLsbD 9 = true then some (nwkHeaderEnd b) else none

/-- The write-back of PARSE: that of the NWK frame inside a well-formed MAC data frame (44_facade.md R301, R309). -/
def parseWriteBackAt (b : Bytes) : Option Nat :=
  if macMalformedAt b = none ∧ (b.getD 0 0).extractLsb' 0 3 = 1#3 then
    (nwkWriteBackAt (b.drop (macHeaderLen b))).map (macHeaderLen b + ·)
  else none

/-- `a` is the DMEM byte at which the command writes the corrected security-control byte back into its I region
(42_nwk.md R234, 44_facade.md R309). -/
def State.writesBack (s : State) (i : Instr) (a : Nat) : Prop :=
  s.inDmem .i ∧
  ((i = .nwkDec ∧ (nwkWriteBackAt (s.bytesOf .i)).map (s.regions.ptr .i + ·) = some a) ∨
    (i = .parse ∧ (parseWriteBackAt (s.bytesOf .i)).map (s.regions.ptr .i + ·) = some a))

/-! ### The MIC of CCM* (40_aes_ccm.md R161 to R164) -/

/-- The string CCM* authenticates: B0, the auth part behind its length, the message part, the last two each padded
with zeros to whole 16-byte blocks; without auth data there is no auth part (R161 to R163). -/
def ccmMacInput (n a m : Bytes) : Bytes :=
  let be (v : Nat) : Bytes := [BitVec.ofNat 8 (v / 256), BitVec.ofNat 8 v]
  let padded (b : Bytes) : Bytes := b ++ List.replicate ((16 - b.length % 16) % 16) 0
  [if a = [] then 0x09#8 else 0x49#8] ++ (n.drop 1).take 13 ++ be m.length ++
  (if a = [] then [] else padded (be a.length ++ a)) ++ padded m

/-- The chained block after the first `k` 16-byte blocks of `w`, from a block of zeros (R164). -/
def ccmChained (enc : Bytes → Bytes) (w : Bytes) : Nat → Bytes
  | 0 => List.replicate 16 0
  | k + 1 => enc (xorBytes (ccmChained enc w k) ((w.drop (16 * k)).take 16))

/-! ### The command word (30_encoding.md R112 to R114) -/

/-- The opcodes and, for each, its permitted fields besides OP (30_encoding.md R110, R112). -/
def opcodeMap : List (Nat × Word) :=
  [(0x00, 0), (0x01, 0), (0x02, 0), (0x10, 0xF0000), (0x11, 0xF0100), (0x20, 0), (0x21, 0x200), (0x30, 0), (0x31, 0),
   (0x40, 0), (0x41, 0), (0x50, 0), (0x51, 0), (0x60, 0), (0x61, 0xF200)]

/-- The ten legal values of `w[15:12]` (30_encoding.md R114). -/
def legalLayerSets : List (BitVec 4) :=
  [0b0001, 0b0011, 0b0111, 0b1111, 0b0010, 0b0110, 0b1110, 0b0100, 0b1100, 0b1000]

/-- The word is ILLEGAL_CMD (30_encoding.md R113, R114). -/
def illegalWord (w : Word) : Prop :=
  (∀ row ∈ opcodeMap, row.1 ≠ (w.extractLsb' 0 8).toNat) ∨
  (∃ row ∈ opcodeMap, row.1 = (w.extractLsb' 0 8).toNat ∧ w &&& ~~~(row.2 ||| 0xFF) ≠ 0) ∨
  (w.extractLsb' 0 8 = 0x61 ∧
    (w.extractLsb' 12 4 ∉ legalLayerSets ∨ (w.getLsbD 9 = true ∧ w.getLsbD 12 = false)))

/-! ### The host's side -/

/-- The reserved offsets below 0x200 that are multiples of 4 (10_state.md R34, R47). -/
def reservedOffset (off : Nat) : Prop :=
  off = 0x03C ∨ (0x06C ≤ off ∧ off < 0x100) ∨ (0x11C ≤ off ∧ off < 0x120) ∨ (0x150 ≤ off ∧ off < 0x160) ∨
    (0x174 ≤ off ∧ off < 0x200)

/-- The access is permitted by width, alignment and address (20_memory.md R85, R86). -/
def permitted (width : AccessWidth) (off : Nat) : Prop :=
  (off < 0x200 ∧ width = .w32 ∧ off % 4 = 0 ∧ ¬ reservedOffset off) ∨
  (0x400 ≤ off ∧ off < 0x600 ∧
    match width with
    | .w8 => True
    | .w16 => off % 2 = 0
    | .w32 => off % 4 = 0)

/-- A register that accepts host writes while BUSY (20_memory.md R87). -/
def writableBusy (off : Nat) : Prop := off = 0x000 ∨ off = 0x004 ∨ off = 0x008

/-- The input resets the ZFE: hardware reset, or a write of CTRL with SRST = 1 (10_state.md R37). -/
def HostInput.resets : HostInput → Prop
  | .read _ _ => False
  | .write width off v => width = .w32 ∧ off = 0x008#12 ∧ v.getLsbD 1 = true
  | .hardReset => True

/-- Bit k of the key-written bits (10_state.md R39). -/
def KeyWritten.get (w : KeyWritten) : Fin 4 → Bool
  | 0 => w.k0
  | 1 => w.k1
  | 2 => w.k2
  | 3 => w.k3

/-- `a` is in the region `[ptr, ptr + len)` (10_state.md R45). -/
def State.covers (s : State) (x : Region) (a : Nat) : Prop :=
  s.regions.ptr x ≤ a ∧ a < s.regions.ptr x + s.regions.len x

/-- `t` is `s` but for what the host may change while a command runs: the W1C bits of STATUS, CTRL.IE and the model's
own fields (20_memory.md R87, R88). -/
def hostMovedOnly (s t : State) : Prop :=
  t = { s with
    status := { s.status with done := t.status.done, ovr := t.status.ovr, buserr := t.status.buserr }
    ie := t.ie, wait := t.wait, latencies := t.latencies, inbox := t.inbox, busData := t.busData, draws := t.draws }

/-- The completed secured encodes of a sequence of commands: each record is a state, the command it runs and the
state after; between two of them the host writes anything but FC, so that each starts at the FC the last one left
(42_nwk.md R250). `c` is FC before, `d` FC after. -/
def securedEncodes : Word → List (State × Instr × State) → Word → Prop
  | c, [], d => c = d
  | c, (s, i, t) :: rest, d =>
    s.fc = c ∧ s.securesNwk i ∧ Sys2Proof.Machine.exec i s = .next t ∧ t.status.err = .none ∧
      securedEncodes t.fc rest d

/-! ### The invariant -/

/-- What every step keeps. -/
structure State.Inv (s : State) : Prop where
  /-- DMEM keeps its canonical form. -/
  dmem : s.dmem.wf
  /-- Acceptance clears DONE, so a running command has DONE = 0 (60_exceptions.md R336). -/
  running : s.status.busy = true → s.status.done = false
  /-- No latency is pending in IDLE. -/
  idle : s.status.busy = false → s.wait = 0
  /-- An error leaves no result (60_exceptions.md R333). -/
  errors :
    s.status.err ≠ .none →
      s.status.auth = .notChecked ∧ s.status.depth = .none ∧ s.status.route = .raw ∧ s.status.dfail = false
  /-- A route other than RAW is reported only at APS or below, ZCL at DEPTH 4 (44_facade.md R304, R305). -/
  route : s.status.route ≠ .raw → s.status.depth = .aps ∨ s.status.depth = .zcl
  zcl : s.status.depth = .zcl → s.status.route = .zcl ∧ s.status.dfail = false
  /-- ERR_INFO.OFFSET fits its input (60_exceptions.md R332). -/
  offset : s.errInfo.offset.toNat ≤ 512
  /-- The output fits DMEM (30_encoding.md R124, R126). -/
  output : s.oLen.toNat ≤ 512
  /-- A valid NWK frame has no failure (42_nwk.md R233). -/
  valid : s.nwk.valid = true → s.nwk.fail = .none

end Sys2Proof.Machine
end

