-- ==== Sys2Proof/Certificates/Slice0/Obligations.lean ====
section
/-! DEFINITION. The statements for the provers, in the order of OBLIGATIONS.json. Their terms are in Safety.lean. -/

open Sys2Proof Sys2Proof.Machine

/-! ### The command word -/

/-- The words of 30_encoding.md R150, and one word of every family, decode to the commands they stand for. -/
def Obligations.DecodesSpecWords : Prop :=
  decode 0x00000000#32 = .ok .nop ∧ decode 0x00000001#32 = .ok .aesEnc ∧
  decode 0x00040010#32 = .ok (.ccmEnc 4) ∧ decode 0x00040111#32 = .ok (.ccmDec true 4) ∧
  decode 0x00040011#32 = .ok (.ccmDec false 4) ∧ decode 0x00000221#32 = .ok (.macEnc true) ∧
  decode 0x00000030#32 = .ok .nwkDec ∧ decode 0x00000041#32 = .ok .apsEnc ∧ decode 0x00000050#32 = .ok .zclDec ∧
  decode 0x00000060#32 = .ok .parse ∧ decode 0x0000F261#32 = .ok (.compose ⟨true, true, true, true⟩ true)

/-- Every well-formed command is read back from its word. -/
def Obligations.DecodeInvertsEncode : Prop :=
  ∀ i : Instr, i.wellFormed = true → decode (encode i) = .ok i

/-- Every word that decodes is the word of the well-formed command it decodes to, so no bit of a word is ignored. -/
def Obligations.EncodeInvertsDecode : Prop :=
  ∀ (w : Word) (i : Instr), decode w = .ok i → i.wellFormed = true ∧ encode i = w

/-- 30_encoding.md R113 and R114: a word is refused exactly when the rules call it ILLEGAL_CMD. -/
def Obligations.DecodeRefusesIllegalWords : Prop :=
  ∀ w : Word, (∃ e, decode w = .error e) ↔ illegalWord w

/-- 30_encoding.md R113, R116; 60_exceptions.md R330, R333: an illegal word completes with ILLEGAL_CMD and has no other
effect. -/
def Obligations.IllegalWordCompletes : Prop :=
  ∀ s : State, s.status.busy = true → s.wait = 0 → illegalWord s.cur →
    step s = .next (s.raised .illegalCmd .none 0)

/-! ### The step -/

/-- 60_exceptions.md R337: with a command in progress and its latency passed, the step is `exec` of the decoded command
and nothing else moves. -/
def Obligations.StepRunsDecodedCommand : Prop :=
  ∀ (s : State) (i : Instr), s.status.busy = true → s.wait = 0 → decode s.cur = .ok i → step s = exec i s

/-- 20_memory.md R93 (a): while no command is due, the step is the host's turn, which takes the next input of its list.
The turn counts against the latency of a command in progress (the model's choice, log entry 3). -/
def Obligations.HostInputsTakeTheirTurn : Prop :=
  ∀ s : State, s.status.busy = false ∨ s.wait ≠ 0 →
    (s.inbox = [] → step s = .next { s with wait := s.wait - 1 }) ∧
    (∀ x rest, s.inbox = x :: rest → step s = .next (State.take { s with wait := s.wait - 1, inbox := rest } x))

/-- The machine never stops: no command reaches DMEM out of range (00_scope.md R15), and every command and every host
access answers (60_exceptions.md R337, 20_memory.md R87). -/
def Obligations.EveryStepAnswersNext : Prop :=
  ∀ s : State, ∃ t, step s = .next t

/-- 70_reset_and_hazards.md R368, 60_exceptions.md R337, R338: an accepted command completes, and what it leaves depends
neither on when it completes nor on what the host does meanwhile, short of a reset. That `wait` counts the host's turns
is the model's choice (log entry 3). -/
def Obligations.ResultIgnoresLatency : Prop :=
  ∀ s : State, s.status.busy = true → (∀ x ∈ s.inbox, ¬ x.resets) →
    ∃ t u, Host.Core.run Sys2Proof.core (s.wait + 1) s = .next t ∧ step { s with wait := 0 } = .next u ∧
      t.status.busy = false ∧ t.status.done = true ∧ hostMovedOnly u t

/-! ### Completion and errors -/

/-- 60_exceptions.md R333: what every completion writes in STATUS, and what it leaves. -/
def Obligations.CompletionWritesStatus : Prop :=
  ∀ s t : State, s.status.busy = true → s.wait = 0 → step s = .next t →
    t.status.busy = false ∧ t.status.done = true ∧ t.status.ovr = s.status.ovr ∧ t.status.buserr = s.status.buserr ∧
    t.keySet = s.keySet ∧
    (t.status.err ≠ .none →
      t.status.auth = .notChecked ∧ t.status.depth = .none ∧ t.status.route = .raw ∧ t.status.dfail = false) ∧
    (decode s.cur ≠ .ok .parse → t.status.depth = .none ∧ t.status.route = .raw ∧ t.status.dfail = false) ∧
    (decode s.cur ≠ .ok .parse → decode s.cur ≠ .ok .nwkDec → (∀ v m, decode s.cur ≠ .ok (.ccmDec v m)) →
      t.status.auth = .notChecked)

/-- 60_exceptions.md R334: an error leaves every register and every DMEM byte but the completion fields. -/
def Obligations.ErrorsArePrecise : Prop :=
  ∀ s t : State, s.status.busy = true → s.wait = 0 → step s = .next t → t.status.err ≠ .none →
    t = s.raised t.status.err t.errInfo.layer t.errInfo.offset.toNat

/-- 60_exceptions.md R330, R332; 30_encoding.md R115: a wrong parameter raises PARAM before any other check of the
command. -/
def Obligations.WrongParameterRaises : Prop :=
  ∀ (i : Instr) (s : State), ¬ s.paramOk i →
    exec i s = .next (s.raised .param .none (if i = .aesEnc ∨ i = .aesDec then 1 else 0))

/-- 30_encoding.md R124: the first region of the order I, P, A, M, O that leaves DMEM raises RANGE with its operand
code, and a command whose regions all lie in DMEM raises no RANGE. -/
def Obligations.RegionOutOfDmemRaises : Prop :=
  (∀ (i : Instr) (s : State) (before after : List Region) (x : Region),
    s.paramOk i → regionsOf i = before ++ x :: after → (∀ y ∈ before, s.inDmem y) → ¬ s.inDmem x →
      exec i s = .next (s.raised .range .none (match x with | .i => 1 | .p => 2 | .o => 3 | .a => 4 | .m => 5))) ∧
  (∀ (i : Instr) (s t : State), (∀ x ∈ regionsOf i, s.inDmem x) → exec i s = .next t → t.status.err ≠ .range)

/-- 30_encoding.md R125: overlapping regions raise OVERLAP after the range check, and no other command does. -/
def Obligations.OverlapRaises : Prop :=
  (∀ (i : Instr) (s : State) (x y : Region),
    s.paramOk i → (∀ z ∈ regionsOf i, s.inDmem z) → pairOf i = some (x, y) → s.overlapping x y →
      exec i s = .next (s.raised .overlap .none (match x with | .i => 1 | .p => 2 | .o => 3 | .a => 4 | .m => 5))) ∧
  (∀ (i : Instr) (s t : State), s.pairOk i → exec i s = .next t → t.status.err ≠ .overlap)

/-- 60_exceptions.md R330: without a complete key every command that needs it raises NOKEY. -/
def Obligations.MissingKeyRaises : Prop :=
  ∀ (i : Instr) (s : State), s.Ready i → s.keySet = false → rawCipher i ∨ s.securesNwk i →
    exec i s = .next (s.raised .noKey .none 0)

/-- 41_mac.md R211, 42_nwk.md R244, 60_exceptions.md R331, R332: a secured NWK encode without a nonce source raises
ADDRESSING at the NWK layer, whatever the MAC modes; a reserved MAC mode raises it at the MAC layer, before the frame
counter is looked at (log entry 12). -/
def Obligations.AddressingErrorsRaise : Prop :=
  ∀ (i : Instr) (s : State), s.Ready i → (s.securesNwk i → s.keySet = true) →
    (s.securesNwk i → ¬ s.hasNonceSource → exec i s = .next (s.raised .addressing .nwk 0)) ∧
    (buildsMac i → s.mac.reservedMode → (s.securesNwk i → s.hasNonceSource) →
      exec i s = .next (s.raised .addressing .mac 0))

/-- 42_nwk.md R246: a secured NWK encode with FC = 0xFFFFFFFF is refused with FC_EXHAUSTED and leaves FC. -/
def Obligations.ExhaustedCounterRaises : Prop :=
  ∀ (i : Instr) (s : State), s.Ready i → s.securesNwk i → s.keySet = true → s.hasNonceSource →
    (buildsMac i → ¬ s.mac.reservedMode) → s.fc = 0xFFFFFFFF#32 →
      exec i s = .next (s.raised .fcExhausted .none 0)

/-- 41_mac.md R207, 43_aps_zcl.md R272 and R282, 60_exceptions.md R332: a malformed input raises MALFORMED with the
layer and the offset of the field that could not be read. -/
def Obligations.MalformedInputRaises : Prop :=
  ∀ (i : Instr) (s : State) (layer : Layer) (off : Nat), s.Ready i → s.malformed i = some (layer, off) →
    exec i s = .next (s.raised .malformed layer off)

/-- 30_encoding.md R126: the output of a command is checked against O_CAP, then written at O_PTR with O_LEN its length,
the rest of the O region unchanged. AES also needs O_CAP of at least 16 (its output is 16 bytes). -/
def Obligations.OutputIsCheckedAndWritten : Prop :=
  ∀ (i : Instr) (s : State) (out : Bytes), s.Ready i → s.output i = some out →
    (out.length ≤ s.regions.oCap.toNat →
      ∃ t, exec i s = .next t ∧ t.status.err = .none ∧ t.oLen.toNat = out.length ∧
        (∀ k, k < out.length → t.dmem.read (s.regions.oPtr.toNat + k) = out.getD k 0) ∧
        (∀ a, s.regions.oPtr.toNat + out.length ≤ a → a < s.regions.oPtr.toNat + s.regions.oCap.toNat →
          t.dmem.read a = s.dmem.read a)) ∧
    (s.regions.oCap.toNat < out.length → exec i s = .next (s.raised .overflow .none 0))

/-! ### What each command does -/

/-- 44_facade.md R300: NOP writes only the completion fields. -/
def Obligations.NopCompletes : Prop :=
  ∀ s : State, exec .nop s = .next (s.succeeded .notChecked)

/-- 40_aes_ccm.md R175, R176: AES_ENC and AES_DEC write the block made of the I block to O, and no other register;
00_scope.md R13: on blocks the second cipher inverts the first. -/
def Obligations.AesCommandsWriteTheirBlock : Prop :=
  ∀ s : State, s.keySet = true → 16 ≤ s.regions.oCap.toNat →
    (s.Ready .aesEnc → ∃ m, exec .aesEnc s = .next { s.succeeded .notChecked with dmem := m, oLen := 16 } ∧
      stored s.dmem m s.regions.oPtr.toNat (aesEnc s.key.bytes (s.bytesOf .i))) ∧
    (s.Ready .aesDec → ∃ m, exec .aesDec s = .next { s.succeeded .notChecked with dmem := m, oLen := 16 } ∧
      stored s.dmem m s.regions.oPtr.toNat (aesDec s.key.bytes (s.bytesOf .i))) ∧
    (∀ b : Bytes, b.length = 16 → aesDec s.key.bytes (aesEnc s.key.bytes b) = b ∧ (aesEnc s.key.bytes b).length = 16)

/-- 40_aes_ccm.md R177: CCM_ENC replaces the M region by the ciphertext, writes MIC, and advances NONCE; FC and every
other register stay. -/
def Obligations.CcmEncSealsMessage : Prop :=
  ∀ (len : BitVec 4) (s : State), s.Ready (.ccmEnc len) → s.keySet = true →
    let r := ccmEncrypt (aesEnc s.key.bytes) s.nonce.bytes (s.bytesOf .a) (s.bytesOf .m)
    ∃ m, exec (.ccmEnc len) s =
        .next { s.succeeded .notChecked with
          dmem := m, mic := BitVec.ofNat 32 (rdLe r.u), nonce := .ofBytes r.nonce } ∧
      r.u.length = 4 ∧ r.c.length = s.regions.mLen.toNat ∧ stored s.dmem m s.regions.mPtr.toNat r.c

/-- 40_aes_ccm.md R178: CCM_DEC replaces the M region by the message whatever the check gives, reports it in AUTH, and
advances NONCE; MIC and every other register stay. -/
def Obligations.CcmDecOpensMessage : Prop :=
  ∀ (v : Bool) (len : BitVec 4) (s : State), s.Ready (.ccmDec v len) → s.keySet = true →
    let r := ccmDecrypt (aesEnc s.key.bytes) s.nonce.bytes (s.bytesOf .a) (s.bytesOf .m) (le 4 s.mic.toNat) v
    ∃ m, exec (.ccmDec v len) s = .next { s.succeeded r.auth with dmem := m, nonce := .ofBytes r.nonce } ∧
      (r.auth = .notChecked ↔ v = false) ∧ r.m.length = s.regions.mLen.toNat ∧
      stored s.dmem m s.regions.mPtr.toNat r.m

/-- 41_mac.md R201 to R203, R215: MAC_DEC writes the decoded fields to the MAC field registers and the payload to O.
The fields and the payload of every well-formed frame, PANC derived or not, are those that its bytes hold at the
places of R201. -/
def Obligations.MacDecWritesFieldsAndPayload : Prop :=
  (∀ (s : State) (f : MacFields) (p : Bytes), s.Ready .macDec → macDecode (s.bytesOf .i) = .ok (f, p) →
    p.length ≤ s.regions.oCap.toNat →
      ∃ m, exec .macDec s =
          .next { s.succeeded .notChecked with mac := f, dmem := m, oLen := BitVec.ofNat 16 p.length } ∧
        stored s.dmem m s.regions.oPtr.toNat p) ∧
  (∀ b : Bytes, macMalformedAt b = none → macDecode b = .ok (macFieldsOf b, b.drop (macHeaderLen b)))

/-- 41_mac.md R206, R212, R214, R216: MAC_ENC writes the frame to O and PANC to MAC_FC, 1 exactly when the source PAN is
absent or equals the destination PAN; with ASEQ the frame carries the next sequence number, which SEQCTR and
MAC_SQC.SEQ take. -/
def Obligations.MacEncWritesFrame : Prop :=
  ∀ (aseq : Bool) (s : State), s.Ready (.macEnc aseq) → ¬ s.mac.reservedMode →
    let seq := if aseq then s.seqctr + 1 else s.mac.seq
    let panc : Bool := s.mac.fc.extractLsb' 14 2 = 0 ∨ s.mac.spanp = false ∨
      (s.mac.fc.extractLsb' 10 2 ≠ 0 ∧ s.mac.span = s.mac.dpan)
    let frame := { s.mac with seq := seq }.frame (s.bytesOf .p)
    frame.length ≤ s.regions.oCap.toNat →
      ∃ m, exec (.macEnc aseq) s =
          .next { s.succeeded .notChecked with
            mac := { s.mac with fc := (s.mac.fc &&& 0xFFBF#16) ||| (if panc then 0x0040#16 else 0#16), seq := seq }
            seqctr := if aseq then s.seqctr + 1 else s.seqctr
            dmem := m, oLen := BitVec.ofNat 16 frame.length } ∧
        frame.getD 2 0 = seq ∧ stored s.dmem m s.regions.oPtr.toNat frame

/-- 42_nwk.md R234, R236, R247: NWK_DEC succeeds on every input that fits: fields, AUTH, the write-back byte, NONCE
where a nonce was built, and the payload in O. -/
def Obligations.NwkDecReportsEveryFrame : Prop :=
  ∀ s : State, s.Ready .nwkDec →
    let r := nwkDecode (aesEnc s.key.bytes) s.keySet (s.bytesOf .i)
    r.p.length ≤ s.regions.oCap.toNat →
      ∃ m, exec .nwkDec s =
          .next { s.succeeded r.auth with
            nwk := r.f
            nonce := match r.nonce with
              | none => s.nonce
              | some n => .ofBytes n
            dmem := m, oLen := BitVec.ofNat 16 r.p.length } ∧
        ∀ a, m.read a =
          if s.regions.oPtr.toNat ≤ a ∧ a < s.regions.oPtr.toNat + r.p.length then
            r.p.getD (a - s.regions.oPtr.toNat) 0
          else match r.wb with
            | none => s.dmem.read a
            | some (off, v) => if a = s.regions.iPtr.toNat + off then v else s.dmem.read a

/-- 42_nwk.md R244, R248: an unsecured NWK_ENC writes header and payload to O, needs no key and changes no other
register. -/
def Obligations.NwkEncWritesPlainFrame : Prop :=
  ∀ s : State, s.Ready .nwkEnc → s.nwk.fc.getLsbD 9 = false →
    let frame := nwkHeaderBytes s.nwk ++ s.bytesOf .p
    frame.length ≤ s.regions.oCap.toNat →
      ∃ m, exec .nwkEnc s =
          .next { s.succeeded .notChecked with dmem := m, oLen := BitVec.ofNat 16 frame.length } ∧
        stored s.dmem m s.regions.oPtr.toNat frame

/-- 42_nwk.md R235, R244 to R246, R248: a secured NWK_ENC writes the frame sealed under the nonce of FC, and takes FC
one further in the same step. -/
def Obligations.NwkEncSealsFrame : Prop :=
  ∀ s : State, s.Ready .nwkEnc → s.nwk.fc.getLsbD 9 = true → s.keySet = true → s.hasNonceSource →
    s.fc ≠ 0xFFFFFFFF#32 →
    let sc := (s.nwk.secctl &&& 0xF8#8) ||| 5#8
    let src := if sc.getLsbD 5 then s.nwk.secsrc else s.nwk.extsrc
    let nonce := [1#8] ++ le 8 src.toNat ++ le 4 s.fc.toNat ++ [sc, 0#8, 0#8]
    let aux := le 4 s.fc.toNat ++ (if sc.getLsbD 5 then le 8 s.nwk.secsrc.toNat else []) ++ [s.nwk.keyseq]
    let r := ccmEncrypt (aesEnc s.key.bytes) nonce (nwkHeaderBytes s.nwk ++ [sc] ++ aux) (s.bytesOf .p)
    let frame := nwkHeaderBytes s.nwk ++ [sc &&& 0xF8#8] ++ aux ++ r.c ++ r.u
    frame.length ≤ s.regions.oCap.toNat →
      ∃ m, exec .nwkEnc s =
          .next { s.succeeded .notChecked with
            nwk := { s.nwk with
              secfc := s.fc, mic := BitVec.ofNat 32 (rdLe r.u), secctl := s.nwk.secctl &&& 0xF8#8 }
            nonce := .ofBytes r.nonce, fc := s.fc + 1, dmem := m, oLen := BitVec.ofNat 16 frame.length } ∧
        stored s.dmem m s.regions.oPtr.toNat frame

/-- 43_aps_zcl.md R280, R282, R286: APS_DEC and ZCL_DEC write the decoded fields to the field registers of their layer
and the payload to O. -/
def Obligations.ApsZclDecWriteFieldsAndPayload : Prop :=
  ∀ (s : State) (p : Bytes), p.length ≤ s.regions.oCap.toNat →
    (∀ f : ApsFields, s.Ready .apsDec → apsDecode (s.bytesOf .i) = .ok (f, p) →
      ∃ m, exec .apsDec s =
          .next { s.succeeded .notChecked with aps := f, dmem := m, oLen := BitVec.ofNat 16 p.length } ∧
        stored s.dmem m s.regions.oPtr.toNat p) ∧
    (∀ fc seq cmd : Byte, s.Ready .zclDec → s.bytesOf .i = fc :: seq :: cmd :: p →
      ∃ m, exec .zclDec s =
          .next { s.succeeded .notChecked with
            zcl := ⟨fc, seq, cmd⟩, dmem := m, oLen := BitVec.ofNat 16 p.length } ∧
        stored s.dmem m s.regions.oPtr.toNat p)

/-- 43_aps_zcl.md R273, R281, R284, R287: APS_ENC and ZCL_ENC write the frame to O and no other register. -/
def Obligations.ApsZclEncWriteFrame : Prop :=
  ∀ s : State,
    let dst := if s.aps.fc.extractLsb' 2 2 = 3 then le 2 s.aps.dst.toNat else le 1 s.aps.dst.toNat
    let apsFrame := [s.aps.fc] ++ dst ++ le 2 s.aps.cluster.toNat ++ le 2 s.aps.profile.toNat ++
      [s.aps.srcep, s.aps.ctr] ++ s.bytesOf .p
    let zclFrame := s.zcl.fc :: s.zcl.seq :: s.zcl.cmd :: s.bytesOf .p
    (s.Ready .apsEnc → apsFrame.length ≤ s.regions.oCap.toNat →
      ∃ m, exec .apsEnc s =
          .next { s.succeeded .notChecked with dmem := m, oLen := BitVec.ofNat 16 apsFrame.length } ∧
        stored s.dmem m s.regions.oPtr.toNat apsFrame) ∧
    (s.Ready .zclEnc → zclFrame.length ≤ s.regions.oCap.toNat →
      ∃ m, exec .zclEnc s =
          .next { s.succeeded .notChecked with dmem := m, oLen := BitVec.ofNat 16 zclFrame.length } ∧
        stored s.dmem m s.regions.oPtr.toNat zclFrame)

/-- 44_facade.md R306 to R310: PARSE writes all four field records, the result fields, the write-back byte, NONCE where
a nonce was built, and the payload of the deepest layer in O. -/
def Obligations.ParseWritesEveryLayer : Prop :=
  ∀ (s : State) (r : ParseResult), s.Ready .parse →
    parseFn (aesEnc s.key.bytes) s.keySet (s.bytesOf .i) = .ok r → r.out.length ≤ s.regions.oCap.toNat →
      ∃ m, exec .parse s =
          .next { s with
            status :=
              { s.status with
                busy := false, done := true, err := .none, auth := r.auth, depth := r.depth, route := r.route
                dfail := r.dfail }
            errInfo := ⟨r.layer, BitVec.ofNat 12 r.offset⟩
            mac := r.mac, nwk := r.nwk, aps := r.aps, zcl := r.zcl
            nonce := match r.nonce with
              | none => s.nonce
              | some n => .ofBytes n
            dmem := m, oLen := BitVec.ofNat 16 r.out.length } ∧
        ∀ a, m.read a =
          if s.regions.oPtr.toNat ≤ a ∧ a < s.regions.oPtr.toNat + r.out.length then
            r.out.getD (a - s.regions.oPtr.toNat) 0
          else match r.wb with
            | none => s.dmem.read a
            | some (off, v) => if a = s.regions.iPtr.toNat + off then v else s.dmem.read a

/-- 44_facade.md R311, R312: COMPOSE writes the composed frame to O, and the registers of NWK_ENC and MAC_ENC for the
layers it builds. -/
def Obligations.ComposeWritesFrame : Prop :=
  ∀ (l : LayerSet) (aseq : Bool) (s : State), s.Ready (.compose l aseq) → s.Composable l → (aseq = true → l.mac = true) →
    let seq := if aseq then s.seqctr + 1 else s.mac.seq
    let d := if l.zcl then zclEncode s.zcl (s.bytesOf .p) else s.bytesOf .p
    let d := if l.aps then apsEncode s.aps d else d
    let n := if l.nwk then nwkFrame (aesEnc s.key.bytes) s.nwk d s.fc else (d, none)
    let frame := if l.mac then { s.mac with seq := seq }.frame n.1 else n.1
    frame.length ≤ s.regions.oCap.toNat →
      ∃ m, exec (.compose l aseq) s =
          .next { s.succeeded .notChecked with
            nwk := match n.2 with
              | none => s.nwk
              | some u => { s.nwk with secfc := u.secfc, mic := u.mic, secctl := u.secctl }
            nonce := match n.2 with
              | none => s.nonce
              | some u => .ofBytes u.nonce
            fc := match n.2 with
              | none => s.fc
              | some u => u.fc
            mac := if l.mac then { s.mac with fc := s.mac.emittedFc, seq := seq } else s.mac
            seqctr := if aseq then s.seqctr + 1 else s.seqctr
            dmem := m, oLen := BitVec.ofNat 16 frame.length } ∧
        stored s.dmem m s.regions.oPtr.toNat frame

/-! ### The codecs -/

/-- 41_mac.md R207, 43_aps_zcl.md R272: MAC_DECODE and APS_DECODE fail in exactly the listed cases, at the listed
offsets. -/
def Obligations.DecodersFailExactly : Prop :=
  ∀ (b : Bytes) (off : Nat),
    (macDecode b = .error off ↔ macMalformedAt b = some off) ∧ (apsDecode b = .error off ↔ apsMalformedAt b = some off)

/-- 41_mac.md R213: a canonical record is decoded back from its frame, and a frame whose PANC is the derived one is
encoded back from its fields. -/
def Obligations.MacRoundTrip : Prop :=
  (∀ (f : MacFields) (pl b : Bytes) (panc : Bool), f.Canonical → macEncode f pl = some (b, panc) →
    macDecode b = .ok (f, pl)) ∧
  (∀ (b p : Bytes) (f : MacFields), macDecode b = .ok (f, p) → f.fc.getLsbD 6 = f.derivedPanc →
    ∃ panc, macEncode f p = some (b, panc))

/-- 42_nwk.md R231 to R242: when a NWK decode fails with HDR, AUX, NONCESRC, NOKEY and MIC, and when it is valid; for
each the payload, the write-back, NONCE (as built for NOKEY, advanced after CCM_DECRYPT), AUTH and the offset; and the
header and auxiliary fields it reports, with the security-control byte corrected. -/
def Obligations.NwkDecodeFailures : Prop :=
  ∀ (k : Bytes) (keyset : Bool) (b : Bytes),
    let r := nwkDecode (aesEnc k) keyset b
    let h := nwkHeaderEnd b
    let sc := nwkSecctlOf b
    let o := nwkOpenedOf (aesEnc k) b
    (r.f.valid = true ↔ r.f.fail = .none) ∧
    (r.f.valid = true ↔ r.f.fail ≠ .hdr ∧ (r.f.fc.getLsbD 9 = false ∨ r.auth = .pass)) ∧
    (r.f.fail = .hdr ↔ b.length < 8 ∨ b.length < h) ∧
    (r.f.fail = .aux ↔ 8 ≤ b.length ∧ h ≤ b.length ∧ (nwkFcOf b).getLsbD 9 = true ∧ ¬ nwkSealed b) ∧
    (r.f.fail = .nonceSrc ↔ nwkSealed b ∧ ¬ nwkHasSource b) ∧
    (r.f.fail = .noKey ↔ nwkSealed b ∧ nwkHasSource b ∧ keyset = false) ∧
    (r.f.fail = .mic ↔ nwkSealed b ∧ nwkHasSource b ∧ keyset = true ∧ o.auth = .fail) ∧
    (r.auth = .pass ↔ nwkSealed b ∧ nwkHasSource b ∧ keyset = true ∧ o.auth = .pass) ∧
    (r.auth = .fail ↔ r.f.fail = .mic) ∧
    (r.f.fail = .hdr → r.f = { NwkFields.zero with fail := .hdr } ∧ r.p = b ∧ r.wb = none ∧ r.nonce = none ∧
      r.foff = 0) ∧
    (r.f.fail = .aux → r.nonce = none ∧ r.foff = h ∧ r.f.secfc = 0 ∧ r.f.secsrc = 0 ∧ r.f.keyseq = 0 ∧ r.f.mic = 0 ∧
      (b.length = h → r.p = [] ∧ r.wb = none ∧ r.f.secctl = 0) ∧
      (h < b.length → r.p = sc :: b.drop (h + 1) ∧ r.wb = some (h, sc) ∧ r.f.secctl = sc)) ∧
    (r.f.fail = .nonceSrc ∨ r.f.fail = .noKey ∨ r.f.fail = .mic → r.wb = some (h, sc) ∧ r.p = nwkCipherOf b) ∧
    (r.f.fail = .nonceSrc → r.foff = h ∧ r.nonce = none) ∧
    (r.f.fail = .noKey → r.foff = 0 ∧ r.nonce = some (nwkNonceOf b)) ∧
    (r.f.fail = .mic → r.foff = b.length - 4 ∧ r.nonce = some o.nonce) ∧
    (r.auth = .pass → r.foff = 0 ∧ r.nonce = some o.nonce ∧ r.wb = some (h, sc) ∧ r.p = o.m) ∧
    (r.f.fail ≠ .hdr → (nwkFcOf b).getLsbD 9 = false →
      r.foff = 0 ∧ r.nonce = none ∧ r.wb = none ∧ r.p = b.drop h ∧ r.f.secctl = 0 ∧ r.f.secfc = 0 ∧ r.f.secsrc = 0 ∧
        r.f.keyseq = 0 ∧ r.f.mic = 0) ∧
    (r.f.fail ≠ .hdr → r.f.fc = nwkFcOf b ∧ r.f.dst = BitVec.ofNat 16 (leAt b 2 2) ∧
      r.f.src = BitVec.ofNat 16 (leAt b 4 2) ∧ r.f.radius = b.getD 6 0 ∧ r.f.seq = b.getD 7 0 ∧
      r.f.extdst = BitVec.ofNat 64 (if (nwkFcOf b).getLsbD 11 then leAt b 8 8 else 0) ∧
      r.f.extsrc = BitVec.ofNat 64 (if (nwkFcOf b).getLsbD 12 then leAt b (nwkExtSrcAt b) 8 else 0)) ∧
    (nwkSealed b → r.f.secctl = sc ∧ r.f.secfc = BitVec.ofNat 32 (leAt b (h + 1) 4) ∧
      r.f.secsrc = BitVec.ofNat 64 (if sc.getLsbD 5 then leAt b (h + 5) 8 else 0) ∧
      r.f.keyseq = b.getD (nwkAuxEnd b - 1) 0 ∧ r.f.mic = BitVec.ofNat 32 (leAt b (b.length - 4) 4))

/-- 42_nwk.md R249: a canonical record is decoded back from its frame, with the MIC the encode produced and the
write-back that restores the security level. -/
def Obligations.NwkRoundTrip : Prop :=
  ∀ (k : Bytes) (f : NwkFields) (pl b : Bytes) (u : Option NwkUpdate), f.Canonical →
    nwkEncode (aesEnc k) f pl true f.secfc = .ok (b, u) →
      let r := nwkDecode (aesEnc k) true b
      r.p = pl ∧ (u = none ↔ f.fc.getLsbD 9 = false) ∧
      (∀ x, u = some x → r.f = { f with mic := x.mic } ∧ r.auth = .pass ∧
        r.wb = some (nwkHeaderLen f.fc, x.secctl ||| 5#8)) ∧
      (u = none → r.f = f ∧ r.wb = none)

/-- 43_aps_zcl.md R276, R285: the APS and ZCL codec round trips, both ways. -/
def Obligations.ApsZclRoundTrip : Prop :=
  (∀ (f : ApsFields) (pl : Bytes), f.Canonical → apsDecode (apsEncode f pl) = .ok (f, pl)) ∧
  (∀ (b p : Bytes) (f : ApsFields), apsDecode b = .ok (f, p) → apsEncode f p = b) ∧
  (∀ (f : ZclFields) (pl : Bytes), zclDecode (zclEncode f pl) = .ok (f, pl)) ∧
  (∀ b : Bytes, 3 ≤ b.length → ∃ f p, zclDecode b = .ok (f, p) ∧ zclEncode f p = b)

/-- 40_aes_ccm.md R168, R169 (a), (b): CCM_DECRYPT opens what CCM_ENCRYPT sealed and fails for any other MIC. On any
input it recovers the message and advances the nonce alike whether it validates or not; when it validates it answers
PASS exactly when the tag over the recovered message is the unmasked MIC, else FAIL. -/
def Obligations.CcmDecryptInvertsEncrypt : Prop :=
  ∀ k n a : Bytes,
    let e := aesEnc k
    (∀ m : Bytes,
      let r := ccmEncrypt e n a m
      ccmDecrypt e n a r.c r.u true = { m := m, auth := .pass, nonce := r.nonce } ∧
      ∀ u : Bytes, u.length = 4 → u ≠ r.u →
        ccmDecrypt e n a r.c u true = { m := m, auth := .fail, nonce := r.nonce }) ∧
    (∀ c u : Bytes,
      let d := ctr e n c
      ccmDecrypt e n a c u false = { m := d.1, auth := .notChecked, nonce := d.2 } ∧
      (cbcTag e n a d.1 = xorBytes u ((e n).take 4) →
        ccmDecrypt e n a c u true = { m := d.1, auth := .pass, nonce := d.2 }) ∧
      (cbcTag e n a d.1 ≠ xorBytes u ((e n).take 4) →
        ccmDecrypt e n a c u true = { m := d.1, auth := .fail, nonce := d.2 }))

/-- 40_aes_ccm.md R161 to R165, R167: the masked MIC. For any auth data and message it is the chain over B0, the auth
part and the message part, block by block, under the mask of the nonce; the chain is written out for one block of auth
data and one of message, and for no auth data (flags 0x09) and no message. -/
def Obligations.MicOfOneBlockEach : Prop :=
  ∀ k n a m : Bytes, n.length = 16 →
    let e := aesEnc k
    let u := (ccmEncrypt e n a m).u
    let mask := (e n).take 4
    (0 < a.length → a.length ≤ 14 → 0 < m.length → m.length ≤ 16 →
      let b0 := [0x49#8] ++ (n.drop 1).take 13 ++ [0x00#8, BitVec.ofNat 8 m.length]
      let b1 := [0x00#8, BitVec.ofNat 8 a.length] ++ a ++ zeros (14 - a.length)
      let b2 := m ++ zeros (16 - m.length)
      u = xorBytes ((e (xorBytes (e (xorBytes (e b0) b1)) b2)).take 4) mask) ∧
    (a = [] → m = [] → u = xorBytes ((e ([0x09#8] ++ (n.drop 1).take 13 ++ [0x00#8, 0x00#8])).take 4) mask) ∧
    (ccmMacInput n a m).length % 16 = 0 ∧
    u = xorBytes ((ccmChained e (ccmMacInput n a m) ((ccmMacInput n a m).length / 16)).take 4) mask

/-- 40_aes_ccm.md R166, R169 (c), R171, R172: byte j of a counter pass is byte j of its input under byte j mod 16 of the
encrypted nonce whose byte 15 is j/16 + 1 further; so the pass flips in its result exactly the bits flipped in its
input. It advances only byte 15 of the nonce, by the number of blocks, mod 256. -/
def Obligations.CounterPassLaws : Prop :=
  ∀ k n c d : Bytes, n.length = 16 →
    let r := ctr (aesEnc k) n d
    (∀ j, j < d.length → r.1.getD j 0 =
      d.getD j 0 ^^^ (aesEnc k (n.set 15 (n.getD 15 0 + BitVec.ofNat 8 (j / 16 + 1)))).getD (j % 16) 0) ∧
    (c.length = d.length → xorBytes (ctr (aesEnc k) n c).1 r.1 = xorBytes c d) ∧
    r.1.length = d.length ∧ r.2.length = 16 ∧ (∀ j, j < 15 → r.2.getD j 0 = n.getD j 0) ∧
    (r.2.getD 15 0).toNat = ((n.getD 15 0).toNat + (d.length + 15) / 16) % 256

/-- 44_facade.md R301, R303, R305: how far PARSE descends below the MAC layer, what it takes from each layer, and the
layer and offset it reports where a layer fails. -/
def Obligations.ParseDescends : Prop :=
  ∀ (k : Bytes) (keyset : Bool) (b p : Bytes) (f : MacFields), macDecode b = .ok (f, p) →
    let n := nwkDecode (aesEnc k) keyset p
    ∃ r, parseFn (aesEnc k) keyset b = .ok r ∧ r.mac = f ∧
    (f.fc.extractLsb' 0 3 ≠ 1#3 → r = { mac := f, depth := .mac, out := p }) ∧
    (f.fc.extractLsb' 0 3 = 1#3 →
      r.nwk = n.f ∧ r.auth = n.auth ∧ r.nonce = n.nonce ∧
      r.wb = n.wb.map (fun w => (b.length - p.length + w.1, w.2)) ∧
      (n.f.fail = .hdr → r.depth = .mac ∧ r.out = p ∧ r.dfail = true ∧ r.layer = .nwk ∧ r.offset = 0) ∧
      (n.f.fail ≠ .hdr → n.f.valid = false ∨ n.f.fc.extractLsb' 0 2 ≠ 0#2 →
        r.depth = .nwk ∧ r.out = n.p ∧ r.dfail = !n.f.valid) ∧
      (n.f.fail ≠ .hdr → n.f.valid = false → r.layer = .nwk ∧ r.offset = n.foff) ∧
      (n.f.valid = true → n.f.fc.extractLsb' 0 2 = 0#2 →
        (∀ off, apsDecode n.p = .error off →
          r.depth = .nwk ∧ r.out = n.p ∧ r.dfail = true ∧ r.layer = .aps ∧ r.offset = off) ∧
        (∀ a q, apsDecode n.p = .ok (a, q) → r.aps = a ∧
          (a.profile ≠ 0x0104#16 → r.depth = .aps ∧ r.out = q ∧ r.dfail = false) ∧
          (a.profile = 0x0104#16 →
            (∀ z o, zclDecode q = .ok (z, o) → r.depth = .zcl ∧ r.zcl = z ∧ r.out = o ∧ r.dfail = false) ∧
            (q.length < 3 →
              r.depth = .aps ∧ r.out = q ∧ r.dfail = true ∧ r.layer = .zcl ∧ r.offset = q.length)))))

/-- 44_facade.md R304, R305, R307: the route, the failure report and the cleared records of a PARSE result. -/
def Obligations.ParseReport : Prop :=
  ∀ (k : Bytes) (keyset : Bool) (b : Bytes) (r : ParseResult), parseFn (aesEnc k) keyset b = .ok r →
    (r.route = .zcl ↔ (r.depth = .aps ∨ r.depth = .zcl) ∧ r.aps.profile = 0x0104#16) ∧
    (r.route = .joinMgmt ↔ r.depth = .aps ∧ r.aps.profile = 0x0000#16 ∧ r.aps.cluster = 0x0036#16) ∧
    (r.dfail = false → r.layer = .none ∧ r.offset = 0) ∧
    (r.dfail = true →
      (r.depth = .mac ∧ r.layer = .nwk ∧ r.offset = 0 ∧ r.nwk.fail = .hdr) ∨
      (r.depth = .nwk ∧ r.layer = .nwk ∧ r.nwk.valid = false ∧
        ∃ f p, macDecode b = .ok (f, p) ∧ r.offset = (nwkDecode (aesEnc k) keyset p).foff) ∨
      (r.depth = .nwk ∧ r.layer = .aps ∧ apsMalformedAt r.out = some r.offset) ∨
      (r.depth = .aps ∧ r.layer = .zcl ∧ r.offset = r.out.length ∧ r.out.length < 3)) ∧
    r.depth ≠ .none ∧ (r.depth = .mac → r.dfail = false → r.nwk = .zero) ∧
    (r.depth = .mac ∨ r.depth = .nwk → r.aps = .zero) ∧ (r.depth ≠ .zcl → r.zcl = .zero)

/-- 44_facade.md R313: PARSE takes the records and the payload back out of the frame COMPOSE of all four layers built
from canonical records. The rule leaves unsaid that the frame must be a MAC data frame, a NWK data frame and of the ZCL
profile for PARSE to descend (R301); those are premises here. -/
def Obligations.ParseInvertsCompose : Prop :=
  ∀ (s : State) (aseq : Bool) (pl : Bytes),
    s.mac.Canonical → s.nwk.Canonical → s.aps.Canonical → s.mac.fc.extractLsb' 0 3 = 1#3 →
    s.nwk.fc.extractLsb' 0 2 = 0#2 → s.nwk.fc.getLsbD 9 = true → s.aps.profile = 0x0104#16 → s.fc = s.nwk.secfc →
    s.Composable ⟨true, true, true, true⟩ →
      ∃ r, parseFn (aesEnc s.key.bytes) true
          (composeFrame (aesEnc s.key.bytes) s ⟨true, true, true, true⟩ aseq pl) = .ok r ∧
        r.mac = { s.mac with seq := if aseq then s.seqctr + 1 else s.mac.seq } ∧
        r.nwk = { s.nwk with mic := r.nwk.mic } ∧ r.aps = s.aps ∧ r.zcl = s.zcl ∧ r.out = pl ∧
        r.depth = .zcl ∧ r.route = .zcl ∧ r.auth = .pass ∧ r.dfail = false

/-! ### What a command leaves alone -/

/-- 42_nwk.md R246, R250: a completed secured NWK encode uses FC and leaves FC + 1, no other command moves FC, and so
a sequence of secured encodes uses FC, FC + 1, ... and never repeats a value. -/
def Obligations.FrameCounterNeverRepeats : Prop :=
  (∀ (i : Instr) (s t : State), exec i s = .next t →
    (s.securesNwk i → t.status.err = .none →
      s.fc ≠ 0xFFFFFFFF#32 ∧ t.nwk.secfc = s.fc ∧ t.fc = s.fc + 1) ∧
    (¬ s.securesNwk i ∨ t.status.err ≠ .none → t.fc = s.fc)) ∧
  (∀ (c d : Word) (runs : List (State × Instr × State)), securedEncodes c runs d →
    d.toNat = c.toNat + runs.length ∧
    ∀ (k : Nat) (r : State × Instr × State), runs[k]? = some r → r.2.2.nwk.secfc.toNat = c.toNat + k)

/-- 10_state.md R39 to R45; 41_mac.md R214; 42_nwk.md R233; 40_aes_ccm.md, 41_mac.md, 42_nwk.md, 43_aps_zcl.md,
44_facade.md ("Writes"): the registers a command may change. -/
def Obligations.CommandsKeepOtherRegisters : Prop :=
  ∀ (i : Instr) (s t : State), exec i s = .next t →
    t = { s with
      status := t.status, errInfo := t.errInfo, nonce := t.nonce, mic := t.mic, fc := t.fc, seqctr := t.seqctr
      oLen := t.oLen, mac := t.mac, nwk := t.nwk, aps := t.aps, zcl := t.zcl, dmem := t.dmem } ∧
    ((∀ m, i ≠ .ccmEnc m) → t.mic = s.mic) ∧
    ((∀ m, i ≠ .ccmEnc m) → (∀ v m, i ≠ .ccmDec v m) → i ≠ .nwkDec → i ≠ .parse → ¬ s.securesNwk i →
      t.nonce = s.nonce) ∧
    (i ≠ .nwkDec → i ≠ .parse → t.nwk.valid = s.nwk.valid ∧ t.nwk.fail = s.nwk.fail) ∧
    (i ≠ .nwkDec → i ≠ .parse → ¬ s.securesNwk i → t.nwk = s.nwk) ∧
    (i ≠ .macDec → i ≠ .parse → ¬ buildsMac i → t.mac = s.mac) ∧
    (i ≠ .apsDec → i ≠ .parse → t.aps = s.aps) ∧ (i ≠ .zclDec → i ≠ .parse → t.zcl = s.zcl) ∧
    (assignsSeq i → t.status.err = .none → t.seqctr = s.seqctr + 1 ∧ t.mac.seq = s.seqctr + 1) ∧
    (¬ assignsSeq i ∨ t.status.err ≠ .none → t.seqctr = s.seqctr) ∧
    (¬ hasOutput i → t.oLen = s.oLen)

/-- 20_memory.md R91: the engine writes only the O region, the M region of CCM, and for NWK_DEC and PARSE the byte of
the I region that holds the security-control byte; and what it reads of DMEM is only its input regions: two memories that agree on them get the same results. -/
def Obligations.EngineAccessesOnlyItsRegions : Prop :=
  (∀ (i : Instr) (s t : State) (a : Nat), exec i s = .next t → t.dmem.read a ≠ s.dmem.read a →
    (hasOutput i ∧ s.covers .o a) ∨ (Region.m ∈ regionsOf i ∧ s.covers .m a) ∨ s.writesBack i a) ∧
  (∀ (i : Instr) (s t : State) (d : Dmem),
    (∀ x ∈ regionsOf i, x ≠ .o → ∀ a, s.covers x a → d.read a = s.dmem.read a) → exec i s = .next t →
      ∃ m, exec i { s with dmem := d } = .next { t with dmem := m } ∧
        ∀ a, m.read a = t.dmem.read a ∨ (m.read a = d.read a ∧ t.dmem.read a = s.dmem.read a))

/-- 10_state.md R40: no command uses the KEY words until KEY_SET = 1, and no host read ever shows them. -/
def Obligations.KeyUnusedAndUnread : Prop :=
  (∀ (i : Instr) (s t : State) (key : Words4), s.keySet = false → exec i s = .next t →
    exec i { s with key := key } = .next { t with key := key }) ∧
  (∀ (s : State) (key : Words4) (width : AccessWidth) (off : BitVec 12),
    hostRead { s with key := key } width off = { hostRead s width off with key := key })

/-! ### The host's side -/

/-- 60_exceptions.md R336: a CMD write in IDLE is accepted and nothing else changes (`wait` and `latencies` are the
model's own, log entry 3, and may change); in BUSY it is dropped with OVR; a completion that is due comes before it. -/
def Obligations.CmdWriteIsAcceptedOrDropped : Prop :=
  ∀ (s : State) (w : Word),
    (s.status.busy = false → ∃ n l, hostWrite s .w32 0x000#12 w =
      { s with cur := w, status := { s.status with busy := true, done := false }, wait := n, latencies := l }) ∧
    (s.status.busy = true → hostWrite s .w32 0x000#12 w = { s with status := { s.status with ovr := true } }) ∧
    (s.status.busy = true → s.wait = 0 → ∀ t, step s = .next t → t.inbox = s.inbox ∧ t.status.busy = false)

/-- 20_memory.md R85, R87: an access of a wrong width, alignment or address, and a write while BUSY to anything but CMD,
STATUS and CTRL, is refused: BUSERR, data 0, nothing else; no other access is. -/
def Obligations.RefusedAccessOnlySetsBuserr : Prop :=
  ∀ (s : State) (width : AccessWidth) (off : BitVec 12) (v : Word),
    let refused := { s with status := { s.status with buserr := true } }
    (¬ permitted width off.toNat → hostRead s width off = { refused with busData := 0 }) ∧
    (¬ permitted width off.toNat → hostWrite s width off v = refused) ∧
    (s.status.busy = true → ¬ writableBusy off.toNat → hostWrite s width off v = refused) ∧
    (permitted width off.toNat → (hostRead s width off).status = s.status) ∧
    (permitted width off.toNat → s.status.busy = false ∨ writableBusy off.toNat →
      (hostWrite s width off v).status.buserr = true → s.status.buserr = true)

/-- 20_memory.md R88: what a permitted read returns while BUSY; the rest is unspecified (a free value, log entry 9) and
has no effect on the ZFE. -/
def Obligations.ReadsWhileBusy : Prop :=
  ∀ (s : State) (width : AccessWidth) (off : BitVec 12), s.status.busy = true → permitted width off.toNat →
    (off = 0x004#12 → hostRead s width off = { s with busData := s.statusWord }) ∧
    (off = 0x008#12 → hostRead s width off = { s with busData := if s.ie then 1 else 0 }) ∧
    (off = 0x000#12 ∨ (0x010 ≤ off.toNat ∧ off.toNat < 0x020) → hostRead s width off = { s with busData := 0 }) ∧
    (∃ v n, hostRead s width off = { s with busData := v, draws := n })

/-- 10_state.md R33; 20_memory.md R89: in IDLE a register reads back its RW bits as written and its other bits as
before, and a write leaves every other register and DMEM; of STATUS a KEY write moves KEY_SET (bit 10) alone, any other
write nothing. CMD, STATUS and CTRL are other statements. -/
def Obligations.RegisterHoldsItsRwBits : Prop :=
  ∀ (s : State) (off : BitVec 12) (r : Reg) (v : Word), s.status.busy = false → regAt off.toNat = some r →
    r ≠ .cmd → r ≠ .status → r ≠ .ctrl →
    let t := hostWrite s .w32 off v
    (hostRead t .w32 off).busData = (v &&& r.rwMask) ||| (readReg s r &&& ~~~r.rwMask) ∧ t.dmem = s.dmem ∧
    t.status = s.status ∧ t.statusWord &&& 0xFFFFFBFF#32 = s.statusWord &&& 0xFFFFFBFF#32 ∧
    ((∀ k, r ≠ .key k) → t.statusWord = s.statusWord ∧ t.key = s.key ∧ t.kw = s.kw) ∧
    ∀ q : Reg, q ≠ r → q ≠ .status → readReg t q = readReg s q

/-- 10_state.md R36, R33: the places of the STATUS fields, and a STATUS write, which clears the W1C bits written as 1
and nothing else, in IDLE and in BUSY. -/
def Obligations.StatusFieldsAndWriteOneToClear : Prop :=
  ∀ (s : State) (v : Word),
    s.statusWord.getLsbD 0 = s.status.busy ∧ s.statusWord.getLsbD 1 = s.status.done ∧
    s.statusWord.getLsbD 2 = s.status.ovr ∧ s.statusWord.getLsbD 3 = s.status.buserr ∧
    s.statusWord.extractLsb' 4 4 = s.status.err.code ∧ s.statusWord.extractLsb' 8 2 = s.status.auth.code ∧
    s.statusWord.getLsbD 10 = s.keySet ∧ s.statusWord.extractLsb' 11 3 = s.status.depth.code ∧
    s.statusWord.extractLsb' 14 2 = s.status.route.code ∧ s.statusWord.getLsbD 16 = s.status.dfail ∧
    s.statusWord.extractLsb' 17 15 = 0 ∧
    hostWrite s .w32 0x004#12 v = { s with
      status := { s.status with
        done := s.status.done && !v.getLsbD 1, ovr := s.status.ovr && !v.getLsbD 2
        buserr := s.status.buserr && !v.getLsbD 3 } }

/-- 10_state.md R39, R40: KEY_SET is the conjunction of the four key-written bits; a KEY write stores its value and sets
its bit, set before or not, and changes nothing else; hardware reset clears the bits, a soft reset keeps them, and no
step sets one but a KEY write. -/
def Obligations.KeySetFollowsKeyWrites : Prop :=
  (∀ s : State, s.statusWord.getLsbD 10 = (s.kw.get 0 && s.kw.get 1 && s.kw.get 2 && s.kw.get 3) ∧
    (hardReset s).kw = .zero ∧ (∀ ie, (softReset s ie).kw = s.kw)) ∧
  (∀ (s : State) (v : Word) (k : Fin 4), s.status.busy = false →
    let t := hostWrite s .w32 (BitVec.ofNat 12 (0x010 + 4 * k.val)) v
    t = { s with key := t.key, kw := t.kw } ∧ t.key.get k = v ∧ t.kw.get k = true ∧
      ∀ j, j ≠ k → t.key.get j = s.key.get j ∧ t.kw.get j = s.kw.get j) ∧
  (∀ (s t : State) (k : Fin 4), step s = .next t → s.kw.get k = false → t.kw.get k = true →
    ∃ v rest, s.inbox = .write .w32 (BitVec.ofNat 12 (0x010 + 4 * k.val)) v :: rest ∧ s.status.busy = false ∧
      t.key.get k = v)

/-- 20_memory.md R83, R85: a host access to DMEM transfers its bytes in little-endian order, whatever its width. -/
def Obligations.DmemAccessIsLittleEndian : Prop :=
  ∀ (s : State) (width : AccessWidth) (off : BitVec 12) (v : Word),
    s.status.busy = false → 0x400 ≤ off.toNat → permitted width off.toNat →
    let n := match width with
      | .w8 => 1
      | .w16 => 2
      | .w32 => 4
    let t := hostWrite s width off v
    t = { s with dmem := t.dmem } ∧
    (∀ a, t.dmem.read a =
      if off.toNat - 0x400 ≤ a ∧ a < off.toNat - 0x400 + n then v.extractLsb' (8 * (a - (off.toNat - 0x400))) 8
      else s.dmem.read a) ∧
    (∀ k, k < n → (hostRead s width off).busData.extractLsb' (8 * k) 8 = s.dmem.read (off.toNat - 0x400 + k)) ∧
    (hostRead s width off).busData.toNat < 256 ^ n ∧
    hostRead s width off = { s with busData := (hostRead s width off).busData }

/-- 70_reset_and_hazards.md R362; 10_state.md R37: a CTRL write with SRST = 1 in IDLE keeps KEY, `kw`, FC and DMEM,
resets the rest and then sets IE; with SRST = 0 it sets IE alone, in BUSY too. That the model's own fields are kept is
the model's choice (log entries 3 and 4). -/
def Obligations.SoftResetKeepsKeyAndCounter : Prop :=
  ∀ (s : State) (v : Word),
    (s.status.busy = false → v.getLsbD 1 = true → hostWrite s .w32 0x008#12 v =
      { State.reset with
        ie := v.getLsbD 0, key := s.key, kw := s.kw, fc := s.fc, dmem := s.dmem, latencies := s.latencies
        inbox := s.inbox, busData := s.busData, draws := s.draws }) ∧
    (v.getLsbD 1 = false → hostWrite s .w32 0x008#12 v = { s with ie := v.getLsbD 0 })

/-- 70_reset_and_hazards.md R363: a soft reset in BUSY abandons the command; only the bytes its rule would have written
(its O region, the M region of CCM, the write-back byte of NWK_DEC and PARSE) may change, FC skips a value that a
secured encode may have used, and the rest follows R362 (nothing is said of the model's own fields). That they may
change even where the command would have raised an error or written a shorter output is the model's choice (log
entries 10 and 11). -/
def Obligations.AbortTouchesOnlyTheCommandsBytes : Prop :=
  ∀ (s : State) (v : Word), s.status.busy = true → v.getLsbD 1 = true →
    let t := hostWrite s .w32 0x008#12 v
    t = { State.reset with
      ie := v.getLsbD 0, key := s.key, kw := s.kw, fc := t.fc, dmem := t.dmem, latencies := t.latencies
      inbox := t.inbox, busData := t.busData, draws := t.draws } ∧
    (illegalWord s.cur → t.fc = s.fc ∧ t.dmem = s.dmem) ∧
    ∀ i, decode s.cur = .ok i →
      (s.securesNwk i → s.keySet = true → s.fc ≠ 0xFFFFFFFF#32 → t.fc = s.fc + 1) ∧
      (¬ s.securesNwk i ∨ s.keySet = false ∨ s.fc = 0xFFFFFFFF#32 → t.fc = s.fc) ∧
      (∀ a, t.dmem.read a ≠ s.dmem.read a →
        (hasOutput i ∧ s.covers .o a) ∨ (Region.m ∈ regionsOf i ∧ s.covers .m a) ∨ s.writesBack i a)

/-- 70_reset_and_hazards.md R360: the values hardware reset gives, in `State.reset` and after a reset in the course of a
run; KEY and DMEM are unspecified. -/
def Obligations.HardwareResetValues : Prop :=
  ∀ s : State, ∀ t ∈ [State.reset, hardReset s],
    t.cur = 0 ∧ t.status = .zero ∧ t.ie = false ∧ t.errInfo = .zero ∧ t.kw = .zero ∧ t.nonce = .zero ∧ t.mic = 0 ∧
      t.fc = 0 ∧ t.seqctr = 0 ∧ t.regions = .zero ∧ t.oLen = 0 ∧ t.mac = .zero ∧ t.nwk = .zero ∧ t.aps = .zero ∧
      t.zcl = .zero ∧ t.irq = false ∧ ∀ r : Reg, readReg t r = 0

/-- 10_state.md R68, 60_exceptions.md R339: IRQ is IE and DONE; every completion raises it when enabled, and a DONE
clear, an acceptance or an IE clear lets it fall; OVR and BUSERR do not move it; it is 0 after reset. -/
def Obligations.InterruptFollowsDone : Prop :=
  (∀ s : State, s.irq = (s.ie && s.status.done) ∧ State.reset.irq = false ∧ (hardReset s).irq = false) ∧
  (∀ s t : State, s.status.busy = true → s.wait = 0 → step s = .next t → t.irq = s.ie) ∧
  (∀ (s : State) (v : Word), v.getLsbD 1 = true → (hostWrite s .w32 0x004#12 v).irq = false) ∧
  (∀ (s : State) (w : Word), s.status.busy = false → (hostWrite s .w32 0x000#12 w).irq = false) ∧
  (∀ (s : State) (w : Word), s.status.busy = true → (hostWrite s .w32 0x000#12 w).irq = s.irq) ∧
  (∀ (s : State) (v : Word), v.getLsbD 0 = false → (hostWrite s .w32 0x008#12 v).irq = false) ∧
  (∀ (s : State) (width : AccessWidth) (off : BitVec 12), (hostRead s width off).irq = s.irq)

/-! ### The invariant -/

/-- The invariant holds after reset. -/
def Obligations.ResetMeetsInvariant : Prop := State.reset.Inv

/-- Every step keeps the invariant, from every state that meets it: DMEM stays canonical (10_state.md R66), DONE is 0
while a command runs (60_exceptions.md R336), an error leaves no result (R333), the route fits the depth (44_facade.md
R304, R305), the reported offset and the output length fit DMEM, a valid NWK frame has no failure (42_nwk.md R233). -/
def Obligations.StepKeepsInvariant : Prop :=
  ∀ s t : State, s.Inv → step s = .next t → t.Inv
end

