-- ==== Sys2Proof/Laws/Registers.lean ====
section
/-! SUPPORT. Writing part of a register and reading it back: the two words of a 64-bit field, the words of KEY and
NONCE, and the fields of a word. -/

namespace Sys2Proof.Machine

@[simp] theorem Words4.get_set (w : Words4) (v : Word) (k q : Fin 4) :
    (w.set v k).get q = if q = k then v else w.get q := by
  fin_cases k <;> fin_cases q <;> rfl

@[simp] theorem lo32_withLo (a : Addr64) (v : Word) : lo32 (withLo a v) = v := by
  refine BitVec.eq_of_getLsbD_eq fun k hk => ?_
  have : k < 64 := by omega
  simp [lo32, withLo, hk, this]

@[simp] theorem hi32_withLo (a : Addr64) (v : Word) : hi32 (withLo a v) = hi32 a := by
  refine BitVec.eq_of_getLsbD_eq fun k hk => ?_
  have : 32 + k < 64 := by omega
  simp [hi32, withLo, hk, this]

@[simp] theorem lo32_withHi (a : Addr64) (v : Word) : lo32 (withHi a v) = lo32 a := by
  refine BitVec.eq_of_getLsbD_eq fun k hk => ?_
  have : k < 64 := by omega
  simp [lo32, withHi, hk, this]

@[simp] theorem hi32_withHi (a : Addr64) (v : Word) : hi32 (withHi a v) = v := by
  refine BitVec.eq_of_getLsbD_eq fun k hk => ?_
  have : 32 + k < 64 := by omega
  simp [hi32, withHi, hk, this]

/-- Bit k of a field placed in a word. -/
theorem getLsbD_place {n : Nat} (p : Nat) (v : BitVec n) (k : Nat) (hk : k < 32) :
    (place p v).getLsbD k = (decide (p ≤ k) && v.getLsbD (k - p)) := by
  by_cases h : p ≤ k <;> simp [place, hk, h]

/-- Bit k of a bit placed in a word. -/
theorem getLsbD_placeBit (p : Nat) (b : Bool) (k : Nat) (hk : k < 32) :
    (placeBit p b).getLsbD k = (decide (k = p) && b) := by
  rw [placeBit, getLsbD_place p _ k hk]
  by_cases h : k = p
  · subst h; cases b <;> simp
  · by_cases hp : p ≤ k
    · have : k - p ≠ 0 := by omega
      simp [h, hp, BitVec.getLsbD_ofBool, this]
    · simp [h, hp]

end Sys2Proof.Machine
end

