-- ==== Sys2Proof/Laws/Bus.lean ====
section
/-! SUPPORT. What a host access reaches: the register map read backwards, and the permitted accesses. -/

namespace Sys2Proof.Machine

/-- A register read out of the map stands in it at its offset (10_state.md R34, R47). -/
theorem regAt_mem (n : Nat) (r : Reg) (h : regAt n = some r) : (n, r) ∈ csrMap ++ fieldMap := by
  obtain ⟨e, he, rfl⟩ := Option.map_eq_some_iff.1 h
  have h1 := List.mem_of_find?_eq_some he
  have h2 := List.find?_some he
  simp only [beq_iff_eq] at h2
  rw [← h2]
  exact h1

/-- CMD, STATUS and CTRL stand at 0x000, 0x004, 0x008 and nowhere else. -/
theorem regAt_special (n : Nat) (r : Reg) (h : regAt n = some r) :
    (r = .cmd → n = 0x000) ∧ (r = .status → n = 0x004) ∧ (r = .ctrl → n = 0x008) := by
  have := regAt_mem n r h
  simp only [csrMap, fieldMap, List.cons_append, List.nil_append, List.mem_cons, List.not_mem_nil, or_false,
    Prod.mk.injEq] at this
  refine ⟨?_, ?_, ?_⟩ <;> rintro rfl <;> simpa using this

set_option maxRecDepth 8000 in
/-- The offsets below 0x200 that name a register (10_state.md R34, R47; 20_memory.md R86). -/
theorem regAt_isSome (n : Nat) (h : n < 0x200) : (regAt n).isSome = true ↔ n % 4 = 0 ∧ ¬ reservedOffset n := by
  have hd : ∀ m : Fin 128, (regAt (4 * m.val)).isSome = true ↔ ¬ reservedOffset (4 * m.val) := by
    unfold reservedOffset
    decide
  by_cases h4 : n % 4 = 0
  · have := hd ⟨n / 4, by omega⟩
    have he : 4 * (n / 4) = n := by omega
    simp only [he] at this
    simp [h4, this]
  · have : regAt n = none := by
      cases hr : regAt n with
      | none => rfl
      | some r =>
        have hm := regAt_mem n r hr
        have ha : ∀ e ∈ csrMap ++ fieldMap, e.1 % 4 = 0 := by decide
        exact absurd (ha _ hm) h4
    simp [this, h4]

/-- The accesses that reach nothing are those that are not permitted (20_memory.md R85, R86). -/
theorem target_none_iff (width : AccessWidth) (off : BitVec 12) :
    target width off = none ↔ ¬ permitted width off.toNat := by
  unfold target
  by_cases h1 : off.toNat < 0x200
  · have hn : ¬ 1024 ≤ off.toNat := by omega
    have h2 := regAt_isSome _ h1
    simp only [h1, if_true]
    cases width <;> simp only [permitted, h1, reduceCtorEq, if_true, if_false, true_and, false_and, hn, or_false]
    · simp
    · simp
    · rw [← h2]
      cases regAt off.toNat <;> simp
  · simp only [h1, if_false, permitted, false_and, false_or]
    by_cases hc : 0x400 ≤ off.toNat ∧ off.toNat < 0x600 ∧ off.toNat % width.bytes = 0
    · rw [if_pos hc]
      cases width <;> simp_all [AccessWidth.bytes]
    · rw [if_neg hc]
      cases width <;> simp_all [AccessWidth.bytes, Nat.mod_one]

/-- A permitted access to a register: 32 bits at its offset. -/
theorem target_reg (width : AccessWidth) (off : BitVec 12) (r : Reg) (h : target width off = some (.reg r)) :
    width = .w32 ∧ regAt off.toNat = some r := by
  unfold target at h
  split at h
  · split at h
    · next hw =>
      obtain ⟨q, hq, hr⟩ := Option.map_eq_some_iff.1 h
      injection hr with hr
      exact ⟨hw, hr ▸ hq⟩
    · cases h
  · split at h <;> cases h

/-- A permitted access to DMEM lies in DMEM, aligned (20_memory.md R82, R85). -/
theorem target_dmem (width : AccessWidth) (off : BitVec 12) (a : Nat) (h : target width off = some (.dmem a)) :
    off.toNat = 0x400 + a ∧ a + width.bytes ≤ 512 := by
  unfold target at h
  split at h
  · split at h
    · obtain ⟨q, _, hr⟩ := Option.map_eq_some_iff.1 h
      cases hr
    · cases h
  · split at h
    · next hc =>
      injection h with h
      injection h with h
      refine ⟨by omega, ?_⟩
      cases width <;> simp only [AccessWidth.bytes] at hc ⊢ <;> omega
    · cases h

end Sys2Proof.Machine
end

