-- ==== Sys2Proof/Laws/Bytes.lean ====
section
/-! SUPPORT. Laws of the byte-string operations (00_scope.md R12). -/

namespace Sys2Proof.Machine

@[simp] theorem le_length (n v : Nat) : (le n v).length = n := by
  induction n generalizing v with
  | zero => rfl
  | succ n ih => simp [le, ih]

@[simp] theorem leOf_length {w : Nat} (v : BitVec w) : (leOf v).length = w / 8 := le_length _ _

@[simp] theorem be16_length (v : Nat) : (be16 v).length = 2 := rfl

@[simp] theorem zeros_length (n : Nat) : (zeros n).length = n := by simp [zeros]

@[simp] theorem slice_length (b : Bytes) (i n : Nat) : (slice b i n).length = min n (b.length - i) := by
  simp [slice]

@[simp] theorem xorBytes_length (a b : Bytes) : (xorBytes a b).length = min a.length b.length := by
  simp [xorBytes]

theorem rdLe_lt (b : Bytes) : rdLe b < 256 ^ b.length := by
  induction b with
  | nil => simp [rdLe]
  | cons x b ih =>
    have hx : x.toNat < 256 := x.isLt
    simp only [rdLe, List.length_cons, Nat.pow_succ]
    omega

theorem rdLe_le (n v : Nat) : rdLe (le n v) = v % 256 ^ n := by
  induction n generalizing v with
  | zero => simp [le, rdLe, Nat.mod_one]
  | succ n ih =>
    have hb : (BitVec.ofNat 8 v).toNat = v % 256 := by simp
    rw [le, rdLe, ih, hb, Nat.pow_succ, Nat.mul_comm (256 ^ n) 256, Nat.mod_mul]

theorem le_rdLe (b : Bytes) : le b.length (rdLe b) = b := by
  induction b with
  | nil => rfl
  | cons x b ih =>
    have hx : x.toNat < 256 := x.isLt
    have hd : (x.toNat + 256 * rdLe b) / 256 = rdLe b := by omega
    have hm : BitVec.ofNat 8 (x.toNat + 256 * rdLe b) = x := by
      apply BitVec.eq_of_toNat_eq
      simp only [BitVec.toNat_ofNat]
      omega
    simp [le, rdLe, hd, hm, ih]

theorem rdLe_append (a b : Bytes) : rdLe (a ++ b) = rdLe a + 256 ^ a.length * rdLe b := by
  induction a with
  | nil => simp [rdLe]
  | cons x a ih => simp only [List.cons_append, rdLe, ih, List.length_cons, Nat.pow_succ]; ring

/-- Reading the bytes of a field of whole bytes gives the field back. -/
theorem ofNat_rdLe_leOf {w : Nat} (h : w % 8 = 0) (v : BitVec w) : BitVec.ofNat w (rdLe (leOf v)) = v := by
  apply BitVec.eq_of_toNat_eq
  have hp : 256 ^ (w / 8) = 2 ^ w := by
    have h8 : w = 8 * (w / 8) := by omega
    calc 256 ^ (w / 8) = (2 ^ 8) ^ (w / 8) := by norm_num
      _ = 2 ^ (8 * (w / 8)) := by rw [← Nat.pow_mul]
      _ = 2 ^ w := by rw [← h8]
  rw [leOf, rdLe_le, hp, BitVec.toNat_ofNat, Nat.mod_mod, Nat.mod_eq_of_lt v.isLt]

/-- A slice that lies in the second part of an appended string. -/
theorem slice_append_right (a b : Bytes) (i n : Nat) (h : a.length ≤ i) :
    slice (a ++ b) i n = slice b (i - a.length) n := by
  simp [slice, List.drop_append, List.drop_eq_nil_of_le h]

/-- The slice that is the first part of an appended string. -/
theorem slice_append_left (a b : Bytes) : slice (a ++ b) 0 a.length = a := by simp [slice]

/-- Exclusive or with the same long enough string twice gives the string back (40_aes_ccm.md R166). -/
theorem xorBytes_cancel (a k : Bytes) (h : a.length ≤ k.length) : xorBytes (xorBytes a k) k = a := by
  induction a generalizing k with
  | nil => simp [xorBytes]
  | cons x a ih =>
    cases k with
    | nil => simp at h
    | cons y k =>
      have := ih k (by simpa using h)
      simp only [xorBytes] at this ⊢
      simp [this]

theorem pad16_length_mod (b : Bytes) : (pad16 b).length % 16 = 0 := by
  simp only [pad16, List.length_append, zeros_length]
  omega

theorem takeBlocks_length (n : Nat) (b : Bytes) : (takeBlocks n b).length = n := by
  induction n generalizing b with
  | zero => rfl
  | succ n ih => simp [takeBlocks, ih]

/-- AES_ENC gives a 16-byte block (00_scope.md R13). -/
@[simp] theorem aesEnc_length (k b : Bytes) : (aesEnc k b).length = 16 := le_length _ _

/-- AES_DEC gives a 16-byte block (00_scope.md R13). -/
@[simp] theorem aesDec_length (k b : Bytes) : (aesDec k b).length = 16 := le_length _ _

@[simp] theorem cipher_length (s : State) (b : Bytes) : (s.cipher b).length = 16 := le_length _ _

@[simp] theorem decipher_length (s : State) (b : Bytes) : (s.decipher b).length = 16 := le_length _ _

@[simp] theorem words4_bytes_length (w : Words4) : w.bytes.length = 16 := by simp [Words4.bytes]

end Sys2Proof.Machine
end

