-- ==== Sys2Proof/Laws/Ccm.lean ====
section
/-! SUPPORT. Lengths and the counter pass of CCM* (40_aes_ccm.md R160 to R172), for any cipher that gives 16-byte
blocks. -/

namespace Sys2Proof.Machine

theorem cbcChain_length (enc : Bytes → Bytes) (he : ∀ b, (enc b).length = 16) (bs : List Bytes) (x : Bytes)
    (hx : x.length = 16) : (cbcChain enc x bs).length = 16 := by
  induction bs generalizing x with
  | nil => exact hx
  | cons b bs ih => exact ih _ (he _)

/-- The cleartext MIC is 4 bytes (40_aes_ccm.md R164). -/
theorem cbcTag_length (enc : Bytes → Bytes) (he : ∀ b, (enc b).length = 16) (n a m : Bytes) :
    (cbcTag enc n a m).length = 4 := by
  simp [cbcTag, cbcChain_length enc he]

/-- A masked or unmasked MIC keeps its length (40_aes_ccm.md R165). -/
theorem maskTag_length (enc : Bytes → Bytes) (he : ∀ b, (enc b).length = 16) (n t : Bytes) (ht : t.length = 4) :
    (maskTag enc n t).length = 4 := by
  simp [maskTag, he, ht]

/-- Unmasking undoes masking (40_aes_ccm.md R165). -/
theorem maskTag_maskTag (enc : Bytes → Bytes) (he : ∀ b, (enc b).length = 16) (n t : Bytes) (ht : t.length = 4) :
    maskTag enc n (maskTag enc n t) = t :=
  xorBytes_cancel _ _ (by simp [he, ht])

theorem xorBytes_take (a k : Bytes) (n : Nat) : (xorBytes a k).take n = xorBytes (a.take n) (k.take n) := by
  simp [xorBytes, List.take_zipWith]

/-- The keystream of `k` blocks after nonce `n` (40_aes_ccm.md R166). -/
def keystream (enc : Bytes → Bytes) : Nat → Bytes → Bytes
  | 0, _ => []
  | k + 1, n => enc (bumpNonce n) ++ keystream enc k (bumpNonce n)

theorem keystream_length (enc : Bytes → Bytes) (he : ∀ b, (enc b).length = 16) (k : Nat) (n : Bytes) :
    (keystream enc k n).length = 16 * k := by
  induction k generalizing n with
  | zero => rfl
  | succ k ih => simp only [keystream, List.length_append, he, ih]; omega

/-- The nonce after `k` blocks. -/
def bumped : Nat → Bytes → Bytes
  | 0, n => n
  | k + 1, n => bumped k (bumpNonce n)

theorem xorBytes_append (a b k l : Bytes) (h : a.length = k.length) :
    xorBytes (a ++ b) (k ++ l) = xorBytes a k ++ xorBytes b l := by
  simp [xorBytes, List.zipWith_append h]

/-- The counter pass is the exclusive or with the keystream (40_aes_ccm.md R166). -/
theorem ctrBlocks_eq (enc : Bytes → Bytes) (he : ∀ b, (enc b).length = 16) (k : Nat) (n d : Bytes)
    (hd : d.length ≤ 16 * k) : ctrBlocks enc k n d = (xorBytes d (keystream enc k n), bumped k n) := by
  induction k generalizing n d with
  | zero =>
    have : d = [] := List.eq_nil_of_length_eq_zero (by omega)
    simp [ctrBlocks, keystream, bumped, this, xorBytes]
  | succ k ih =>
    rw [ctrBlocks, ih _ _ (by simp; omega)]
    simp only [keystream, bumped]
    congr 1
    by_cases h : 16 ≤ d.length
    · conv => rhs; rw [← List.take_append_drop 16 d]
      rw [xorBytes_append _ _ _ _ (by simp [he]; omega)]
    · have h1 : d.drop 16 = [] := List.drop_eq_nil_of_le (by omega)
      have h2 : d.take 16 = d := List.take_of_length_le (by omega)
      rw [h1, h2]
      simp only [xorBytes, List.zipWith_nil_left, List.append_nil]
      apply List.ext_getElem
      · simp [he]; omega
      · intro i h3 h4
        simp only [List.getElem_zipWith]
        rw [List.getElem_append_left]

theorem ctr_eq (enc : Bytes → Bytes) (he : ∀ b, (enc b).length = 16) (n d : Bytes) :
    ctr enc n d = (xorBytes d (keystream enc (blockCount d.length) n), bumped (blockCount d.length) n) :=
  ctrBlocks_eq enc he _ n d (by simp [blockCount]; omega)

/-- The counter pass keeps the length (40_aes_ccm.md R160, R166). -/
theorem ctr_length (enc : Bytes → Bytes) (he : ∀ b, (enc b).length = 16) (n d : Bytes) :
    (ctr enc n d).1.length = d.length := by
  rw [ctr_eq enc he]
  simp only [xorBytes_length, keystream_length enc he, blockCount]
  omega

/-- The counter pass is its own inverse, and advances the nonce alike both ways (40_aes_ccm.md R166). -/
theorem ctr_ctr (enc : Bytes → Bytes) (he : ∀ b, (enc b).length = 16) (n d : Bytes) :
    ctr enc n (ctr enc n d).1 = (d, (ctr enc n d).2) := by
  have hl := ctr_length enc he n d
  rw [ctr_eq enc he n (ctr enc n d).1, hl, ctr_eq enc he n d]
  simp only
  rw [xorBytes_cancel _ _ (by rw [keystream_length enc he]; simp [blockCount]; omega)]

/-- The nonce keeps its length. -/
@[simp] theorem bumped_length (k : Nat) (n : Bytes) : (bumped k n).length = n.length := by
  induction k generalizing n with
  | zero => rfl
  | succ k ih => simp [bumped, ih, bumpNonce]

/-- After `k` blocks only byte 15 of the nonce has moved, by `k` (40_aes_ccm.md R166, R172). -/
theorem bumped_eq (k : Nat) (n : Bytes) (hn : n.length = 16) :
    bumped k n = n.set 15 (n.getD 15 0 + BitVec.ofNat 8 k) := by
  induction k generalizing n with
  | zero =>
    have : n.getD 15 0 = n[15] := by simp [List.getD, hn]
    rw [bumped, this]
    simp
  | succ k ih =>
    have h15 : 15 < n.length := by omega
    rw [bumped, ih _ (by simpa [bumpNonce] using hn)]
    simp only [bumpNonce, List.set_set]
    congr 1
    simp only [List.getD, List.getElem?_set_self h15, Option.getD_some]
    apply BitVec.eq_of_toNat_eq
    have h1 : (1 : Byte).toNat = 1 := rfl
    simp only [BitVec.toNat_add, BitVec.toNat_ofNat, h1]
    omega

end Sys2Proof.Machine
end

