-- ==== Sys2Proof/Laws/Memory.lean ====
section
/-! SUPPORT. Laws of DMEM: a read after a write, the rest left alone, and the canonical form kept by every memory
operation. The read laws hold of every cell list, canonical or not. -/

namespace Sys2Proof.Machine

theorem cellAt_putCell_same (cs : List Host.Cell) (a : Nat) (v : Byte) : cellAt (putCell cs a v) a = some v := by
  induction cs with
  | nil => simp [putCell, cellAt]
  | cons c cs ih =>
    simp only [putCell]
    split
    · simp [cellAt]
    · split
      · simp [cellAt]
      · next _ h => simp [cellAt, Ne.symm h, ih]

theorem cellAt_putCell_other (cs : List Host.Cell) (a b : Nat) (v : Byte) (h : b ≠ a) :
    cellAt (putCell cs a v) b = cellAt cs b := by
  induction cs with
  | nil => simp [putCell, cellAt, Ne.symm h]
  | cons c cs ih =>
    simp only [putCell]
    split
    · simp [cellAt, Ne.symm h]
    · split
      · next _ hc => simp [cellAt, Ne.symm h, ← hc]
      · simp [cellAt, ih]

theorem dropCell_cons (c : Host.Cell) (cs : List Host.Cell) (a : Nat) :
    dropCell (c :: cs) a = if c.1 = a then dropCell cs a else c :: dropCell cs a := by
  by_cases h : c.1 = a <;> simp [dropCell, h]

theorem cellAt_dropCell_same (cs : List Host.Cell) (a : Nat) : cellAt (dropCell cs a) a = none := by
  induction cs with
  | nil => rfl
  | cons c cs ih =>
    rw [dropCell_cons]
    split
    · exact ih
    · next h => simp [h, cellAt, ih]

theorem cellAt_dropCell_other (cs : List Host.Cell) (a b : Nat) (h : b ≠ a) :
    cellAt (dropCell cs a) b = cellAt cs b := by
  induction cs with
  | nil => rfl
  | cons c cs ih =>
    rw [dropCell_cons]
    split
    · next hc => simp [hc, cellAt, Ne.symm h, ih]
    · simp [cellAt, ih]

@[simp] theorem write_powerOn (m : Dmem) (a : Nat) (v : Byte) : (m.write a v).powerOn = m.powerOn := by
  unfold Dmem.write; split <;> rfl

@[simp] theorem write_unwritten (m : Dmem) (a b : Nat) (v : Byte) : (m.write a v).unwritten b = m.unwritten b := by
  simp [Dmem.unwritten]

@[simp] theorem read_write_same (m : Dmem) (a : Nat) (v : Byte) : (m.write a v).read a = v := by
  unfold Dmem.read
  rw [write_unwritten]
  unfold Dmem.write
  split
  · next h => simp [cellAt_dropCell_same, h]
  · simp [cellAt_putCell_same]

theorem read_write_other (m : Dmem) (a b : Nat) (v : Byte) (h : b ≠ a) : (m.write a v).read b = m.read b := by
  unfold Dmem.read
  rw [write_unwritten]
  unfold Dmem.write
  split
  · simp [cellAt_dropCell_other _ _ _ h]
  · simp [cellAt_putCell_other _ _ _ _ h]

/-- Reading any address after one byte is written. -/
theorem read_write (m : Dmem) (a b : Nat) (v : Byte) : (m.write a v).read b = if b = a then v else m.read b := by
  split
  · next h => rw [h, read_write_same]
  · next h => exact read_write_other m a b v h

@[simp] theorem writeBytes_powerOn (m : Dmem) (a : Nat) (b : Bytes) : (m.writeBytes a b).powerOn = m.powerOn := by
  induction b generalizing m a with
  | nil => rfl
  | cons x b ih => simp [Dmem.writeBytes, ih]

/-- Reading any address after a string is written (00_scope.md R15). -/
theorem read_writeBytes (m : Dmem) (p : Nat) (b : Bytes) (a : Nat) :
    (m.writeBytes p b).read a = if p ≤ a ∧ a < p + b.length then b.getD (a - p) 0 else m.read a := by
  induction b generalizing m p with
  | nil => simp [Dmem.writeBytes]
  | cons x b ih =>
    rw [Dmem.writeBytes, ih, read_write, List.length_cons]
    by_cases h : a = p
    · subst h; simp
    · by_cases h1 : p + 1 ≤ a ∧ a < p + 1 + b.length
      · have h2 : p ≤ a ∧ a < p + (b.length + 1) := by omega
        have h3 : a - p = (a - (p + 1)) + 1 := by omega
        rw [if_pos h1, if_pos h2, h3, List.getD_cons_succ]
      · have h2 : ¬ (p ≤ a ∧ a < p + (b.length + 1)) := by omega
        rw [if_neg h1, if_neg h2, if_neg h]

@[simp] theorem readBytes_length (m : Dmem) (a n : Nat) : (m.readBytes a n).length = n := by
  induction n generalizing a with
  | zero => rfl
  | succ n ih => simp [Dmem.readBytes, ih]

/-- Byte `i` of a string read from DMEM. -/
theorem readBytes_getD (m : Dmem) (a n i : Nat) (h : i < n) : (m.readBytes a n).getD i 0 = m.read (a + i) := by
  induction n generalizing a i with
  | zero => omega
  | succ n ih =>
    cases i with
    | zero => simp [Dmem.readBytes]
    | succ i =>
      have := ih (a + 1) i (by omega)
      have ha : a + 1 + i = a + (i + 1) := by omega
      simpa [Dmem.readBytes, ha] using this

theorem mem_putCell (cs : List Host.Cell) (a : Nat) (v : Byte) (c : Host.Cell) (h : c ∈ putCell cs a v) :
    c = (a, v) ∨ c ∈ cs := by
  induction cs with
  | nil => simpa [putCell] using h
  | cons d cs ih =>
    simp only [putCell] at h
    split at h
    · simpa using h
    · split at h
      · rcases List.mem_cons.1 h with h | h
        · exact .inl h
        · exact .inr (List.mem_cons_of_mem _ h)
      · rcases List.mem_cons.1 h with h | h
        · exact .inr (by simp [h])
        · rcases ih h with h | h
          · exact .inl h
          · exact .inr (List.mem_cons_of_mem _ h)

theorem putCell_sorted (cs : List Host.Cell) (a : Nat) (v : Byte) (h : cs.Pairwise (fun c d => c.1 < d.1)) :
    (putCell cs a v).Pairwise (fun c d => c.1 < d.1) := by
  induction cs with
  | nil => simp [putCell]
  | cons c cs ih =>
    obtain ⟨hc, hs⟩ := List.pairwise_cons.1 h
    simp only [putCell]
    split
    · next ha =>
      refine List.pairwise_cons.2 ⟨fun d hd => ?_, h⟩
      rcases List.mem_cons.1 hd with rfl | hd
      · exact ha
      · exact Nat.lt_trans ha (hc d hd)
    · split
      · next _ ha => exact List.pairwise_cons.2 ⟨fun d hd => by simpa [ha] using hc d hd, hs⟩
      · refine List.pairwise_cons.2 ⟨fun d hd => ?_, ih hs⟩
        rcases mem_putCell cs a v d hd with rfl | hd
        · show c.1 < a
          omega
        · exact hc d hd

/-- A write inside DMEM keeps the canonical form. -/
theorem write_wf (m : Dmem) (a : Nat) (v : Byte) (h : m.wf) (ha : a < Config.dmemBytes) : (m.write a v).wf := by
  obtain ⟨hs, hm⟩ := h
  unfold Dmem.write
  split
  · refine ⟨hs.filter _, fun c hc => ?_⟩
    exact hm c (List.mem_filter.1 hc).1
  · next hv =>
    refine ⟨putCell_sorted _ _ _ hs, fun c hc => ?_⟩
    rcases mem_putCell _ _ _ _ hc with rfl | hc
    · exact ⟨ha, hv⟩
    · exact hm c hc

/-- Writing a string inside DMEM keeps the canonical form. -/
theorem writeBytes_wf (m : Dmem) (p : Nat) (b : Bytes) (h : m.wf) (hp : p + b.length ≤ Config.dmemBytes) :
    (m.writeBytes p b).wf := by
  induction b generalizing m p with
  | nil => exact h
  | cons x b ih =>
    simp only [List.length_cons] at hp
    exact ih _ _ (write_wf m p x h (by omega)) (by omega)

theorem cellAt_none_of_lt (cs : List Host.Cell) (a : Nat) (h : ∀ c ∈ cs, a < c.1) : cellAt cs a = none := by
  induction cs with
  | nil => rfl
  | cons c cs ih =>
    have hc : c.1 ≠ a := Nat.ne_of_gt (h c (by simp))
    simp [cellAt, hc, ih (fun d hd => h d (List.mem_cons_of_mem _ hd))]

/-- Canonical memories over one power-on image that read alike are equal data. -/
theorem dmem_ext (m k : Dmem) (hm : m.wf) (hk : k.wf) (hp : m.powerOn = k.powerOn)
    (h : ∀ a, m.read a = k.read a) : m = k := by
  obtain ⟨cm, p⟩ := m
  obtain ⟨ck, q⟩ := k
  obtain rfl : p = q := hp
  congr 1
  have key : ∀ (cs ds : List Host.Cell), cs.Pairwise (fun c d => c.1 < d.1) → ds.Pairwise (fun c d => c.1 < d.1) →
      (∀ c ∈ cs, c.2 ≠ p.getD c.1 0) → (∀ c ∈ ds, c.2 ≠ p.getD c.1 0) →
      (∀ a, (cellAt cs a).getD (p.getD a 0) = (cellAt ds a).getD (p.getD a 0)) → cs = ds := by
    intro cs
    induction cs with
    | nil =>
      intro ds _ _ _ hv hr
      cases ds with
      | nil => rfl
      | cons d ds =>
        have := hr d.1
        simp only [cellAt, if_true, Option.getD_none, Option.getD_some] at this
        exact absurd this.symm (hv d (by simp))
    | cons c cs ih =>
      intro ds hs ht hu hv hr
      obtain ⟨hc, hs⟩ := List.pairwise_cons.1 hs
      cases ds with
      | nil =>
        have := hr c.1
        simp only [cellAt, if_true, Option.getD_none, Option.getD_some] at this
        exact absurd this (hu c (by simp))
      | cons d ds =>
        obtain ⟨hd, ht⟩ := List.pairwise_cons.1 ht
        have hcd : c.1 = d.1 := by
          rcases Nat.lt_trichotomy c.1 d.1 with hlt | heq | hlt
          · have h1 := hr c.1
            have h2 : cellAt (d :: ds) c.1 = none := by
              apply cellAt_none_of_lt
              intro e he
              rcases List.mem_cons.1 he with rfl | he
              · exact hlt
              · exact Nat.lt_trans hlt (hd e he)
            rw [h2] at h1
            simp only [cellAt, if_true, Option.getD_none, Option.getD_some] at h1
            exact absurd h1 (hu c (by simp))
          · exact heq
          · have h1 := hr d.1
            have h2 : cellAt (c :: cs) d.1 = none := by
              apply cellAt_none_of_lt
              intro e he
              rcases List.mem_cons.1 he with rfl | he
              · exact hlt
              · exact Nat.lt_trans hlt (hc e he)
            rw [h2] at h1
            simp only [cellAt, if_true, Option.getD_none, Option.getD_some] at h1
            exact absurd h1.symm (hv d (by simp))
        have hval : c.2 = d.2 := by
          have := hr c.1
          simpa [cellAt, hcd] using this
        have htail : cs = ds := by
          refine ih ds hs ht (fun e he => hu e (by simp [he])) (fun e he => hv e (by simp [he])) (fun a => ?_)
          by_cases ha : c.1 = a
          · have h1 : cellAt cs a = none := cellAt_none_of_lt _ _ (fun e he => ha ▸ hc e he)
            have h2 : cellAt ds a = none := cellAt_none_of_lt _ _ (fun e he => ha ▸ hcd ▸ hd e he)
            rw [h1, h2]
          · have := hr a
            simpa [cellAt, ha, hcd ▸ ha] using this
        rw [htail, Prod.ext hcd hval]
  exact key cm ck hm.1 hk.1 (fun c hc => (hm.2 c hc).2) (fun c hc => (hk.2 c hc).2) h

/-- The memory of `State.reset` is canonical. -/
theorem reset_dmem_wf : State.reset.dmem.wf := by decide

end Sys2Proof.Machine
end

