-- ==== Sys2Proof/Laws/Ops.lean ====
section
/-! SUPPORT. For each shared operation, once, everything it can do. -/

namespace Sys2Proof.Machine

@[simp] theorem ok_bind {α β : Type} (a : α) (f : α → Except Halt β) : (Except.ok a >>= f) = f a := rfl

@[simp] theorem error_bind {α β : Type} (e : Halt) (f : α → Except Halt β) :
    ((Except.error e : Except Halt α) >>= f) = .error e := rfl

/-- What a computation that may raise gives after another. -/
theorem bind_ok_iff {α β : Type} (x : Except Halt α) (f : α → Except Halt β) (b : β) :
    (x >>= f) = .ok b ↔ ∃ a, x = .ok a ∧ f a = .ok b := by cases x <;> simp

theorem bind_error_iff {α β : Type} (x : Except Halt α) (f : α → Except Halt β) (e : Halt) :
    (x >>= f) = .error e ↔ x = .error e ∨ ∃ a, x = .ok a ∧ f a = .error e := by cases x <;> simp

@[simp] theorem raise_bind {α β : Type} (c : ErrCode) (l : Layer) (o : Nat) (f : α → Except Halt β) :
    ((raise c l o : Except Halt α) >>= f) = raise c l o := rfl

@[simp] theorem raise_ne_ok {α : Type} (c : ErrCode) (l : Layer) (o : Nat) (a : α) :
    (raise c l o : Except Halt α) ≠ .ok a := by simp [raise]

/-- A command that gives a result completes its state. -/
@[simp] theorem finish_ok (s t : State) (r : Report) : s.finish (.ok (t, r)) = .next (t.complete r) := rfl

/-- A command that raises completes the state it started from. -/
@[simp] theorem finish_raise (s : State) (c : ErrCode) (l : Layer) (o : Nat) :
    s.finish (raise c l o) = .next (s.complete { err := c, layer := l, offset := o }) := rfl

/-- A read inside DMEM. -/
theorem memRead_ok (s : State) (a n : Nat) (h : a + n ≤ 512) : memRead s a n = .ok (s.dmem.readBytes a n) :=
  if_pos h

/-- A write inside DMEM. -/
theorem memWrite_ok (s : State) (a : Nat) (b : Bytes) (h : a + b.length ≤ 512) :
    memWrite s a b = .ok { s with dmem := s.dmem.writeBytes a b } :=
  if_pos h

@[simp] theorem inRange_iff (r : Regions) (x : Region) : r.inRange x = true ↔ r.ptr x + r.len x ≤ 512 := by
  simp [Regions.inRange, Config.dmemBytes]

theorem overlap_iff (r : Regions) (x y : Region) :
    r.overlap x y = true ↔
      r.len x > 0 ∧ r.len y > 0 ∧ r.ptr x < r.ptr y + r.len y ∧ r.ptr y < r.ptr x + r.len x := by
  simp [Regions.overlap, and_assoc]

/-- The range check passes exactly when every region lies in DMEM. -/
theorem rangeCheck_ok_iff (r : Regions) (xs : List Region) :
    rangeCheck r xs = .ok () ↔ ∀ x ∈ xs, r.ptr x + r.len x ≤ 512 := by
  induction xs with
  | nil => simp [rangeCheck]
  | cons x xs ih =>
    by_cases h : r.ptr x + r.len x ≤ 512
    · simp [rangeCheck, h, ih]
    · simp [rangeCheck, h]

/-- The first region outside DMEM is the one reported. -/
theorem rangeCheck_first (r : Regions) (before after : List Region) (x : Region)
    (hb : ∀ y ∈ before, r.ptr y + r.len y ≤ 512) (hx : ¬ r.ptr x + r.len x ≤ 512) :
    rangeCheck r (before ++ x :: after) = raise .range .none x.code := by
  induction before with
  | nil => simp [rangeCheck, hx]
  | cons y ys ih =>
    have hy : r.ptr y + r.len y ≤ 512 := hb y (by simp)
    simpa [rangeCheck, hy] using ih (fun z hz => hb z (by simp [hz]))

/-- The overlap check of a pair. -/
theorem overlapCheck_eq (r : Regions) (x y : Region) :
    overlapCheck r x y = if r.overlap x y = true then raise .overlap .none x.code else .ok () := rfl

theorem keyCheck_eq (s : State) : keyCheck s = if s.keySet = true then .ok () else raise .noKey := rfl

/-- Reading a region that lies in DMEM. -/
theorem regionBytes_ok (s : State) (x : Region) (h : s.regions.ptr x + s.regions.len x ≤ 512) :
    regionBytes s x = .ok (s.dmem.readBytes (s.regions.ptr x) (s.regions.len x)) :=
  memRead_ok s _ _ h

/-- Writing the output of a command whose O region lies in DMEM. -/
theorem putOutput_eq (s : State) (out : Bytes) (h : s.regions.ptr .o + s.regions.len .o ≤ 512) :
    putOutput s out =
      if out.length ≤ s.regions.len .o then
        .ok { s with dmem := s.dmem.writeBytes (s.regions.ptr .o) out, oLen := BitVec.ofNat 16 out.length }
      else raise .overflow := by
  unfold putOutput
  split
  · next hl => rw [memWrite_ok _ _ _ (by omega)]; rfl
  · rfl

/-- Every result of the output operation, whatever the region: the output was short enough and lies in DMEM. -/
theorem putOutput_ok (s t : State) (out : Bytes) (h : putOutput s out = .ok t) :
    out.length ≤ s.regions.len .o ∧ s.regions.ptr .o + out.length ≤ 512 ∧
      t = { s with dmem := s.dmem.writeBytes (s.regions.ptr .o) out, oLen := BitVec.ofNat 16 out.length } := by
  unfold putOutput at h
  split at h
  · next hl =>
    unfold memWrite at h
    split at h
    · next hd => exact ⟨hl, hd, by injection h with h; exact h.symm⟩
    · cases h
  · cases h

/-- The input of a command over I and O: everything its checks can do. -/
theorem inputOfI_eq (s : State) :
    inputOfI s =
      if ¬ s.regions.ptr .i + s.regions.len .i ≤ 512 then raise .range .none 1
      else if ¬ s.regions.ptr .o + s.regions.len .o ≤ 512 then raise .range .none 3
      else if s.regions.overlap .i .o = true then raise .overlap .none 1
      else .ok (s.dmem.readBytes (s.regions.ptr .i) (s.regions.len .i)) := by
  unfold inputOfI
  by_cases hi : s.regions.ptr .i + s.regions.len .i ≤ 512 <;>
  by_cases ho : s.regions.ptr .o + s.regions.len .o ≤ 512 <;>
  by_cases hv : s.regions.overlap .i .o = true <;>
  simp [rangeCheck, overlapCheck_eq, regionBytes_ok, hi, ho, hv, Region.code]

/-- The payload of a command over P and O: everything its checks can do. -/
theorem inputOfP_eq (s : State) :
    inputOfP s =
      if ¬ s.regions.ptr .p + s.regions.len .p ≤ 512 then raise .range .none 2
      else if ¬ s.regions.ptr .o + s.regions.len .o ≤ 512 then raise .range .none 3
      else if s.regions.overlap .p .o = true then raise .overlap .none 2
      else .ok (s.dmem.readBytes (s.regions.ptr .p) (s.regions.len .p)) := by
  unfold inputOfP
  by_cases hi : s.regions.ptr .p + s.regions.len .p ≤ 512 <;>
  by_cases ho : s.regions.ptr .o + s.regions.len .o ≤ 512 <;>
  by_cases hv : s.regions.overlap .p .o = true <;>
  simp [rangeCheck, overlapCheck_eq, regionBytes_ok, hi, ho, hv, Region.code]

end Sys2Proof.Machine
end

