-- ==== Sys2Proof/Laws/Codecs.lean ====
section
/-! SUPPORT. What the codecs can return: bounds on offsets, on payloads and on the write-back. -/

namespace Sys2Proof.Machine

/-- `take(n)` reads its field or reports its offset (41_mac.md R201). -/
theorem takeField_ok (b : Bytes) (p n v q : Nat) (h : takeField b p n = .ok (v, q)) :
    p + n ≤ b.length ∧ v = rdLe (slice b p n) ∧ q = p + n := by
  unfold takeField at h
  split at h
  · cases h
  · next hp =>
    injection h with h
    exact ⟨by omega, (congrArg Prod.fst h).symm, (congrArg Prod.snd h).symm⟩

theorem takeField_error (b : Bytes) (p n off : Nat) (h : takeField b p n = .error off) :
    b.length < p + n ∧ off = p := by
  unfold takeField at h
  split at h
  · next hp => exact ⟨by omega, by injection h with h; exact h.symm⟩
  · cases h

theorem takeIf_ok (c : Bool) (b : Bytes) (p n v q : Nat) (h : takeIf c b p n = .ok (v, q)) :
    (p ≤ b.length → q ≤ b.length) ∧ p ≤ q ∧ q = p + (if c then n else 0) ∧ v = if c then rdLe (slice b p n) else 0 := by
  cases c with
  | false =>
    injection h with h
    have h1 := congrArg Prod.fst h
    have h2 := congrArg Prod.snd h
    simp only at h1 h2
    exact ⟨by omega, by omega, by simp [h2], by simp [h1]⟩
  | true =>
    obtain ⟨h1, h2, h3⟩ := takeField_ok b p n v q h
    exact ⟨by omega, by omega, by simp [h3], by simp [h2]⟩

theorem takeIf_error (c : Bool) (b : Bytes) (p n off : Nat) (h : takeIf c b p n = .error off) :
    c = true ∧ b.length < p + n ∧ off = p := by
  cases c with
  | false => cases h
  | true => exact ⟨rfl, takeField_error b p n off h⟩

/-- A conditional field as one `if`: an absent field has width 0 (41_mac.md R202). -/
theorem takeIf_eq (c : Bool) (b : Bytes) (p n w : Nat) (hn : c = true → n ≠ 0) (hw : w = if c then n else 0) :
    takeIf c b p n =
      if p + w > b.length ∧ w ≠ 0 then .error p else .ok (if c then rdLe (slice b p n) else 0, p + w) := by
  subst hw
  cases c with
  | false => simp [takeIf]
  | true => have := hn rfl; simp [takeIf, takeField, this]

/-- The frame control field is its two bytes, the low one first (20_memory.md R84). -/
theorem fieldAt_16 (b : Bytes) : (fieldAt 16 b 0 : Half) = b.getD 1 0 ++ b.getD 0 0 := by
  match b with
  | [] => rfl
  | [x] => revert x; decide
  | x :: y :: rest =>
    simp only [fieldAt, slice]
    simp [rdLe]
    apply BitVec.eq_of_toNat_eq
    rw [BitVec.toNat_append, ← Nat.shiftLeft_add_eq_or_of_lt x.isLt, Nat.shiftLeft_eq, BitVec.toNat_ofNat]
    omega

/-- The part of a string that stands between two others. -/
theorem slice_append (pre x rest : Bytes) (p n : Nat) (hp : p = pre.length) (hn : n = x.length) :
    slice (pre ++ x ++ rest) p n = x := by
  subst hp hn
  simp [slice]

/-- Reading back a conditional field that was written. -/
theorem takeIf_append (c : Bool) (pre x rest : Bytes) (p n : Nat) (hp : p = pre.length)
    (hx : x.length = if c then n else 0) :
    takeIf c (pre ++ x ++ rest) p n = .ok (if c then rdLe x else 0, p + x.length) := by
  cases c with
  | false => simp at hx; subst hx; simp [takeIf]
  | true =>
    simp at hx
    simp only [takeIf, takeField, if_true]
    rw [slice_append pre x rest p n hp hx.symm, if_neg (by simp; omega), hx]

/-- A value written little-endian in enough bytes is read back. -/
theorem ofNat_rdLe_le {w : Nat} (n : Nat) (v : BitVec w) (h : w ≤ 8 * n) :
    BitVec.ofNat w (rdLe (le n v.toNat)) = v := by
  rw [rdLe_le]
  apply BitVec.eq_of_toNat_eq
  have hv : v.toNat < 256 ^ n := by
    calc v.toNat < 2 ^ w := v.isLt
      _ ≤ 2 ^ (8 * n) := Nat.pow_le_pow_right (by decide) h
      _ = 256 ^ n := by rw [Nat.pow_mul]
  rw [BitVec.toNat_ofNat, Nat.mod_eq_of_lt hv, Nat.mod_eq_of_lt v.isLt]

/-- A field written little-endian between two strings is read back (20_memory.md R84). -/
theorem fieldAt_append {w : Nat} (pre rest : Bytes) (v : BitVec w) (p : Nat) (hp : p = pre.length)
    (hw : w = 8 * (w / 8)) : fieldAt w (pre ++ leOf v ++ rest) p = v := by
  rw [fieldAt, slice_append pre (leOf v) rest p (w / 8) hp (by simp), leOf, ofNat_rdLe_le _ _ (by omega)]

@[simp] theorem decode_ok_bind {α β : Type} (a : α) (f : α → Except Nat β) : (Except.ok a >>= f) = f a := rfl

@[simp] theorem decode_error_bind {α β : Type} (e : Nat) (f : α → Except Nat β) :
    ((Except.error e : Except Nat α) >>= f) = .error e := rfl

/-- A read that succeeds, then the rest. -/
theorem decode_bind_ok {α β : Type} (x : Except Nat α) (f : α → Except Nat β) (y : β) :
    (x >>= f) = .ok y ↔ ∃ a, x = .ok a ∧ f a = .ok y := by cases x <;> simp

/-- The first read that fails. -/
theorem decode_bind_error {α β : Type} (x : Except Nat α) (f : α → Except Nat β) (e : Nat) :
    (x >>= f) = .error e ↔ x = .error e ∨ ∃ a, x = .ok a ∧ f a = .error e := by cases x <;> simp

/-- A decoded MAC frame: its payload is what follows a header of at least 3 bytes (41_mac.md R201). -/
theorem macDecode_ok (b p : Bytes) (f : MacFields) (h : macDecode b = .ok (f, p)) :
    ∃ n, 3 ≤ n ∧ n ≤ b.length ∧ p = b.drop n := by
  simp only [macDecode] at h
  split at h
  · cases h
  split at h
  · cases h
  split at h
  · cases h
  next h3 =>
  simp only [macDecodeFields, decode_bind_ok] at h
  obtain ⟨⟨v1, p1⟩, h1, ⟨v2, p2⟩, h2, ⟨v3, p3⟩, h3, ⟨v4, p4⟩, h4, ⟨v5, p5⟩, h5, h⟩ := h
  have := takeIf_ok _ _ _ _ _ _ h1
  have := takeIf_ok _ _ _ _ _ _ h2
  have := takeIf_ok _ _ _ _ _ _ h3
  have := takeIf_ok _ _ _ _ _ _ h4
  have := takeIf_ok _ _ _ _ _ _ h5
  injection h with h
  exact ⟨p5, by omega, by omega, (congrArg Prod.snd h).symm⟩

/-- The offset a malformed MAC frame reports lies in the frame (60_exceptions.md R332). -/
theorem macDecode_error (b : Bytes) (off : Nat) (h : macDecode b = .error off) : off ≤ b.length := by
  simp only [macDecode] at h
  split at h
  · injection h with h; omega
  split at h
  · injection h with h; omega
  split at h
  · injection h with h; omega
  next h3 =>
  simp only [macDecodeFields, decode_bind_error] at h
  rcases h with h | ⟨⟨v1, p1⟩, h1, h⟩
  · have := takeIf_error _ _ _ _ _ h; omega
  have := takeIf_ok _ _ _ _ _ _ h1
  rcases h with h | ⟨⟨v2, p2⟩, h2, h⟩
  · have := takeIf_error _ _ _ _ _ h; omega
  have := takeIf_ok _ _ _ _ _ _ h2
  rcases h with h | ⟨⟨v3, p3⟩, h3, h⟩
  · have := takeIf_error _ _ _ _ _ h; omega
  have := takeIf_ok _ _ _ _ _ _ h3
  rcases h with h | ⟨⟨v4, p4⟩, h4, h⟩
  · have := takeIf_error _ _ _ _ _ h; omega
  have := takeIf_ok _ _ _ _ _ _ h4
  rcases h with h | ⟨⟨v5, p5⟩, h5, h⟩
  · have := takeIf_error _ _ _ _ _ h; omega
  cases h

/-- A decoded APS frame: its payload is what follows the header (43_aps_zcl.md R270). -/
theorem apsDecode_ok (b p : Bytes) (f : ApsFields) (h : apsDecode b = .ok (f, p)) :
    ∃ n, n ≤ b.length ∧ p = b.drop n := by
  unfold apsDecode at h
  split at h
  · cases h
  simp only [apsDecodeFields, decode_bind_ok] at h
  obtain ⟨⟨v1, p1⟩, h1, ⟨v2, p2⟩, h2, ⟨v3, p3⟩, h3, ⟨v4, p4⟩, h4, ⟨v5, p5⟩, h5, h⟩ := h
  have := takeField_ok _ _ _ _ _ h5
  injection h with h
  exact ⟨p5, by omega, (congrArg Prod.snd h).symm⟩

/-- The offset a malformed APS frame reports lies in the frame (60_exceptions.md R332). -/
theorem apsDecode_error (b : Bytes) (off : Nat) (h : apsDecode b = .error off) : off ≤ b.length := by
  unfold apsDecode at h
  split at h
  · injection h with h; omega
  next h0 =>
  simp only [apsDecodeFields, decode_bind_error] at h
  rcases h with h | ⟨⟨v1, p1⟩, h1, h⟩
  · have := takeField_error _ _ _ _ h; omega
  have := takeField_ok _ _ _ _ _ h1
  rcases h with h | ⟨⟨v2, p2⟩, h2, h⟩
  · have := takeField_error _ _ _ _ h; omega
  have := takeField_ok _ _ _ _ _ h2
  rcases h with h | ⟨⟨v3, p3⟩, h3, h⟩
  · have := takeField_error _ _ _ _ h; omega
  have := takeField_ok _ _ _ _ _ h3
  rcases h with h | ⟨⟨v4, p4⟩, h4, h⟩
  · have := takeField_error _ _ _ _ h; omega
  have := takeField_ok _ _ _ _ _ h4
  rcases h with h | ⟨⟨v5, p5⟩, h5, h⟩
  · have := takeField_error _ _ _ _ h; omega
  cases h

/-- The offset a malformed ZCL frame reports is its length (43_aps_zcl.md R282). -/
theorem zclDecode_error (b : Bytes) (off : Nat) (h : zclDecode b = .error off) : off = b.length ∧ b.length < 3 := by
  unfold zclDecode at h
  split at h
  · next hl => injection h with h; exact ⟨h.symm, hl⟩
  · cases h

/-- A decoded ZCL frame (43_aps_zcl.md R282). -/
theorem zclDecode_ok (b p : Bytes) (f : ZclFields) (h : zclDecode b = .ok (f, p)) : b = f.fc :: f.seq :: f.cmd :: p := by
  unfold zclDecode at h
  split at h
  · cases h
  next hl =>
  injection h with h
  have h1 := congrArg Prod.fst h
  have h2 := congrArg Prod.snd h
  match b, hl with
  | x :: y :: z :: b, _ => simp only at h1 h2; simp [← h1, ← h2]
  | [], hl => simp at hl
  | [_], hl => simp at hl
  | [_, _], hl => simp at hl

/-- Every outcome of the NWK security step (42_nwk.md R231). -/
theorem nwkOpen_cases (enc : Bytes → Bytes) (keyset : Bool) (b : Bytes) (h r : Nat) (f : NwkFields) :
    let o := nwkOpen enc keyset b h r f
    o.wb = some (h, f.secctl) ∧ (o.foff = h ∨ o.foff = 0 ∨ o.foff = b.length - 4) := by
  simp only [nwkOpen]
  split
  · exact ⟨rfl, .inl rfl⟩
  · split
    · split
      · exact ⟨rfl, .inr (.inl rfl)⟩
      · exact ⟨rfl, .inr (.inr rfl)⟩
    · exact ⟨rfl, .inr (.inl rfl)⟩

/-- The write-back of a NWK decode lies in the frame, and so does the failure offset (42_nwk.md R234, R242). -/
theorem nwkDecode_bounds (enc : Bytes → Bytes) (keyset : Bool) (b : Bytes) :
    (∀ off v, (nwkDecode enc keyset b).wb = some (off, v) → off < b.length) ∧
      (nwkDecode enc keyset b).foff ≤ b.length := by
  simp only [nwkDecode]
  split
  · exact ⟨fun _ _ h => (Option.some_ne_none _ h.symm).elim, Nat.zero_le _⟩
  split
  · exact ⟨fun _ _ h => (Option.some_ne_none _ h.symm).elim, Nat.zero_le _⟩
  next h8 hh =>
  split
  · generalize nwkHeaderLen (fieldAt 16 b 0) = n at hh ⊢
    unfold nwkDecodeSecured
    split
    · exact ⟨fun _ _ h => (Option.some_ne_none _ h.symm).elim, by simp only; omega⟩
    next h1 =>
    simp only
    split
    · refine ⟨fun off v h => ?_, by simp only; omega⟩
      have := congrArg Prod.fst (Option.some.inj h)
      simp only at this
      omega
    · have hc := nwkOpen_cases enc keyset (b.set n (patchSec (b.getD n 0))) n
        (n + 1 + 4 + len8 (extNonce (patchSec (b.getD n 0))) + 1)
        (nwkAuxFields (b.set n (patchSec (b.getD n 0))) n { nwkHeader b with secctl := patchSec (b.getD n 0) })
      simp only [List.length_set] at hc
      refine ⟨fun off v h => ?_, by omega⟩
      rw [hc.1] at h
      have := congrArg Prod.fst (Option.some.inj h)
      simp only at this
      omega
  · exact ⟨fun _ _ h => (Option.some_ne_none _ h.symm).elim, Nat.zero_le _⟩

theorem parseZcl_keeps (r : ParseResult) (ap : Bytes) :
    (parseZcl r ap).wb = r.wb ∧ (parseZcl r ap).nonce = r.nonce ∧ (parseZcl r ap).auth = r.auth ∧
      (parseZcl r ap).mac = r.mac ∧ (parseZcl r ap).nwk = r.nwk ∧ (parseZcl r ap).aps = r.aps := by
  unfold parseZcl
  split
  · split <;> simp [ParseResult.failAt]
  · split <;> simp

theorem parseAps_keeps (r : ParseResult) (np : Bytes) :
    (parseAps r np).wb = r.wb ∧ (parseAps r np).nonce = r.nonce ∧ (parseAps r np).auth = r.auth ∧
      (parseAps r np).mac = r.mac ∧ (parseAps r np).nwk = r.nwk := by
  unfold parseAps
  split
  · simp [ParseResult.failAt]
  · next f ap _ => have := parseZcl_keeps { r with aps := f, depth := .aps, out := ap } ap; simp_all

/-- What the NWK part of a parse takes from the NWK decode (44_facade.md R303, R309). -/
theorem parseNwk_keeps (r : ParseResult) (n : NwkResult) (hm : Nat) :
    (parseNwk r n hm).wb = n.wb.map (fun (w : Nat × Byte) => (hm + w.1, w.2)) ∧ (parseNwk r n hm).nonce = n.nonce ∧
      (parseNwk r n hm).auth = n.auth ∧ (parseNwk r n hm).mac = r.mac ∧ (parseNwk r n hm).nwk = n.f := by
  unfold parseNwk
  simp only
  split
  · simp [ParseResult.failAt]
  split
  · simp [ParseResult.failAt]
  split
  · simp
  · exact parseAps_keeps _ _

/-- The write-back of a parse lies in the frame (44_facade.md R309). -/
theorem parseFn_wb (enc : Bytes → Bytes) (keyset : Bool) (b : Bytes) (r : ParseResult)
    (h : parseFn enc keyset b = .ok r) (off : Nat) (v : Byte) (hw : r.wb = some (off, v)) : off < b.length := by
  unfold parseFn at h
  split at h
  · cases h
  next f mp hm =>
  obtain ⟨n, hn, hl, rfl⟩ := macDecode_ok b mp f hm
  split at h
  · injection h with h; subst h; cases hw
  · injection h with h
    subst h
    rw [(parseNwk_keeps _ _ _).1] at hw
    obtain ⟨⟨o, x⟩, ho, he⟩ := Option.map_eq_some_iff.1 hw
    have := (nwkDecode_bounds enc keyset (b.drop n)).1 o x ho
    simp only [Prod.mk.injEq] at he
    simp only [List.length_drop] at this he
    omega

end Sys2Proof.Machine
end

