-- ==== Sys2Proof/Laws/State.lean ====
section
/-! SUPPORT. One lemma per field per named update of the state, so that no proof unfolds a record update. -/

namespace Sys2Proof.Machine

/-! The completion fields (60_exceptions.md R333). -/

@[simp] theorem complete_cur (s : State) (r : Report) : (s.complete r).cur = s.cur := rfl
@[simp] theorem complete_status (s : State) (r : Report) : (s.complete r).status = s.status.completed r := rfl
@[simp] theorem complete_ie (s : State) (r : Report) : (s.complete r).ie = s.ie := rfl
@[simp] theorem complete_errInfo (s : State) (r : Report) : (s.complete r).errInfo = r.errInfo := rfl
@[simp] theorem complete_key (s : State) (r : Report) : (s.complete r).key = s.key := rfl
@[simp] theorem complete_kw (s : State) (r : Report) : (s.complete r).kw = s.kw := rfl
@[simp] theorem complete_nonce (s : State) (r : Report) : (s.complete r).nonce = s.nonce := rfl
@[simp] theorem complete_mic (s : State) (r : Report) : (s.complete r).mic = s.mic := rfl
@[simp] theorem complete_fc (s : State) (r : Report) : (s.complete r).fc = s.fc := rfl
@[simp] theorem complete_seqctr (s : State) (r : Report) : (s.complete r).seqctr = s.seqctr := rfl
@[simp] theorem complete_regions (s : State) (r : Report) : (s.complete r).regions = s.regions := rfl
@[simp] theorem complete_oLen (s : State) (r : Report) : (s.complete r).oLen = s.oLen := rfl
@[simp] theorem complete_mac (s : State) (r : Report) : (s.complete r).mac = s.mac := rfl
@[simp] theorem complete_nwk (s : State) (r : Report) : (s.complete r).nwk = s.nwk := rfl
@[simp] theorem complete_aps (s : State) (r : Report) : (s.complete r).aps = s.aps := rfl
@[simp] theorem complete_zcl (s : State) (r : Report) : (s.complete r).zcl = s.zcl := rfl
@[simp] theorem complete_dmem (s : State) (r : Report) : (s.complete r).dmem = s.dmem := rfl
@[simp] theorem complete_wait (s : State) (r : Report) : (s.complete r).wait = s.wait := rfl
@[simp] theorem complete_latencies (s : State) (r : Report) : (s.complete r).latencies = s.latencies := rfl
@[simp] theorem complete_inbox (s : State) (r : Report) : (s.complete r).inbox = s.inbox := rfl
@[simp] theorem complete_busData (s : State) (r : Report) : (s.complete r).busData = s.busData := rfl
@[simp] theorem complete_draws (s : State) (r : Report) : (s.complete r).draws = s.draws := rfl

/-! A refused access (20_memory.md R87). -/

@[simp] theorem refuseAccess_cur (s : State) : (s.refuseAccess).cur = s.cur := rfl
@[simp] theorem refuseAccess_status (s : State) : (s.refuseAccess).status = { s.status with buserr := true } := rfl
@[simp] theorem refuseAccess_ie (s : State) : (s.refuseAccess).ie = s.ie := rfl
@[simp] theorem refuseAccess_errInfo (s : State) : (s.refuseAccess).errInfo = s.errInfo := rfl
@[simp] theorem refuseAccess_key (s : State) : (s.refuseAccess).key = s.key := rfl
@[simp] theorem refuseAccess_kw (s : State) : (s.refuseAccess).kw = s.kw := rfl
@[simp] theorem refuseAccess_nonce (s : State) : (s.refuseAccess).nonce = s.nonce := rfl
@[simp] theorem refuseAccess_mic (s : State) : (s.refuseAccess).mic = s.mic := rfl
@[simp] theorem refuseAccess_fc (s : State) : (s.refuseAccess).fc = s.fc := rfl
@[simp] theorem refuseAccess_seqctr (s : State) : (s.refuseAccess).seqctr = s.seqctr := rfl
@[simp] theorem refuseAccess_regions (s : State) : (s.refuseAccess).regions = s.regions := rfl
@[simp] theorem refuseAccess_oLen (s : State) : (s.refuseAccess).oLen = s.oLen := rfl
@[simp] theorem refuseAccess_mac (s : State) : (s.refuseAccess).mac = s.mac := rfl
@[simp] theorem refuseAccess_nwk (s : State) : (s.refuseAccess).nwk = s.nwk := rfl
@[simp] theorem refuseAccess_aps (s : State) : (s.refuseAccess).aps = s.aps := rfl
@[simp] theorem refuseAccess_zcl (s : State) : (s.refuseAccess).zcl = s.zcl := rfl
@[simp] theorem refuseAccess_dmem (s : State) : (s.refuseAccess).dmem = s.dmem := rfl
@[simp] theorem refuseAccess_wait (s : State) : (s.refuseAccess).wait = s.wait := rfl
@[simp] theorem refuseAccess_latencies (s : State) : (s.refuseAccess).latencies = s.latencies := rfl
@[simp] theorem refuseAccess_inbox (s : State) : (s.refuseAccess).inbox = s.inbox := rfl
@[simp] theorem refuseAccess_busData (s : State) : (s.refuseAccess).busData = s.busData := rfl
@[simp] theorem refuseAccess_draws (s : State) : (s.refuseAccess).draws = s.draws := rfl

/-! The data of a read. -/

@[simp] theorem answer_cur (s : State) (v : Word) : (s.answer v).cur = s.cur := rfl
@[simp] theorem answer_status (s : State) (v : Word) : (s.answer v).status = s.status := rfl
@[simp] theorem answer_ie (s : State) (v : Word) : (s.answer v).ie = s.ie := rfl
@[simp] theorem answer_errInfo (s : State) (v : Word) : (s.answer v).errInfo = s.errInfo := rfl
@[simp] theorem answer_key (s : State) (v : Word) : (s.answer v).key = s.key := rfl
@[simp] theorem answer_kw (s : State) (v : Word) : (s.answer v).kw = s.kw := rfl
@[simp] theorem answer_nonce (s : State) (v : Word) : (s.answer v).nonce = s.nonce := rfl
@[simp] theorem answer_mic (s : State) (v : Word) : (s.answer v).mic = s.mic := rfl
@[simp] theorem answer_fc (s : State) (v : Word) : (s.answer v).fc = s.fc := rfl
@[simp] theorem answer_seqctr (s : State) (v : Word) : (s.answer v).seqctr = s.seqctr := rfl
@[simp] theorem answer_regions (s : State) (v : Word) : (s.answer v).regions = s.regions := rfl
@[simp] theorem answer_oLen (s : State) (v : Word) : (s.answer v).oLen = s.oLen := rfl
@[simp] theorem answer_mac (s : State) (v : Word) : (s.answer v).mac = s.mac := rfl
@[simp] theorem answer_nwk (s : State) (v : Word) : (s.answer v).nwk = s.nwk := rfl
@[simp] theorem answer_aps (s : State) (v : Word) : (s.answer v).aps = s.aps := rfl
@[simp] theorem answer_zcl (s : State) (v : Word) : (s.answer v).zcl = s.zcl := rfl
@[simp] theorem answer_dmem (s : State) (v : Word) : (s.answer v).dmem = s.dmem := rfl
@[simp] theorem answer_wait (s : State) (v : Word) : (s.answer v).wait = s.wait := rfl
@[simp] theorem answer_latencies (s : State) (v : Word) : (s.answer v).latencies = s.latencies := rfl
@[simp] theorem answer_inbox (s : State) (v : Word) : (s.answer v).inbox = s.inbox := rfl
@[simp] theorem answer_busData (s : State) (v : Word) : (s.answer v).busData = v := rfl
@[simp] theorem answer_draws (s : State) (v : Word) : (s.answer v).draws = s.draws := rfl

/-! A free read while BUSY (20_memory.md R88). -/

@[simp] theorem answerFree_cur (s : State) (width : AccessWidth) : (s.answerFree width).cur = s.cur := rfl
@[simp] theorem answerFree_status (s : State) (width : AccessWidth) : (s.answerFree width).status = s.status := rfl
@[simp] theorem answerFree_ie (s : State) (width : AccessWidth) : (s.answerFree width).ie = s.ie := rfl
@[simp] theorem answerFree_errInfo (s : State) (width : AccessWidth) : (s.answerFree width).errInfo = s.errInfo := rfl
@[simp] theorem answerFree_key (s : State) (width : AccessWidth) : (s.answerFree width).key = s.key := rfl
@[simp] theorem answerFree_kw (s : State) (width : AccessWidth) : (s.answerFree width).kw = s.kw := rfl
@[simp] theorem answerFree_nonce (s : State) (width : AccessWidth) : (s.answerFree width).nonce = s.nonce := rfl
@[simp] theorem answerFree_mic (s : State) (width : AccessWidth) : (s.answerFree width).mic = s.mic := rfl
@[simp] theorem answerFree_fc (s : State) (width : AccessWidth) : (s.answerFree width).fc = s.fc := rfl
@[simp] theorem answerFree_seqctr (s : State) (width : AccessWidth) : (s.answerFree width).seqctr = s.seqctr := rfl
@[simp] theorem answerFree_regions (s : State) (width : AccessWidth) : (s.answerFree width).regions = s.regions := rfl
@[simp] theorem answerFree_oLen (s : State) (width : AccessWidth) : (s.answerFree width).oLen = s.oLen := rfl
@[simp] theorem answerFree_mac (s : State) (width : AccessWidth) : (s.answerFree width).mac = s.mac := rfl
@[simp] theorem answerFree_nwk (s : State) (width : AccessWidth) : (s.answerFree width).nwk = s.nwk := rfl
@[simp] theorem answerFree_aps (s : State) (width : AccessWidth) : (s.answerFree width).aps = s.aps := rfl
@[simp] theorem answerFree_zcl (s : State) (width : AccessWidth) : (s.answerFree width).zcl = s.zcl := rfl
@[simp] theorem answerFree_dmem (s : State) (width : AccessWidth) : (s.answerFree width).dmem = s.dmem := rfl
@[simp] theorem answerFree_wait (s : State) (width : AccessWidth) : (s.answerFree width).wait = s.wait := rfl
@[simp] theorem answerFree_latencies (s : State) (width : AccessWidth) : (s.answerFree width).latencies = s.latencies := rfl
@[simp] theorem answerFree_inbox (s : State) (width : AccessWidth) : (s.answerFree width).inbox = s.inbox := rfl
@[simp] theorem answerFree_busData (s : State) (width : AccessWidth) : (s.answerFree width).busData = width.cut (Config.busyRead s.draws) := rfl
@[simp] theorem answerFree_draws (s : State) (width : AccessWidth) : (s.answerFree width).draws = s.draws + 1 := rfl

/-! The registers after a soft reset (70_reset_and_hazards.md R362). -/

@[simp] theorem clearSoft_cur (s : State) (ie : Bool) : (clearSoft s ie).cur = State.reset.cur := rfl
@[simp] theorem clearSoft_status (s : State) (ie : Bool) : (clearSoft s ie).status = State.reset.status := rfl
@[simp] theorem clearSoft_ie (s : State) (ie : Bool) : (clearSoft s ie).ie = ie := rfl
@[simp] theorem clearSoft_errInfo (s : State) (ie : Bool) : (clearSoft s ie).errInfo = State.reset.errInfo := rfl
@[simp] theorem clearSoft_key (s : State) (ie : Bool) : (clearSoft s ie).key = s.key := rfl
@[simp] theorem clearSoft_kw (s : State) (ie : Bool) : (clearSoft s ie).kw = s.kw := rfl
@[simp] theorem clearSoft_nonce (s : State) (ie : Bool) : (clearSoft s ie).nonce = State.reset.nonce := rfl
@[simp] theorem clearSoft_mic (s : State) (ie : Bool) : (clearSoft s ie).mic = State.reset.mic := rfl
@[simp] theorem clearSoft_fc (s : State) (ie : Bool) : (clearSoft s ie).fc = s.fc := rfl
@[simp] theorem clearSoft_seqctr (s : State) (ie : Bool) : (clearSoft s ie).seqctr = State.reset.seqctr := rfl
@[simp] theorem clearSoft_regions (s : State) (ie : Bool) : (clearSoft s ie).regions = State.reset.regions := rfl
@[simp] theorem clearSoft_oLen (s : State) (ie : Bool) : (clearSoft s ie).oLen = State.reset.oLen := rfl
@[simp] theorem clearSoft_mac (s : State) (ie : Bool) : (clearSoft s ie).mac = State.reset.mac := rfl
@[simp] theorem clearSoft_nwk (s : State) (ie : Bool) : (clearSoft s ie).nwk = State.reset.nwk := rfl
@[simp] theorem clearSoft_aps (s : State) (ie : Bool) : (clearSoft s ie).aps = State.reset.aps := rfl
@[simp] theorem clearSoft_zcl (s : State) (ie : Bool) : (clearSoft s ie).zcl = State.reset.zcl := rfl
@[simp] theorem clearSoft_dmem (s : State) (ie : Bool) : (clearSoft s ie).dmem = s.dmem := rfl
@[simp] theorem clearSoft_wait (s : State) (ie : Bool) : (clearSoft s ie).wait = State.reset.wait := rfl
@[simp] theorem clearSoft_latencies (s : State) (ie : Bool) : (clearSoft s ie).latencies = s.latencies := rfl
@[simp] theorem clearSoft_inbox (s : State) (ie : Bool) : (clearSoft s ie).inbox = s.inbox := rfl
@[simp] theorem clearSoft_busData (s : State) (ie : Bool) : (clearSoft s ie).busData = s.busData := rfl
@[simp] theorem clearSoft_draws (s : State) (ie : Bool) : (clearSoft s ie).draws = s.draws := rfl

/-! Hardware reset in the course of a run (70_reset_and_hazards.md R360). -/

@[simp] theorem hardReset_cur (s : State) : (hardReset s).cur = State.reset.cur := rfl
@[simp] theorem hardReset_status (s : State) : (hardReset s).status = State.reset.status := rfl
@[simp] theorem hardReset_ie (s : State) : (hardReset s).ie = State.reset.ie := rfl
@[simp] theorem hardReset_errInfo (s : State) : (hardReset s).errInfo = State.reset.errInfo := rfl
@[simp] theorem hardReset_kw (s : State) : (hardReset s).kw = State.reset.kw := rfl
@[simp] theorem hardReset_nonce (s : State) : (hardReset s).nonce = State.reset.nonce := rfl
@[simp] theorem hardReset_mic (s : State) : (hardReset s).mic = State.reset.mic := rfl
@[simp] theorem hardReset_fc (s : State) : (hardReset s).fc = State.reset.fc := rfl
@[simp] theorem hardReset_seqctr (s : State) : (hardReset s).seqctr = State.reset.seqctr := rfl
@[simp] theorem hardReset_regions (s : State) : (hardReset s).regions = State.reset.regions := rfl
@[simp] theorem hardReset_oLen (s : State) : (hardReset s).oLen = State.reset.oLen := rfl
@[simp] theorem hardReset_mac (s : State) : (hardReset s).mac = State.reset.mac := rfl
@[simp] theorem hardReset_nwk (s : State) : (hardReset s).nwk = State.reset.nwk := rfl
@[simp] theorem hardReset_aps (s : State) : (hardReset s).aps = State.reset.aps := rfl
@[simp] theorem hardReset_zcl (s : State) : (hardReset s).zcl = State.reset.zcl := rfl
@[simp] theorem hardReset_wait (s : State) : (hardReset s).wait = State.reset.wait := rfl
@[simp] theorem hardReset_latencies (s : State) : (hardReset s).latencies = s.latencies := rfl
@[simp] theorem hardReset_inbox (s : State) : (hardReset s).inbox = s.inbox := rfl
@[simp] theorem hardReset_busData (s : State) : (hardReset s).busData = s.busData := rfl
@[simp] theorem hardReset_draws (s : State) : (hardReset s).draws = s.draws + 1 := rfl

/-! An accepted command word. -/

@[simp] theorem withFetchWord_cur (s : State) (nbits w : Nat) : (s.withFetchWord nbits w).cur = BitVec.ofNat 32 (w % 2 ^ nbits) := rfl
@[simp] theorem withFetchWord_status (s : State) (nbits w : Nat) : (s.withFetchWord nbits w).status = { s.status with busy := true } := rfl
@[simp] theorem withFetchWord_ie (s : State) (nbits w : Nat) : (s.withFetchWord nbits w).ie = s.ie := rfl
@[simp] theorem withFetchWord_errInfo (s : State) (nbits w : Nat) : (s.withFetchWord nbits w).errInfo = s.errInfo := rfl
@[simp] theorem withFetchWord_key (s : State) (nbits w : Nat) : (s.withFetchWord nbits w).key = s.key := rfl
@[simp] theorem withFetchWord_kw (s : State) (nbits w : Nat) : (s.withFetchWord nbits w).kw = s.kw := rfl
@[simp] theorem withFetchWord_nonce (s : State) (nbits w : Nat) : (s.withFetchWord nbits w).nonce = s.nonce := rfl
@[simp] theorem withFetchWord_mic (s : State) (nbits w : Nat) : (s.withFetchWord nbits w).mic = s.mic := rfl
@[simp] theorem withFetchWord_fc (s : State) (nbits w : Nat) : (s.withFetchWord nbits w).fc = s.fc := rfl
@[simp] theorem withFetchWord_seqctr (s : State) (nbits w : Nat) : (s.withFetchWord nbits w).seqctr = s.seqctr := rfl
@[simp] theorem withFetchWord_regions (s : State) (nbits w : Nat) : (s.withFetchWord nbits w).regions = s.regions := rfl
@[simp] theorem withFetchWord_oLen (s : State) (nbits w : Nat) : (s.withFetchWord nbits w).oLen = s.oLen := rfl
@[simp] theorem withFetchWord_mac (s : State) (nbits w : Nat) : (s.withFetchWord nbits w).mac = s.mac := rfl
@[simp] theorem withFetchWord_nwk (s : State) (nbits w : Nat) : (s.withFetchWord nbits w).nwk = s.nwk := rfl
@[simp] theorem withFetchWord_aps (s : State) (nbits w : Nat) : (s.withFetchWord nbits w).aps = s.aps := rfl
@[simp] theorem withFetchWord_zcl (s : State) (nbits w : Nat) : (s.withFetchWord nbits w).zcl = s.zcl := rfl
@[simp] theorem withFetchWord_dmem (s : State) (nbits w : Nat) : (s.withFetchWord nbits w).dmem = s.dmem := rfl
@[simp] theorem withFetchWord_wait (s : State) (nbits w : Nat) : (s.withFetchWord nbits w).wait = 0 := rfl
@[simp] theorem withFetchWord_latencies (s : State) (nbits w : Nat) : (s.withFetchWord nbits w).latencies = s.latencies := rfl
@[simp] theorem withFetchWord_inbox (s : State) (nbits w : Nat) : (s.withFetchWord nbits w).inbox = s.inbox := rfl
@[simp] theorem withFetchWord_busData (s : State) (nbits w : Nat) : (s.withFetchWord nbits w).busData = s.busData := rfl
@[simp] theorem withFetchWord_draws (s : State) (nbits w : Nat) : (s.withFetchWord nbits w).draws = s.draws := rfl

/-! The NONCE register after a NWK decode (42_nwk.md R236). -/

@[simp] theorem putNonce_cur (s : State) (n : Option Bytes) : (putNonce s n).cur = s.cur := by cases n <;> rfl
@[simp] theorem putNonce_status (s : State) (n : Option Bytes) : (putNonce s n).status = s.status := by cases n <;> rfl
@[simp] theorem putNonce_ie (s : State) (n : Option Bytes) : (putNonce s n).ie = s.ie := by cases n <;> rfl
@[simp] theorem putNonce_errInfo (s : State) (n : Option Bytes) : (putNonce s n).errInfo = s.errInfo := by cases n <;> rfl
@[simp] theorem putNonce_key (s : State) (n : Option Bytes) : (putNonce s n).key = s.key := by cases n <;> rfl
@[simp] theorem putNonce_kw (s : State) (n : Option Bytes) : (putNonce s n).kw = s.kw := by cases n <;> rfl
@[simp] theorem putNonce_nonce (s : State) (n : Option Bytes) : (putNonce s n).nonce = n.elim s.nonce Words4.ofBytes := by cases n <;> rfl
@[simp] theorem putNonce_mic (s : State) (n : Option Bytes) : (putNonce s n).mic = s.mic := by cases n <;> rfl
@[simp] theorem putNonce_fc (s : State) (n : Option Bytes) : (putNonce s n).fc = s.fc := by cases n <;> rfl
@[simp] theorem putNonce_seqctr (s : State) (n : Option Bytes) : (putNonce s n).seqctr = s.seqctr := by cases n <;> rfl
@[simp] theorem putNonce_regions (s : State) (n : Option Bytes) : (putNonce s n).regions = s.regions := by cases n <;> rfl
@[simp] theorem putNonce_oLen (s : State) (n : Option Bytes) : (putNonce s n).oLen = s.oLen := by cases n <;> rfl
@[simp] theorem putNonce_mac (s : State) (n : Option Bytes) : (putNonce s n).mac = s.mac := by cases n <;> rfl
@[simp] theorem putNonce_nwk (s : State) (n : Option Bytes) : (putNonce s n).nwk = s.nwk := by cases n <;> rfl
@[simp] theorem putNonce_aps (s : State) (n : Option Bytes) : (putNonce s n).aps = s.aps := by cases n <;> rfl
@[simp] theorem putNonce_zcl (s : State) (n : Option Bytes) : (putNonce s n).zcl = s.zcl := by cases n <;> rfl
@[simp] theorem putNonce_dmem (s : State) (n : Option Bytes) : (putNonce s n).dmem = s.dmem := by cases n <;> rfl
@[simp] theorem putNonce_wait (s : State) (n : Option Bytes) : (putNonce s n).wait = s.wait := by cases n <;> rfl
@[simp] theorem putNonce_latencies (s : State) (n : Option Bytes) : (putNonce s n).latencies = s.latencies := by cases n <;> rfl
@[simp] theorem putNonce_inbox (s : State) (n : Option Bytes) : (putNonce s n).inbox = s.inbox := by cases n <;> rfl
@[simp] theorem putNonce_busData (s : State) (n : Option Bytes) : (putNonce s n).busData = s.busData := by cases n <;> rfl
@[simp] theorem putNonce_draws (s : State) (n : Option Bytes) : (putNonce s n).draws = s.draws := by cases n <;> rfl

/-! The registers of a NWK encode (42_nwk.md R248). -/

@[simp] theorem putNwkUpdate_cur (s : State) (u : Option NwkUpdate) : (putNwkUpdate s u).cur = s.cur := by cases u <;> rfl
@[simp] theorem putNwkUpdate_status (s : State) (u : Option NwkUpdate) : (putNwkUpdate s u).status = s.status := by cases u <;> rfl
@[simp] theorem putNwkUpdate_ie (s : State) (u : Option NwkUpdate) : (putNwkUpdate s u).ie = s.ie := by cases u <;> rfl
@[simp] theorem putNwkUpdate_errInfo (s : State) (u : Option NwkUpdate) : (putNwkUpdate s u).errInfo = s.errInfo := by cases u <;> rfl
@[simp] theorem putNwkUpdate_key (s : State) (u : Option NwkUpdate) : (putNwkUpdate s u).key = s.key := by cases u <;> rfl
@[simp] theorem putNwkUpdate_kw (s : State) (u : Option NwkUpdate) : (putNwkUpdate s u).kw = s.kw := by cases u <;> rfl
@[simp] theorem putNwkUpdate_mic (s : State) (u : Option NwkUpdate) : (putNwkUpdate s u).mic = s.mic := by cases u <;> rfl
@[simp] theorem putNwkUpdate_seqctr (s : State) (u : Option NwkUpdate) : (putNwkUpdate s u).seqctr = s.seqctr := by cases u <;> rfl
@[simp] theorem putNwkUpdate_regions (s : State) (u : Option NwkUpdate) : (putNwkUpdate s u).regions = s.regions := by cases u <;> rfl
@[simp] theorem putNwkUpdate_oLen (s : State) (u : Option NwkUpdate) : (putNwkUpdate s u).oLen = s.oLen := by cases u <;> rfl
@[simp] theorem putNwkUpdate_mac (s : State) (u : Option NwkUpdate) : (putNwkUpdate s u).mac = s.mac := by cases u <;> rfl
@[simp] theorem putNwkUpdate_aps (s : State) (u : Option NwkUpdate) : (putNwkUpdate s u).aps = s.aps := by cases u <;> rfl
@[simp] theorem putNwkUpdate_zcl (s : State) (u : Option NwkUpdate) : (putNwkUpdate s u).zcl = s.zcl := by cases u <;> rfl
@[simp] theorem putNwkUpdate_dmem (s : State) (u : Option NwkUpdate) : (putNwkUpdate s u).dmem = s.dmem := by cases u <;> rfl
@[simp] theorem putNwkUpdate_wait (s : State) (u : Option NwkUpdate) : (putNwkUpdate s u).wait = s.wait := by cases u <;> rfl
@[simp] theorem putNwkUpdate_latencies (s : State) (u : Option NwkUpdate) : (putNwkUpdate s u).latencies = s.latencies := by cases u <;> rfl
@[simp] theorem putNwkUpdate_inbox (s : State) (u : Option NwkUpdate) : (putNwkUpdate s u).inbox = s.inbox := by cases u <;> rfl
@[simp] theorem putNwkUpdate_busData (s : State) (u : Option NwkUpdate) : (putNwkUpdate s u).busData = s.busData := by cases u <;> rfl
@[simp] theorem putNwkUpdate_draws (s : State) (u : Option NwkUpdate) : (putNwkUpdate s u).draws = s.draws := by cases u <;> rfl

/-! The registers of a MAC encode (41_mac.md R216). -/

@[simp] theorem putMacEncoded_cur (s : State) (aseq panc : Bool) : (putMacEncoded s aseq panc).cur = s.cur := by cases aseq <;> rfl
@[simp] theorem putMacEncoded_status (s : State) (aseq panc : Bool) : (putMacEncoded s aseq panc).status = s.status := by cases aseq <;> rfl
@[simp] theorem putMacEncoded_ie (s : State) (aseq panc : Bool) : (putMacEncoded s aseq panc).ie = s.ie := by cases aseq <;> rfl
@[simp] theorem putMacEncoded_errInfo (s : State) (aseq panc : Bool) : (putMacEncoded s aseq panc).errInfo = s.errInfo := by cases aseq <;> rfl
@[simp] theorem putMacEncoded_key (s : State) (aseq panc : Bool) : (putMacEncoded s aseq panc).key = s.key := by cases aseq <;> rfl
@[simp] theorem putMacEncoded_kw (s : State) (aseq panc : Bool) : (putMacEncoded s aseq panc).kw = s.kw := by cases aseq <;> rfl
@[simp] theorem putMacEncoded_nonce (s : State) (aseq panc : Bool) : (putMacEncoded s aseq panc).nonce = s.nonce := by cases aseq <;> rfl
@[simp] theorem putMacEncoded_mic (s : State) (aseq panc : Bool) : (putMacEncoded s aseq panc).mic = s.mic := by cases aseq <;> rfl
@[simp] theorem putMacEncoded_fc (s : State) (aseq panc : Bool) : (putMacEncoded s aseq panc).fc = s.fc := by cases aseq <;> rfl
@[simp] theorem putMacEncoded_seqctr (s : State) (aseq panc : Bool) : (putMacEncoded s aseq panc).seqctr = if aseq then s.seqctr + 1 else s.seqctr := by cases aseq <;> rfl
@[simp] theorem putMacEncoded_regions (s : State) (aseq panc : Bool) : (putMacEncoded s aseq panc).regions = s.regions := by cases aseq <;> rfl
@[simp] theorem putMacEncoded_oLen (s : State) (aseq panc : Bool) : (putMacEncoded s aseq panc).oLen = s.oLen := by cases aseq <;> rfl
@[simp] theorem putMacEncoded_nwk (s : State) (aseq panc : Bool) : (putMacEncoded s aseq panc).nwk = s.nwk := by cases aseq <;> rfl
@[simp] theorem putMacEncoded_aps (s : State) (aseq panc : Bool) : (putMacEncoded s aseq panc).aps = s.aps := by cases aseq <;> rfl
@[simp] theorem putMacEncoded_zcl (s : State) (aseq panc : Bool) : (putMacEncoded s aseq panc).zcl = s.zcl := by cases aseq <;> rfl
@[simp] theorem putMacEncoded_dmem (s : State) (aseq panc : Bool) : (putMacEncoded s aseq panc).dmem = s.dmem := by cases aseq <;> rfl
@[simp] theorem putMacEncoded_wait (s : State) (aseq panc : Bool) : (putMacEncoded s aseq panc).wait = s.wait := by cases aseq <;> rfl
@[simp] theorem putMacEncoded_latencies (s : State) (aseq panc : Bool) : (putMacEncoded s aseq panc).latencies = s.latencies := by cases aseq <;> rfl
@[simp] theorem putMacEncoded_inbox (s : State) (aseq panc : Bool) : (putMacEncoded s aseq panc).inbox = s.inbox := by cases aseq <;> rfl
@[simp] theorem putMacEncoded_busData (s : State) (aseq panc : Bool) : (putMacEncoded s aseq panc).busData = s.busData := by cases aseq <;> rfl
@[simp] theorem putMacEncoded_draws (s : State) (aseq panc : Bool) : (putMacEncoded s aseq panc).draws = s.draws := by cases aseq <;> rfl

end Sys2Proof.Machine
end

