-- ==== Sys2Proof/Laws/Commands.lean ====
section
/-! SUPPORT. Every command as its checks and then its core: what it does once they pass, with no access that can leave
DMEM. `exec_eq` says once everything a command can do. -/

namespace Sys2Proof.Machine

/-- The body of a command. -/
def bodyOf (i : Instr) (s : State) : Except Halt (State × Report) :=
  match i with
  | .nop => .ok (s, {})
  | .aesEnc => aesBody s.cipher s
  | .aesDec => aesBody s.decipher s
  | .ccmEnc m => ccmEncBody s.cipher m s
  | .ccmDec v m => ccmDecBody s.cipher v m s
  | .macDec => macDecBody s
  | .macEnc aseq => macEncBody aseq s
  | .nwkDec => nwkDecBody s.cipher s
  | .nwkEnc => nwkEncBody s.cipher s
  | .apsDec => apsDecBody s
  | .apsEnc => apsEncBody s
  | .zclDec => zclDecBody s
  | .zclEnc => zclEncBody s
  | .parse => parseBody s.cipher s
  | .compose l aseq => composeBody s.cipher l aseq s

theorem exec_eq_finish (i : Instr) (s : State) : exec i s = s.finish (bodyOf i s) := by cases i <;> rfl

/-- The parameter check, the range check and the overlap check of a command. -/
def checks (i : Instr) (s : State) : Except Halt Unit :=
  let param : Except Halt Unit :=
    match i with
    | .aesEnc => if s.regions.iLen.toNat ≠ 16 then raise .param .none 1 else .ok ()
    | .aesDec => if s.regions.iLen.toNat ≠ 16 then raise .param .none 1 else .ok ()
    | .ccmEnc m => if m.toNat ≠ 4 then raise .param else .ok ()
    | .ccmDec _ m => if m.toNat ≠ 4 then raise .param else .ok ()
    | _ => .ok ()
  param >>= fun _ => rangeCheck s.regions (regionsOf i) >>= fun _ =>
    match pairOf i with
    | none => .ok ()
    | some (x, y) => overlapCheck s.regions x y

/-- `out` written to O if it fits, else OVERFLOW (30_encoding.md R126). -/
def emit (s : State) (out : Bytes) (r : Report) : Except Halt (State × Report) :=
  if out.length ≤ s.regions.len .o then
    .ok ({ s with dmem := s.dmem.writeBytes (s.regions.ptr .o) out, oLen := BitVec.ofNat 16 out.length }, r)
  else raise .overflow

/-- The write-back byte of a NWK decode put into the I region (42_nwk.md R234). -/
def wroteBack (s : State) (wb : Option (Nat × Byte)) : State :=
  match wb with
  | none => s
  | some (off, v) => { s with dmem := s.dmem.write (s.regions.ptr .i + off) v }

/-- What a command does once its parameter and region checks pass. -/
def coreOf (i : Instr) (s : State) : Except Halt (State × Report) :=
  match i with
  | .nop => .ok (s, {})
  | .aesEnc => if s.keySet then emit s (aesEnc s.key.bytes (s.bytesOf .i)) {} else raise .noKey
  | .aesDec => if s.keySet then emit s (aesDec s.key.bytes (s.bytesOf .i)) {} else raise .noKey
  | .ccmEnc _ =>
    let r := ccmEncrypt s.cipher s.nonce.bytes (s.bytesOf .a) (s.bytesOf .m)
    if s.keySet then
      .ok ({ s with
        dmem := s.dmem.writeBytes (s.regions.ptr .m) r.c, mic := fieldAt 32 r.u 0, nonce := .ofBytes r.nonce }, {})
    else raise .noKey
  | .ccmDec v _ =>
    let r := ccmDecrypt s.cipher s.nonce.bytes (s.bytesOf .a) (s.bytesOf .m) (leOf s.mic) v
    if s.keySet then
      .ok ({ s with dmem := s.dmem.writeBytes (s.regions.ptr .m) r.m, nonce := .ofBytes r.nonce }, { auth := r.auth })
    else raise .noKey
  | .macDec =>
    match macDecode (s.bytesOf .i) with
    | .error off => raise .malformed .mac off
    | .ok (f, p) => emit { s with mac := f } p {}
  | .macEnc aseq =>
    match macEncode (macOperand s aseq) (s.bytesOf .p) with
    | none => raise .addressing .mac
    | some (b, panc) => emit (putMacEncoded s aseq panc) b {}
  | .nwkDec =>
    let r := nwkDecode s.cipher s.keySet (s.bytesOf .i)
    emit (wroteBack (putNonce { s with nwk := r.f } r.nonce) r.wb) r.p { auth := r.auth }
  | .nwkEnc =>
    match nwkEncode s.cipher s.nwk (s.bytesOf .p) s.keySet s.fc with
    | .error e => e.raised
    | .ok (b, u) => emit (putNwkUpdate s u) b {}
  | .apsDec =>
    match apsDecode (s.bytesOf .i) with
    | .error off => raise .malformed .aps off
    | .ok (f, p) => emit { s with aps := f } p {}
  | .apsEnc => emit s (apsEncode s.aps (s.bytesOf .p)) {}
  | .zclDec =>
    match zclDecode (s.bytesOf .i) with
    | .error off => raise .malformed .zcl off
    | .ok (f, p) => emit { s with zcl := f } p {}
  | .zclEnc => emit s (zclEncode s.zcl (s.bytesOf .p)) {}
  | .parse =>
    match parseFn s.cipher s.keySet (s.bytesOf .i) with
    | .error off => raise .malformed .mac off
    | .ok r => emit (wroteBack (putParsed s r) r.wb) r.out r.report
  | .compose l aseq =>
    composeCheck s l >>= fun _ =>
      emit (putComposed s l aseq (composeNwk s.cipher s l (s.bytesOf .p)).2)
        (composeFrame s.cipher s l aseq (s.bytesOf .p)) {}

/-- The range and overlap checks of a pair of regions. -/
def pairChecks (s : State) (x y : Region) : Except Halt Unit :=
  rangeCheck s.regions [x, y] >>= fun _ => overlapCheck s.regions x y

/-- A pair that passes lies in DMEM. -/
theorem pairChecks_ok (s : State) (x y : Region) (h : pairChecks s x y = .ok ()) :
    s.regions.ptr x + s.regions.len x ≤ 512 ∧ s.regions.ptr y + s.regions.len y ≤ 512 := by
  obtain ⟨_, h, _⟩ := (bind_ok_iff _ _ _).1 h
  have := (rangeCheck_ok_iff _ _).1 h
  exact ⟨this x (by simp), this y (by simp)⟩

theorem inputOfI_split (s : State) : inputOfI s = pairChecks s .i .o >>= fun _ => .ok (s.bytesOf .i) := by
  by_cases hc : pairChecks s .i .o = .ok ()
  · have h := pairChecks_ok s .i .o hc
    rw [hc]
    unfold pairChecks at hc
    obtain ⟨_, h1, h2⟩ := (bind_ok_iff _ _ _).1 hc
    simp [inputOfI, h1, h2, regionBytes_ok s .i h.1, State.bytesOf]
  · unfold inputOfI pairChecks
    unfold pairChecks at hc
    cases h1 : rangeCheck s.regions [.i, .o] with
    | error e => rfl
    | ok _ =>
      cases h2 : overlapCheck s.regions .i .o with
      | error e => simp
      | ok _ => simp [h1, h2] at hc

theorem inputOfP_split (s : State) : inputOfP s = pairChecks s .p .o >>= fun _ => .ok (s.bytesOf .p) := by
  by_cases hc : pairChecks s .p .o = .ok ()
  · have h := pairChecks_ok s .p .o hc
    rw [hc]
    unfold pairChecks at hc
    obtain ⟨_, h1, h2⟩ := (bind_ok_iff _ _ _).1 hc
    simp [inputOfP, h1, h2, regionBytes_ok s .p h.1, State.bytesOf]
  · unfold inputOfP pairChecks
    unfold pairChecks at hc
    cases h1 : rangeCheck s.regions [.p, .o] with
    | error e => rfl
    | ok _ =>
      cases h2 : overlapCheck s.regions .p .o with
      | error e => simp
      | ok _ => simp [h1, h2] at hc

/-- Two computations after the same checks agree when they agree once the checks pass. -/
theorem after_checks {α : Type} (c : Except Halt Unit) (f g : Except Halt α) (h : c = .ok () → f = g) :
    (c >>= fun _ => f) = c >>= fun _ => g := by
  cases c with
  | error e => rfl
  | ok u => exact h rfl

theorem putOutput_emit (s : State) (out : Bytes) (r : Report) (h : s.regions.ptr .o + s.regions.len .o ≤ 512) :
    (putOutput s out >>= fun t => Except.ok (t, r)) = emit s out r := by
  rw [putOutput_eq s out h, emit]
  split <;> rfl

theorem putWriteBack_eq (s : State) (wb : Option (Nat × Byte))
    (h : ∀ off v, wb = some (off, v) → s.regions.ptr .i + off < 512) : putWriteBack s wb = .ok (wroteBack s wb) := by
  cases wb with
  | none => rfl
  | some w =>
    have := h w.1 w.2 rfl
    simp only [putWriteBack]
    rw [memWrite_ok _ _ _ (by simp; omega)]
    rfl

@[simp] theorem bytesOf_length (s : State) (x : Region) : (s.bytesOf x).length = s.regions.len x := by
  simp [State.bytesOf]

@[simp] theorem wroteBack_regions (s : State) (wb : Option (Nat × Byte)) : (wroteBack s wb).regions = s.regions := by
  cases wb <;> rfl

@[simp] theorem putParsed_regions (s : State) (r : ParseResult) : (putParsed s r).regions = s.regions := by
  simp [putParsed]

@[simp] theorem putComposed_regions (s : State) (l : LayerSet) (aseq : Bool) (u : Option NwkUpdate) :
    (putComposed s l aseq u).regions = s.regions := by
  unfold putComposed
  simp only
  split <;> simp

theorem bind_assoc' {α β γ : Type} (x : Except Halt α) (f : α → Except Halt β) (g : β → Except Halt γ) :
    (x >>= f) >>= g = x >>= fun a => f a >>= g := by cases x <;> rfl

theorem aesBody_eq (f : Bytes → Bytes) (s : State) (hf : ∀ b, (f b).length = 16) :
    aesBody f s =
      ((if s.regions.iLen.toNat ≠ 16 then raise .param .none 1 else .ok ()) >>= fun _ => pairChecks s .i .o) >>= fun _ =>
        if s.keySet then emit s (f (s.bytesOf .i)) {} else raise .noKey := by
  unfold aesBody aesInput
  by_cases h16 : s.regions.iLen.toNat ≠ 16
  · simp [h16]
  · simp only [h16, if_false, ok_bind, bind_assoc']
    unfold pairChecks
    rw [bind_assoc']
    cases h1 : rangeCheck s.regions [.i, .o] with
    | error e => rfl
    | ok u =>
      have hr := (rangeCheck_ok_iff _ _).1 h1
      simp only [ok_bind]
      refine after_checks _ _ _ fun _ => ?_
      rw [keyCheck_eq]
      by_cases hk : s.keySet = true
      · simp only [hk, if_true, ok_bind]
        by_cases hc : s.regions.len .o < 16
        · have : ¬ 16 ≤ s.regions.len .o := by omega
          simp [hc, emit, hf, this]
        · simp only [hc, if_false, ok_bind, regionBytes_ok s .i (hr .i (by simp))]
          exact putOutput_emit s _ _ (hr .o (by simp))
      · simp [hk]

theorem ccmInput_eq (s : State) (m : BitVec 4) :
    ccmInput s m =
      ((if m.toNat ≠ 4 then raise .param else .ok ()) >>= fun _ => pairChecks s .a .m) >>= fun _ =>
        if s.keySet then .ok (s.bytesOf .a, s.bytesOf .m) else raise .noKey := by
  unfold ccmInput
  simp only [Config.micBytes]
  by_cases h4 : m.toNat ≠ 4
  · simp [h4]
  · simp only [h4, if_false, ok_bind]
    unfold pairChecks
    rw [bind_assoc']
    cases h1 : rangeCheck s.regions [.a, .m] with
    | error e => rfl
    | ok u =>
      have hr := (rangeCheck_ok_iff _ _).1 h1
      simp only [ok_bind]
      refine after_checks _ _ _ fun _ => ?_
      rw [keyCheck_eq]
      by_cases hk : s.keySet = true
      · simp [hk, regionBytes_ok s .a (hr .a (by simp)), regionBytes_ok s .m (hr .m (by simp)), State.bytesOf]
      · simp [hk]

/-- Everything the body of a command can do: its checks, then its core. -/
theorem body_eq (i : Instr) (s : State) : bodyOf i s = checks i s >>= fun _ => coreOf i s := by
  have onI : ∀ (f : Bytes → Except Halt (State × Report)) (c : Except Halt (State × Report)),
      (s.regions.ptr .i + s.regions.len .i ≤ 512 → s.regions.ptr .o + s.regions.len .o ≤ 512 →
        f (s.bytesOf .i) = c) →
      (inputOfI s >>= f) = pairChecks s .i .o >>= fun _ => c := by
    intro f c h
    rw [inputOfI_split, bind_assoc']
    exact after_checks _ _ _ fun hc => h (pairChecks_ok _ _ _ hc).1 (pairChecks_ok _ _ _ hc).2
  have onP : ∀ (f : Bytes → Except Halt (State × Report)) (c : Except Halt (State × Report)),
      (s.regions.ptr .o + s.regions.len .o ≤ 512 → f (s.bytesOf .p) = c) →
      (inputOfP s >>= f) = pairChecks s .p .o >>= fun _ => c := by
    intro f c h
    rw [inputOfP_split, bind_assoc']
    exact after_checks _ _ _ fun hc => h (pairChecks_ok _ _ _ hc).2
  cases i with
  | nop => rfl
  | aesEnc => exact aesBody_eq _ s (fun b => aesEnc_length _ b)
  | aesDec => exact aesBody_eq _ s (fun b => aesDec_length _ b)
  | ccmEnc m =>
    show (ccmInput s m >>= _) = _
    rw [ccmInput_eq, bind_assoc']
    show (((_ >>= fun _ => pairChecks s .a .m) >>= _) = ((_ >>= fun _ => pairChecks s .a .m) >>= _))
    refine after_checks _ _ _ fun hc => ?_
    obtain ⟨_, _, hc⟩ := (bind_ok_iff _ _ _).1 hc
    have hm := (pairChecks_ok _ _ _ hc).2
    by_cases hk : s.keySet = true
    · simp only [hk, if_true, ok_bind, coreOf]
      rw [memWrite_ok _ _ _ (by simpa [ccmEncrypt, ctr_length] using hm)]
      rfl
    · simp [hk, coreOf]
  | ccmDec v m =>
    show (ccmInput s m >>= _) = _
    rw [ccmInput_eq, bind_assoc']
    show (((_ >>= fun _ => pairChecks s .a .m) >>= _) = ((_ >>= fun _ => pairChecks s .a .m) >>= _))
    refine after_checks _ _ _ fun hc => ?_
    obtain ⟨_, _, hc⟩ := (bind_ok_iff _ _ _).1 hc
    have hm := (pairChecks_ok _ _ _ hc).2
    by_cases hk : s.keySet = true
    · simp only [hk, if_true, ok_bind, coreOf]
      rw [memWrite_ok _ _ _ (by simpa [ccmDecrypt, ctr_length] using hm)]
      rfl
    · simp [hk, coreOf]
  | macDec =>
    refine onI _ _ fun _ ho => ?_
    cases hm : macDecode (s.bytesOf .i) with
    | error off => simp [coreOf, hm]
    | ok r => simpa [coreOf, hm] using putOutput_emit { s with mac := r.1 } _ _ ho
  | macEnc aseq =>
    refine onP _ _ fun ho => ?_
    cases hm : macEncode (macOperand s aseq) (s.bytesOf .p) with
    | none => simp [coreOf, hm]
    | some r => simpa [coreOf, hm] using putOutput_emit (putMacEncoded s aseq r.2) _ _ (by simpa using ho)
  | nwkDec =>
    refine onI _ _ fun hi ho => ?_
    have hb := (nwkDecode_bounds s.cipher s.keySet (s.bytesOf .i)).1
    simp only [coreOf]
    rw [putWriteBack_eq _ _ (by
      intro off v h
      have := hb off v h
      simp only [bytesOf_length] at this
      simp only [putNonce_regions]
      omega)]
    exact putOutput_emit _ _ _ (by simpa using ho)
  | nwkEnc =>
    refine onP _ _ fun ho => ?_
    cases hm : nwkEncode s.cipher s.nwk (s.bytesOf .p) s.keySet s.fc with
    | error e => cases e <;> simp [coreOf, hm, NwkEncError.raised]
    | ok r => simpa [coreOf, hm] using putOutput_emit (putNwkUpdate s r.2) _ _ (by simpa using ho)
  | apsDec =>
    refine onI _ _ fun _ ho => ?_
    cases hm : apsDecode (s.bytesOf .i) with
    | error off => simp [coreOf, hm]
    | ok r => simpa [coreOf, hm] using putOutput_emit { s with aps := r.1 } _ _ ho
  | apsEnc => exact onP _ _ fun ho => putOutput_emit _ _ _ ho
  | zclDec =>
    refine onI _ _ fun _ ho => ?_
    cases hm : zclDecode (s.bytesOf .i) with
    | error off => simp [coreOf, hm]
    | ok r => simpa [coreOf, hm] using putOutput_emit { s with zcl := r.1 } _ _ ho
  | zclEnc => exact onP _ _ fun ho => putOutput_emit _ _ _ ho
  | parse =>
    refine onI _ _ fun hi ho => ?_
    cases hm : parseFn s.cipher s.keySet (s.bytesOf .i) with
    | error off => simp [coreOf, hm]
    | ok r =>
      simp only [coreOf, hm]
      rw [putWriteBack_eq _ _ (by
        intro off v h
        have := parseFn_wb _ _ _ _ hm off v h
        simp only [bytesOf_length] at this
        simp only [putParsed_regions]
        omega)]
      exact putOutput_emit _ _ _ (by simpa using ho)
  | compose l aseq =>
    refine onP _ _ fun ho => ?_
    simp only [coreOf]
    exact after_checks _ _ _ fun _ => putOutput_emit _ _ _ (by simpa using ho)

/-- The parameter check (60_exceptions.md R330, PARAM). -/
def paramCheck (i : Instr) (s : State) : Except Halt Unit :=
  match i with
  | .aesEnc => if s.regions.iLen.toNat ≠ 16 then raise .param .none 1 else .ok ()
  | .aesDec => if s.regions.iLen.toNat ≠ 16 then raise .param .none 1 else .ok ()
  | .ccmEnc m => if m.toNat ≠ 4 then raise .param else .ok ()
  | .ccmDec _ m => if m.toNat ≠ 4 then raise .param else .ok ()
  | _ => .ok ()

theorem paramCheck_eq (i : Instr) (s : State) :
    (s.paramOk i → paramCheck i s = .ok ()) ∧
      (¬ s.paramOk i → paramCheck i s = raise .param .none (if i = .aesEnc ∨ i = .aesDec then 1 else 0)) := by
  have h16 : ∀ v : Half, v = 16 ↔ v.toNat = 16 := fun v =>
    ⟨fun h => by rw [h]; rfl, fun h => BitVec.eq_of_toNat_eq h⟩
  have h4 : ∀ v : BitVec 4, v = 4 ↔ v.toNat = 4 := fun v =>
    ⟨fun h => by rw [h]; rfl, fun h => BitVec.eq_of_toNat_eq h⟩
  cases i <;> simp only [paramCheck, State.paramOk, h16, h4] <;> simp +contextual

/-- The overlap check of a command's pair. -/
def overlapOf (i : Instr) (s : State) : Except Halt Unit :=
  match pairOf i with
  | none => .ok ()
  | some (x, y) => overlapCheck s.regions x y

theorem checks_eq (i : Instr) (s : State) :
    checks i s = paramCheck i s >>= fun _ => rangeCheck s.regions (regionsOf i) >>= fun _ => overlapOf i s := by
  cases i <;> rfl

theorem overlapOf_ok_iff (i : Instr) (s : State) : overlapOf i s = .ok () ↔ s.pairOk i := by
  unfold overlapOf State.pairOk
  cases pairOf i with
  | none => simp
  | some p =>
    obtain ⟨x, y⟩ := p
    simp only
    rw [overlapCheck_eq]
    have := overlap_iff s.regions x y
    unfold State.overlapping
    by_cases h : s.regions.overlap x y = true <;> simp_all

/-- The checks pass exactly when the command is ready. -/
theorem checks_ok_iff (i : Instr) (s : State) : checks i s = .ok () ↔ s.Ready i := by
  rw [checks_eq]
  by_cases hp : s.paramOk i
  · rw [(paramCheck_eq i s).1 hp]
    simp only [ok_bind, bind_ok_iff, overlapOf_ok_iff]
    exact ⟨fun ⟨_, hr, ha⟩ => ⟨hp, (rangeCheck_ok_iff _ _).1 hr, ha⟩,
      fun h => ⟨(), (rangeCheck_ok_iff _ _).2 h.range, h.apart⟩⟩
  · rw [(paramCheck_eq i s).2 hp]
    constructor
    · intro h; simp at h
    · intro h; exact absurd h.param hp

/-- A check that fails raises PARAM, RANGE or OVERLAP with an operand code. -/
theorem checks_error (i : Instr) (s : State) (h : checks i s ≠ .ok ()) :
    ∃ c o, checks i s = raise c .none o ∧ o ≤ 5 ∧ (c = .param ∨ c = .range ∨ c = .overlap) := by
  rw [checks_eq] at h ⊢
  by_cases hp : s.paramOk i
  · rw [(paramCheck_eq i s).1 hp] at h ⊢
    have hr : ∀ xs, rangeCheck s.regions xs = .ok () ∨
        ∃ x : Region, rangeCheck s.regions xs = raise .range .none x.code := by
      intro xs
      induction xs with
      | nil => exact .inl rfl
      | cons x xs ih =>
        unfold rangeCheck
        split
        · exact ih
        · exact .inr ⟨x, rfl⟩
    have hc : ∀ x : Region, x.code ≤ 5 := by intro x; cases x <;> decide
    rcases hr (regionsOf i) with hr | ⟨x, hr⟩
    · rw [hr] at h ⊢
      simp only [ok_bind] at h ⊢
      unfold overlapOf at h ⊢
      split at h
      · exact absurd rfl h
      · next x y hxy =>
        rw [overlapCheck_eq] at h ⊢
        split at h
        · next ho => exact ⟨.overlap, x.code, by simp [ho], hc x, by simp⟩
        · exact absurd rfl h
    · rw [hr]
      exact ⟨.range, x.code, rfl, hc x, by simp⟩
  · rw [(paramCheck_eq i s).2 hp]
    exact ⟨.param, _, rfl, by split <;> omega, by simp⟩

/-- Everything a command can do. -/
theorem exec_eq (i : Instr) (s : State) : exec i s = s.finish (checks i s >>= fun _ => coreOf i s) := by
  rw [exec_eq_finish, body_eq]

/-- A ready command does its core. -/
theorem exec_ready (i : Instr) (s : State) (h : s.Ready i) : exec i s = s.finish (coreOf i s) := by
  rw [exec_eq, (checks_ok_iff i s).2 h, ok_bind]

/-- An output that fits completes the command with DMEM and O_LEN written. -/
theorem finish_emit (s t : State) (out : Bytes) (r : Report) (h : out.length ≤ t.regions.len .o) :
    s.finish (emit t out r) =
      .next (State.complete
        { t with dmem := t.dmem.writeBytes (t.regions.ptr .o) out, oLen := BitVec.ofNat 16 out.length } r) := by
  rw [emit, if_pos h]; rfl

/-- An output that does not fit raises OVERFLOW. -/
theorem finish_emit_overflow (s t : State) (out : Bytes) (r : Report) (h : ¬ out.length ≤ t.regions.len .o) :
    s.finish (emit t out r) = .next (s.complete { err := .overflow }) := by
  rw [emit, if_neg h]; rfl

/-- An error completion is `raised` (60_exceptions.md R333, R334). -/
theorem complete_error (s : State) (c : ErrCode) (l : Layer) (o : Nat) :
    s.complete { err := c, layer := l, offset := o } = s.raised c l o := rfl

/-- A completion that names AUTH alone is `succeeded` (60_exceptions.md R333). -/
theorem complete_auth (s : State) (a : Auth) : s.complete { auth := a } = s.succeeded a := rfl

/-- The nonce-source check of a secured encode (42_nwk.md R240, R244). -/
theorem nwkNoSource_iff (s : State) (h : s.nwk.fc.getLsbD 9 = true) :
    nwkNoSource s.nwk = true ↔ ¬ s.hasNonceSource := by
  simp only [nwkNoSource, nwkSec, h, extNonce, nwkExtSrcP, State.hasNonceSource]
  cases s.nwk.secctl.getLsbD 5 <;> cases s.nwk.fc.getLsbD 12 <;> simp

/-- The reserved-mode check of a MAC encode (41_mac.md R211). -/
theorem macBadModes_iff (f : MacFields) : macBadModes f = true ↔ f.reservedMode := by
  have h : ∀ v : BitVec 2, v.toNat = 1 ↔ v = 1 := by decide
  unfold macBadModes macDmode macSmode MacFields.reservedMode
  rw [Bool.or_eq_true, decide_eq_true_iff, decide_eq_true_iff, h, h]

/-- COMPOSE's checks pass exactly when the state is composable. -/
theorem composeCheck_ok_iff (s : State) (l : LayerSet) : composeCheck s l = .ok () ↔ s.Composable l := by
  have hs : nwkSec s.nwk.fc = s.nwk.fc.getLsbD 9 := rfl
  have hn := nwkNoSource_iff s
  have hm := macBadModes_iff s.mac
  have hx : nwkNoSource s.nwk = true → s.nwk.fc.getLsbD 9 = true := by
    intro h
    simp only [nwkNoSource, hs, Bool.and_eq_true] at h
    exact h.1.1
  constructor
  · intro h
    unfold composeCheck at h
    split at h
    · simp at h
    next h1 =>
    split at h
    · simp at h
    next h2 =>
    split at h
    · simp at h
    next h3 =>
    split at h
    · simp at h
    next h4 =>
    simp only [Bool.and_eq_true, not_and, Bool.not_eq_true] at h1 h2 h3 h4
    refine ⟨fun a b => ?_, fun a b => ?_, fun a b => ?_, fun a b c => ?_⟩
    · have := h1 a
      simp only [nwkNoKey, hs, b] at this
      simpa using this
    · by_contra hc
      exact absurd ((hn b).2 hc) (by simp [h2 a])
    · exact absurd (hm.2 b) (by simp [h3 a])
    · have := h4 a
      simp only [nwkExhausted, hs, b, c] at this
      simp at this
  · intro h
    have e1 : (l.nwk && nwkNoKey s.nwk s.keySet) = false := by
      cases hl : l.nwk
      · rfl
      cases h9 : s.nwk.fc.getLsbD 9
      · simp only [nwkNoKey, hs, h9]; rfl
      · simp only [nwkNoKey, h.key hl h9]; simp
    have e2 : (l.nwk && nwkNoSource s.nwk) = false := by
      cases hl : l.nwk
      · rfl
      cases hq : nwkNoSource s.nwk
      · rfl
      · exact absurd (h.source hl (hx hq)) ((hn (hx hq)).1 hq)
    have e3 : (l.mac && macBadModes s.mac) = false := by
      cases hl : l.mac
      · rfl
      cases hq : macBadModes s.mac
      · rfl
      · exact absurd (hm.1 hq) (h.modes hl)
    have e4 : (l.nwk && nwkExhausted s.nwk s.fc) = false := by
      cases hl : l.nwk
      · rfl
      cases h9 : s.nwk.fc.getLsbD 9
      · simp only [nwkExhausted, hs, h9]; rfl
      · have := h.counter hl h9
        simp only [nwkExhausted, hs, h9, this]; rfl
    simp [composeCheck, e1, e2, e3, e4]

/-- `t` is `u` with an output written that fits its O region. -/
def emitted (u : State) (out : Bytes) (t : State) : Prop :=
  out.length ≤ u.regions.len .o ∧
    t = { u with dmem := u.dmem.writeBytes (u.regions.ptr .o) out, oLen := BitVec.ofNat 16 out.length }

theorem emit_ok (u t : State) (out : Bytes) (r q : Report) (h : emit u out r = .ok (t, q)) :
    emitted u out t ∧ q = r := by
  unfold emit at h
  split at h
  · next hl => injection h with h; exact ⟨⟨hl, (congrArg Prod.fst h).symm⟩, (congrArg Prod.snd h).symm⟩
  · simp at h

/-- What the success of a command's core leaves, command by command. -/
def didCore (i : Instr) (s t : State) (r : Report) : Prop :=
  match i with
  | .nop => t = s ∧ r = {}
  | .aesEnc => s.keySet = true ∧ emitted s (aesEnc s.key.bytes (s.bytesOf .i)) t ∧ r = {}
  | .aesDec => s.keySet = true ∧ emitted s (aesDec s.key.bytes (s.bytesOf .i)) t ∧ r = {}
  | .ccmEnc _ =>
    let o := ccmEncrypt s.cipher s.nonce.bytes (s.bytesOf .a) (s.bytesOf .m)
    s.keySet = true ∧ r = {} ∧
      t = { s with
        dmem := s.dmem.writeBytes (s.regions.ptr .m) o.c, mic := fieldAt 32 o.u 0, nonce := .ofBytes o.nonce }
  | .ccmDec v _ =>
    let o := ccmDecrypt s.cipher s.nonce.bytes (s.bytesOf .a) (s.bytesOf .m) (leOf s.mic) v
    s.keySet = true ∧ r = { auth := o.auth } ∧
      t = { s with dmem := s.dmem.writeBytes (s.regions.ptr .m) o.m, nonce := .ofBytes o.nonce }
  | .macDec => ∃ f p, macDecode (s.bytesOf .i) = .ok (f, p) ∧ emitted { s with mac := f } p t ∧ r = {}
  | .macEnc aseq =>
    ∃ b panc, macEncode (macOperand s aseq) (s.bytesOf .p) = some (b, panc) ∧
      emitted (putMacEncoded s aseq panc) b t ∧ r = {}
  | .nwkDec =>
    let o := nwkDecode s.cipher s.keySet (s.bytesOf .i)
    emitted (wroteBack (putNonce { s with nwk := o.f } o.nonce) o.wb) o.p t ∧ r = { auth := o.auth }
  | .nwkEnc =>
    ∃ b u, nwkEncode s.cipher s.nwk (s.bytesOf .p) s.keySet s.fc = .ok (b, u) ∧ emitted (putNwkUpdate s u) b t ∧ r = {}
  | .apsDec => ∃ f p, apsDecode (s.bytesOf .i) = .ok (f, p) ∧ emitted { s with aps := f } p t ∧ r = {}
  | .apsEnc => emitted s (apsEncode s.aps (s.bytesOf .p)) t ∧ r = {}
  | .zclDec => ∃ f p, zclDecode (s.bytesOf .i) = .ok (f, p) ∧ emitted { s with zcl := f } p t ∧ r = {}
  | .zclEnc => emitted s (zclEncode s.zcl (s.bytesOf .p)) t ∧ r = {}
  | .parse =>
    ∃ o, parseFn s.cipher s.keySet (s.bytesOf .i) = .ok o ∧ emitted (wroteBack (putParsed s o) o.wb) o.out t ∧
      r = o.report
  | .compose l aseq =>
    s.Composable l ∧
      emitted (putComposed s l aseq (composeNwk s.cipher s l (s.bytesOf .p)).2)
        (composeFrame s.cipher s l aseq (s.bytesOf .p)) t ∧ r = {}

/-- Every success of a command's core. -/
theorem coreOf_ok (i : Instr) (s t : State) (r : Report) (h : coreOf i s = .ok (t, r)) : didCore i s t r := by
  cases i <;> simp only [coreOf] at h <;> simp only [didCore]
  case nop => injection h with h; exact ⟨(congrArg Prod.fst h).symm, (congrArg Prod.snd h).symm⟩
  case aesEnc =>
    split at h
    · next hk => exact ⟨hk, emit_ok _ _ _ _ _ h⟩
    · simp at h
  case aesDec =>
    split at h
    · next hk => exact ⟨hk, emit_ok _ _ _ _ _ h⟩
    · simp at h
  case ccmEnc =>
    split at h
    · next hk => injection h with h; exact ⟨hk, (congrArg Prod.snd h).symm, (congrArg Prod.fst h).symm⟩
    · simp at h
  case ccmDec =>
    split at h
    · next hk => injection h with h; exact ⟨hk, (congrArg Prod.snd h).symm, (congrArg Prod.fst h).symm⟩
    · simp at h
  case macDec =>
    split at h
    · simp at h
    · next f p hd => exact ⟨f, p, hd, emit_ok _ _ _ _ _ h⟩
  case macEnc =>
    split at h
    · simp at h
    · next b panc hd => exact ⟨b, panc, hd, emit_ok _ _ _ _ _ h⟩
  case nwkDec => exact emit_ok _ _ _ _ _ h
  case nwkEnc =>
    split at h
    · next e _ => cases e <;> simp [NwkEncError.raised] at h
    · next b u hd => exact ⟨b, u, hd, emit_ok _ _ _ _ _ h⟩
  case apsDec =>
    split at h
    · simp at h
    · next f p hd => exact ⟨f, p, hd, emit_ok _ _ _ _ _ h⟩
  case apsEnc => exact emit_ok _ _ _ _ _ h
  case zclDec =>
    split at h
    · simp at h
    · next f p hd => exact ⟨f, p, hd, emit_ok _ _ _ _ _ h⟩
  case zclEnc => exact emit_ok _ _ _ _ _ h
  case parse =>
    split at h
    · simp at h
    · next o hd => exact ⟨o, hd, emit_ok _ _ _ _ _ h⟩
  case compose l _ =>
    obtain ⟨_, hc, h⟩ := (bind_ok_iff _ _ _).1 h
    exact ⟨(composeCheck_ok_iff s l).1 hc, emit_ok _ _ _ _ _ h⟩

theorem emit_error (u : State) (out : Bytes) (r : Report) (e : Halt) (h : emit u out r = .error e) :
    e = .error { code := .overflow } := by
  unfold emit at h
  split at h
  · simp at h
  · injection h with h; exact h.symm

/-- Every failure of a command's core: an error that is no region error, and an offset inside the input it read. -/
theorem coreOf_error (i : Instr) (s : State) (e : Halt) (h : coreOf i s = .error e) :
    ∃ c l o, e = .error { code := c, layer := l, offset := o } ∧ (c ≠ .none ∧ c ≠ .range ∧ c ≠ .overlap) ∧
      (o = 0 ∨ (o ≤ (s.bytesOf .i).length ∧ Region.i ∈ regionsOf i)) := by
  have he : ∀ (u : State) (out : Bytes) (r : Report), emit u out r = .error e →
      ∃ c l o, e = .error { code := c, layer := l, offset := o } ∧ (c ≠ .none ∧ c ≠ .range ∧ c ≠ .overlap) ∧
        (o = 0 ∨ (o ≤ (s.bytesOf .i).length ∧ Region.i ∈ regionsOf i)) := fun u out r h =>
    ⟨.overflow, .none, 0, emit_error u out r e h, by simp, .inl rfl⟩
  have hr : ∀ (c : ErrCode) (l : Layer) (o : Nat), (raise c l o : Except Halt (State × Report)) = .error e →
      (c ≠ .none ∧ c ≠ .range ∧ c ≠ .overlap) → (o = 0 ∨ (o ≤ (s.bytesOf .i).length ∧ Region.i ∈ regionsOf i)) →
      ∃ c l o, e = .error { code := c, layer := l, offset := o } ∧ (c ≠ .none ∧ c ≠ .range ∧ c ≠ .overlap) ∧
        (o = 0 ∨ (o ≤ (s.bytesOf .i).length ∧ Region.i ∈ regionsOf i)) := fun c l o h hc ho => by
    injection h with h
    exact ⟨c, l, o, h.symm, hc, ho⟩
  cases i <;> simp only [coreOf] at h
  case nop => simp at h
  case aesEnc =>
    split at h
    · exact he _ _ _ h
    · exact hr _ _ _ h (by simp) (.inl rfl)
  case aesDec =>
    split at h
    · exact he _ _ _ h
    · exact hr _ _ _ h (by simp) (.inl rfl)
  case ccmEnc =>
    split at h
    · simp at h
    · exact hr _ _ _ h (by simp) (.inl rfl)
  case ccmDec =>
    split at h
    · simp at h
    · exact hr _ _ _ h (by simp) (.inl rfl)
  case macDec =>
    split at h
    · next hd => exact hr _ _ _ h (by simp) (.inr ⟨macDecode_error _ _ hd, by simp [regionsOf]⟩)
    · exact he _ _ _ h
  case macEnc =>
    split at h
    · exact hr _ _ _ h (by simp) (.inl rfl)
    · exact he _ _ _ h
  case nwkDec => exact he _ _ _ h
  case nwkEnc =>
    split at h
    · next x _ => cases x <;> exact hr _ _ _ h (by simp) (.inl rfl)
    · exact he _ _ _ h
  case apsDec =>
    split at h
    · next hd => exact hr _ _ _ h (by simp) (.inr ⟨apsDecode_error _ _ hd, by simp [regionsOf]⟩)
    · exact he _ _ _ h
  case apsEnc => exact he _ _ _ h
  case zclDec =>
    split at h
    · next hd =>
      exact hr _ _ _ h (by simp) (.inr ⟨Nat.le_of_eq (zclDecode_error _ _ hd).1, by simp [regionsOf]⟩)
    · exact he _ _ _ h
  case zclEnc => exact he _ _ _ h
  case parse =>
    split at h
    · next hd =>
      refine hr _ _ _ h (by simp) (.inr ⟨?_, by simp [regionsOf]⟩)
      unfold parseFn at hd
      split at hd
      · next hm => injection hd with hd; exact hd ▸ macDecode_error _ _ hm
      · split at hd <;> simp at hd
    · exact he _ _ _ h
  case compose =>
    rcases (bind_error_iff _ _ _).1 h with h | ⟨_, _, h⟩
    · unfold composeCheck at h
      split at h
      · exact hr .noKey .none 0 (by injection h with h; exact congrArg _ h) (by simp) (.inl rfl)
      split at h
      · exact hr .addressing .nwk 0 (by injection h with h; exact congrArg _ h) (by simp) (.inl rfl)
      split at h
      · exact hr .addressing .mac 0 (by injection h with h; exact congrArg _ h) (by simp) (.inl rfl)
      split at h
      · exact hr .fcExhausted .none 0 (by injection h with h; exact congrArg _ h) (by simp) (.inl rfl)
      · simp at h
    · exact he _ _ _ h

/-- Everything a command can do: it raises, and changes nothing else, or its core succeeds. -/
theorem exec_cases (i : Instr) (s : State) :
    (∃ c l o, exec i s = .next (s.raised c l o) ∧ c ≠ .none ∧ o ≤ 512) ∨
      ∃ t r, s.Ready i ∧ didCore i s t r ∧ exec i s = .next (t.complete r) := by
  by_cases h : checks i s = .ok ()
  · have hr := (checks_ok_iff i s).1 h
    rw [exec_eq, h, ok_bind]
    cases hc : coreOf i s with
    | ok p => exact .inr ⟨p.1, p.2, hr, coreOf_ok i s p.1 p.2 hc, rfl⟩
    | error e =>
      obtain ⟨c, l, o, rfl, h1, h2⟩ := coreOf_error i s e hc
      refine .inl ⟨c, l, o, rfl, h1.1, ?_⟩
      rcases h2 with h2 | ⟨h2, h3⟩
      · omega
      · have := hr.range .i h3
        unfold State.inDmem at this
        simp only [bytesOf_length] at h2
        omega
  · obtain ⟨c, o, h, h5, hc⟩ := checks_error i s h
    rw [exec_eq, h]
    refine .inl ⟨c, .none, o, rfl, ?_, by omega⟩
    rcases hc with rfl | rfl | rfl <;> simp

/-! ### What a command's register updates touch -/

theorem wroteBack_eq (s : State) (wb : Option (Nat × Byte)) :
    wroteBack s wb = { s with dmem := (wroteBack s wb).dmem } := by cases wb <;> rfl

theorem putNonce_eq (s : State) (n : Option Bytes) : putNonce s n = { s with nonce := (putNonce s n).nonce } := by
  cases n <;> rfl

theorem putNwkUpdate_eq (s : State) (u : Option NwkUpdate) :
    putNwkUpdate s u = { s with
      nwk := (putNwkUpdate s u).nwk, nonce := (putNwkUpdate s u).nonce, fc := (putNwkUpdate s u).fc } := by
  cases u <;> rfl

theorem putMacEncoded_eq (s : State) (aseq panc : Bool) :
    putMacEncoded s aseq panc = { s with
      mac := (putMacEncoded s aseq panc).mac, seqctr := if aseq then s.seqctr + 1 else s.seqctr } := by
  cases aseq <;> rfl

theorem putParsed_eq (s : State) (r : ParseResult) :
    putParsed s r = { s with
      mac := r.mac, nwk := r.nwk, aps := r.aps, zcl := r.zcl, nonce := (putParsed s r).nonce } := by
  unfold putParsed
  cases r.nonce <;> rfl

theorem putComposed_eq (s : State) (l : LayerSet) (aseq : Bool) (u : Option NwkUpdate) :
    putComposed s l aseq u = { s with
      mac := (putComposed s l aseq u).mac, seqctr := (putComposed s l aseq u).seqctr
      nwk := (putNwkUpdate s u).nwk, nonce := (putNwkUpdate s u).nonce, fc := (putNwkUpdate s u).fc } := by
  unfold putComposed
  cases l.mac <;> cases u <;> cases aseq <;> rfl

/-- Of the state's fields, the core of a command writes only these. -/
theorem didCore_eq (i : Instr) (s t : State) (r : Report) (h : didCore i s t r) :
    t = { s with
      nonce := t.nonce, mic := t.mic, fc := t.fc, seqctr := t.seqctr, oLen := t.oLen, mac := t.mac, nwk := t.nwk
      aps := t.aps, zcl := t.zcl, dmem := t.dmem } := by
  cases i <;> simp only [didCore, emitted] at h
  case nop => obtain ⟨rfl, _⟩ := h; rfl
  case aesEnc =>
    generalize aesEnc s.key.bytes (s.bytesOf .i) = out at h
    obtain ⟨_, ⟨_, rfl⟩, _⟩ := h
    rfl
  case aesDec =>
    generalize aesDec s.key.bytes (s.bytesOf .i) = out at h
    obtain ⟨_, ⟨_, rfl⟩, _⟩ := h
    rfl
  case ccmEnc => obtain ⟨_, _, rfl⟩ := h; rfl
  case ccmDec => obtain ⟨_, _, rfl⟩ := h; rfl
  case macDec => obtain ⟨_, _, _, ⟨_, rfl⟩, _⟩ := h; rfl
  case macEnc => obtain ⟨_, _, _, ⟨_, rfl⟩, _⟩ := h; rw [putMacEncoded_eq]
  case nwkDec => obtain ⟨⟨_, rfl⟩, _⟩ := h; rw [wroteBack_eq, putNonce_eq]
  case nwkEnc => obtain ⟨_, _, _, ⟨_, rfl⟩, _⟩ := h; rw [putNwkUpdate_eq]
  case apsDec => obtain ⟨_, _, _, ⟨_, rfl⟩, _⟩ := h; rfl
  case apsEnc => obtain ⟨⟨_, rfl⟩, _⟩ := h; rfl
  case zclDec => obtain ⟨_, _, _, ⟨_, rfl⟩, _⟩ := h; rfl
  case zclEnc => obtain ⟨⟨_, rfl⟩, _⟩ := h; rfl
  case parse => obtain ⟨_, _, ⟨_, rfl⟩, _⟩ := h; rw [wroteBack_eq, putParsed_eq]
  case compose => obtain ⟨_, ⟨_, rfl⟩, _⟩ := h; rw [putComposed_eq]

/-- What the core of a command reports when it succeeds (60_exceptions.md R333). -/
theorem didCore_report (i : Instr) (s t : State) (r : Report) (h : didCore i s t r) :
    r.err = .none ∧
      (i ≠ .parse → r.depth = .none ∧ r.route = .raw ∧ r.dfail = false ∧ r.layer = .none ∧ r.offset = 0) ∧
      (i ≠ .parse → i ≠ .nwkDec → (∀ v m, i ≠ .ccmDec v m) → r.auth = .notChecked) := by
  cases i <;> simp only [didCore, emitted] at h
  case nop => obtain ⟨_, rfl⟩ := h; simp
  case aesEnc => obtain ⟨_, _, rfl⟩ := h; simp
  case aesDec => obtain ⟨_, _, rfl⟩ := h; simp
  case ccmEnc => obtain ⟨_, rfl, _⟩ := h; simp
  case ccmDec => obtain ⟨_, rfl, _⟩ := h; simp
  case macDec => obtain ⟨_, _, _, _, rfl⟩ := h; simp
  case macEnc => obtain ⟨_, _, _, _, rfl⟩ := h; simp
  case nwkDec => obtain ⟨_, rfl⟩ := h; simp
  case nwkEnc => obtain ⟨_, _, _, _, rfl⟩ := h; simp
  case apsDec => obtain ⟨_, _, _, _, rfl⟩ := h; simp
  case apsEnc => obtain ⟨_, rfl⟩ := h; simp
  case zclDec => obtain ⟨_, _, _, _, rfl⟩ := h; simp
  case zclEnc => obtain ⟨_, rfl⟩ := h; simp
  case parse => obtain ⟨_, _, _, rfl⟩ := h; simp [ParseResult.report]
  case compose => obtain ⟨_, _, rfl⟩ := h; simp

/-- A string written to DMEM is stored. -/
theorem stored_writeBytes (m : Dmem) (p : Nat) (b : Bytes) : stored m (m.writeBytes p b) p b :=
  fun a => read_writeBytes m p b a

/-- DMEM after a write-back and an output (42_nwk.md R247, 44_facade.md R310). -/
theorem read_wroteBack (s : State) (wb : Option (Nat × Byte)) (out : Bytes) (p a : Nat) :
    ((wroteBack s wb).dmem.writeBytes p out).read a =
      if p ≤ a ∧ a < p + out.length then out.getD (a - p) 0
      else match wb with
        | none => s.dmem.read a
        | some (off, v) => if a = s.regions.iPtr.toNat + off then v else s.dmem.read a := by
  rw [read_writeBytes]
  cases wb with
  | none => rfl
  | some w => simp only [wroteBack, read_write]; rfl

/-! ### The wire terms of Safety.lean -/

/-- The derived PANC is the encoder's (41_mac.md R212). -/
theorem derivedPanc_eq (f : MacFields) : f.derivedPanc = pancOf f := by
  have h0 : ∀ v : BitVec 2, v.toNat = 0 ↔ v = 0 := by decide
  simp only [MacFields.derivedPanc, pancOf, macSmode, macDmode, h0, ne_eq]
  simp [Bool.or_assoc, Bool.decide_or, Bool.decide_and]

/-- The emitted frame control is the encoder's (41_mac.md R206). -/
theorem emittedFc_eq (f : MacFields) : f.emittedFc = withPanc f.fc (pancOf f) := by
  simp only [MacFields.emittedFc, withPanc, derivedPanc_eq]
  cases pancOf f <;> rfl

/-- The frame of a record is the encoder's (41_mac.md R206). -/
theorem frame_eq (f : MacFields) (pl : Bytes) : f.frame pl = macFrame f pl := by
  have h0 : ∀ v : BitVec 2, v.toNat = 0 ↔ v = 0 := by decide
  have h3 : ∀ v : BitVec 2, v.toNat = 3 ↔ v = 3 := by decide
  have h33 : ∀ v : BitVec 3, v.toNat = 3 ↔ v = 3 := by decide
  have hl : ∀ {w : Nat} (v : BitVec w), leOf v = le (w / 8) v.toNat := fun v => rfl
  simp only [MacFields.frame, macFrame, derivedPanc_eq, emittedFc_eq, hl, macSmode, macDmode, macType, alen, h0, h3, h33,
    ne_eq, ite_not]

/-- A NWK decode writes the security-control byte back at its offset, exactly when it stands in a secured frame whose
header is whole (42_nwk.md R234). -/
theorem nwkDecode_writeBack (enc : Bytes → Bytes) (keyset : Bool) (b : Bytes) :
    (nwkDecode enc keyset b).wb.map Prod.fst = nwkWriteBackAt b := by
  have hfc : fieldAt 16 b 0 = nwkFcOf b := rfl
  have hh : nwkHeaderLen (nwkFcOf b) = nwkHeaderEnd b := rfl
  simp only [nwkDecode, hfc, hh, nwkSec, nwkWriteBackAt]
  by_cases h8 : b.length < 8
  · rw [if_pos h8, if_neg (by omega)]; rfl
  by_cases hl : b.length < nwkHeaderEnd b
  · rw [if_neg h8, if_pos hl, if_neg (by omega)]; rfl
  rw [if_neg h8, if_neg hl]
  by_cases hs : (nwkFcOf b).getLsbD 9 = true
  swap
  · rw [if_neg hs, if_neg (fun h => hs h.2.2)]; rfl
  rw [if_pos hs]
  unfold nwkDecodeSecured
  by_cases ha : b.length < nwkHeaderEnd b + 1
  · rw [if_pos ha, if_neg (by omega)]; rfl
  rw [if_neg ha]
  conv => rhs; rw [if_pos ⟨by omega, by omega, hs⟩]
  simp only
  split
  · rfl
  · unfold nwkOpen
    split
    · rfl
    · simp only
      repeat' split
      all_goals rfl

/-- Fields that all fit end inside the string. -/
theorem firstCut_none (n p : Nat) (ws : List Nat) (hp : p ≤ n) (h : firstCut n p ws = none) : p + ws.sum ≤ n := by
  induction ws generalizing p with
  | nil => simpa using hp
  | cons w ws ih =>
    simp only [firstCut] at h
    split at h
    · cases h
    · have := ih (p + w) (by omega) h
      simp only [List.sum_cons]
      omega

/-- The header of a well-formed MAC frame lies in the frame (41_mac.md R207). -/
theorem macHeaderLen_le (b : Bytes) (h : macMalformedAt b = none) : macHeaderLen b ≤ b.length := by
  simp only [macMalformedAt] at h
  split at h
  · cases h
  split at h
  · cases h
  split at h
  · cases h
  exact firstCut_none _ _ _ (by omega) h

end Sys2Proof.Machine
end

