-- ==== Sys2Proof/Laws/Decode.lean ====
section
/-! SUPPORT. What the decoder's field checks say about the bits of a word. -/

namespace Sys2Proof

/-- A bit outside the permitted mask of a word that passes the mask check is 0. -/
theorem mask_bits (w mask : Word) (h : w &&& ~~~mask = 0#32) (k : Nat) (hk : k < 32) (hm : mask.getLsbD k = false) :
    w.getLsbD k = false := by
  have := congrArg (fun v => v.getLsbD k) h
  simp only [BitVec.getLsbD_and, BitVec.getLsbD_not, hk, hm, BitVec.getLsbD_zero] at this
  simpa using this

/-- The low eight bits of a word are those of its opcode. -/
theorem op_bits (w : Word) (n : Nat) (h : (opField w).toNat = n) (k : Nat) (hk : k < 8) :
    w.getLsbD k = n.testBit k := by
  have : (opField w).getLsbD k = w.getLsbD k := by simp [opField, hk]
  rw [← this, ← h]; simp [BitVec.testBit_toNat]

/-- What `onlyBits` says when it answers. -/
theorem onlyBits_ok (p w : Word) (j i : Instr) (h : onlyBits p w j = .ok i) : w &&& ~~~p = 0#32 ∧ j = i := by
  unfold onlyBits at h
  split at h
  · next hm => exact ⟨hm, by injection h⟩
  · cases h

/-- What `decodeCompose` says when it answers. -/
theorem decodeCompose_ok (w : Word) (i : Instr) (h : decodeCompose w = .ok i) :
    w &&& ~~~0xF2FF#32 = 0#32 ∧ (lField w).legal = true ∧ (sField w = true → (lField w).mac = true) ∧
      i = .compose (lField w) (sField w) := by
  unfold decodeCompose at h
  split at h
  · cases h
  · next h1 =>
    split at h
    · cases h
    · next h2 =>
      split at h
      · cases h
      · next h3 =>
        injection h with h
        exact ⟨by simpa using h1, by simpa using h2, by intro hs; simpa [hs] using h3, h.symm⟩

end Sys2Proof
end

