-- ==== Sys2Proof/Laws/PerInstr.lean ====
section
/-! SUPPORT. The per-instruction family of LAWS.json: the encoder sets every fixed bit of an instruction's row of
spec/opcode_table.json to the value the row gives it. -/

namespace Sys2Proof.Laws

/-- The mask of an instruction's row of spec/opcode_table.json: its fixed bits. -/
def tableMask : Instr → Word
  | .nop => 0xFFFFFFFF#32
  | .aesEnc => 0xFFFFFFFF#32
  | .aesDec => 0xFFFFFFFF#32
  | .ccmEnc _ => 0xFFF0FFFF#32
  | .ccmDec _ _ => 0xFFF0FEFF#32
  | .macDec => 0xFFFFFFFF#32
  | .macEnc _ => 0xFFFFFDFF#32
  | .nwkDec => 0xFFFFFFFF#32
  | .nwkEnc => 0xFFFFFFFF#32
  | .apsDec => 0xFFFFFFFF#32
  | .apsEnc => 0xFFFFFFFF#32
  | .zclDec => 0xFFFFFFFF#32
  | .zclEnc => 0xFFFFFFFF#32
  | .parse => 0xFFFFFFFF#32
  | .compose _ _ => 0xFFFF0DFF#32

/-- The match of an instruction's row of spec/opcode_table.json: the values of its fixed bits. -/
def tableMatch : Instr → Word
  | .nop => 0x00000000#32
  | .aesEnc => 0x00000001#32
  | .aesDec => 0x00000002#32
  | .ccmEnc _ => 0x00000010#32
  | .ccmDec _ _ => 0x00000011#32
  | .macDec => 0x00000020#32
  | .macEnc _ => 0x00000021#32
  | .nwkDec => 0x00000030#32
  | .nwkEnc => 0x00000031#32
  | .apsDec => 0x00000040#32
  | .apsEnc => 0x00000041#32
  | .zclDec => 0x00000050#32
  | .zclEnc => 0x00000051#32
  | .parse => 0x00000060#32
  | .compose _ _ => 0x00000061#32

/-- Every fixed bit of the instruction's word has the value its table row gives it. -/
def FixedBits.Statement (i : Instr) : Prop := encode i &&& tableMask i = tableMatch i

theorem FixedBits.nop : FixedBits.Statement .nop := by
  unfold FixedBits.Statement
  decide

theorem FixedBits.aesEnc : FixedBits.Statement .aesEnc := by
  unfold FixedBits.Statement
  decide

theorem FixedBits.aesDec : FixedBits.Statement .aesDec := by
  unfold FixedBits.Statement
  decide

theorem FixedBits.ccmEnc (m : BitVec 4) : FixedBits.Statement (.ccmEnc m) := by
  revert m
  unfold FixedBits.Statement
  decide

theorem FixedBits.ccmDec (v : Bool) (m : BitVec 4) : FixedBits.Statement (.ccmDec v m) := by
  revert v m
  unfold FixedBits.Statement
  decide

theorem FixedBits.macDec : FixedBits.Statement .macDec := by
  unfold FixedBits.Statement
  decide

theorem FixedBits.macEnc (aseq : Bool) : FixedBits.Statement (.macEnc aseq) := by
  revert aseq
  unfold FixedBits.Statement
  decide

theorem FixedBits.nwkDec : FixedBits.Statement .nwkDec := by
  unfold FixedBits.Statement
  decide

theorem FixedBits.nwkEnc : FixedBits.Statement .nwkEnc := by
  unfold FixedBits.Statement
  decide

theorem FixedBits.apsDec : FixedBits.Statement .apsDec := by
  unfold FixedBits.Statement
  decide

theorem FixedBits.apsEnc : FixedBits.Statement .apsEnc := by
  unfold FixedBits.Statement
  decide

theorem FixedBits.zclDec : FixedBits.Statement .zclDec := by
  unfold FixedBits.Statement
  decide

theorem FixedBits.zclEnc : FixedBits.Statement .zclEnc := by
  unfold FixedBits.Statement
  decide

theorem FixedBits.parse : FixedBits.Statement .parse := by
  unfold FixedBits.Statement
  decide

theorem FixedBits.compose (layers : LayerSet) (aseq : Bool) : FixedBits.Statement (.compose layers aseq) := by
  obtain ⟨a, b, c, d⟩ := layers
  revert a b c d aseq
  unfold FixedBits.Statement
  decide

end Sys2Proof.Laws
end

