-- ==== Sys2Proof/Tests/Slice0.lean ====
section
/-! SUPPORT. Tests. Expected values come from spec/95_test_vectors.md, spec/40_aes_ccm.md R179 or the encodings of
spec/30_encoding.md. The theorems `witness_<obligation>…` show concrete states and operands that meet the hypotheses of
that obligation, one for each clause, at the boundary values of its ranges. -/

namespace Sys2Proof.Tests

open Sys2Proof.Machine

/-! ### States -/

/-- The cells of a string from address `p`. -/
def cellsOf : Nat → Bytes → List Host.Cell
  | _, [] => []
  | p, x :: b => if x = 0 then cellsOf (p + 1) b else (p, x) :: cellsOf (p + 1) b

/-- Reset with a string at DMEM 0, as the I, P or A region, and the O region of `cap` bytes at 0x100, as the M region
too. -/
def at0 (b : Bytes) (cap : Nat) : State :=
  { State.reset with
    dmem := { cells := cellsOf 0 b, powerOn := [] }
    regions :=
      { Regions.zero with
        iLen := BitVec.ofNat 16 b.length, pLen := BitVec.ofNat 16 b.length, aLen := BitVec.ofNat 16 b.length
        oPtr := 0x100, oCap := BitVec.ofNat 16 cap, mPtr := 0x100, mLen := BitVec.ofNat 16 cap } }

/-- With the key written. -/
def keyed (s : State) : State := { s with kw := ⟨true, true, true, true⟩ }

/-- With a command accepted and due. -/
def due (w : Word) (s : State) : State := { s with cur := w, status := { s.status with busy := true } }

/-- The outcome of a step or a command, seen through `f`. -/
def after {α : Type} (o : Host.Outcome State Fault Refusal) (f : State → α) : Option α :=
  match o with
  | .next t => some (f t)
  | _ => none

/-- A command is ready when its checks pass. -/
theorem ready {i : Instr} {s : State} (h : checks i s = .ok ()) : s.Ready i := (checks_ok_iff i s).1 h

/-! ### WellFormed -/

/-- The check on layer sets refuses MAC and APS without NWK (30_encoding.md R114). -/
theorem test_wellFormed_layers : (Instr.compose ⟨true, false, true, false⟩ false).wellFormed = false := by decide

/-- The check on ASEQ refuses ASEQ without the MAC layer (30_encoding.md R114). -/
theorem test_wellFormed_aseq : (Instr.compose ⟨false, true, true, true⟩ true).wellFormed = false := by decide

/-! ### Decode: the words of 30_encoding.md R112, R150 -/

theorem test_decode_nop : decode 0x00000000#32 = .ok .nop := by decide

theorem test_decode_aesEnc : decode 0x00000001#32 = .ok .aesEnc := by decide

theorem test_decode_aesDec : decode 0x00000002#32 = .ok .aesDec := by decide

theorem test_decode_ccmEnc : decode 0x00040010#32 = .ok (.ccmEnc 4) := by decide

theorem test_decode_ccmDec : decode 0x00040111#32 = .ok (.ccmDec true 4) := by decide

theorem test_decode_macDec : decode 0x00000020#32 = .ok .macDec := by decide

theorem test_decode_macEnc : decode 0x00000221#32 = .ok (.macEnc true) := by decide

theorem test_decode_nwkDec : decode 0x00000030#32 = .ok .nwkDec := by decide

theorem test_decode_nwkEnc : decode 0x00000031#32 = .ok .nwkEnc := by decide

theorem test_decode_apsDec : decode 0x00000040#32 = .ok .apsDec := by decide

theorem test_decode_apsEnc : decode 0x00000041#32 = .ok .apsEnc := by decide

theorem test_decode_zclDec : decode 0x00000050#32 = .ok .zclDec := by decide

theorem test_decode_zclEnc : decode 0x00000051#32 = .ok .zclEnc := by decide

theorem test_decode_parse : decode 0x00000060#32 = .ok .parse := by decide

theorem test_decode_compose : decode 0x0000F261#32 = .ok (.compose ⟨true, true, true, true⟩ true) := by decide

/-- 30_encoding.md R113: a set bit outside the fields of AES_ENC. -/
theorem test_decode_stray : decode 0x00000101#32 = .error .strayBits := by decide

/-- 30_encoding.md R116: a reserved opcode. -/
theorem test_decode_reserved : decode 0x00000003#32 = .error (.reservedOpcode 0x03#8) := by decide

theorem test_encode_compose : encode (.compose ⟨true, true, true, true⟩ true) = 0x0000F261#32 := by decide

/-! ### The worked trace of the §8 vector: 40_aes_ccm.md R179, 95_test_vectors.md 1.1, 1.2

The cipher is the one that R179's seven blocks show. -/

/-- The forward cipher of the seven blocks of R179, zero elsewhere. -/
def cipher8 (b : Bytes) : Bytes :=
  if b = [0x49, 0xb1, 0x9d, 0xe8, 0x0b, 0x00, 0x4b, 0x12, 0x00, 0x87, 0x48, 0x04, 0x00, 0x2d, 0x00, 0x0c] then
    [0x34, 0x0f, 0x03, 0x25, 0x95, 0x43, 0x6e, 0xbf, 0x18, 0x62, 0x0d, 0xd6, 0xd9, 0x65, 0x1c, 0xbe]
  else if b = xorBytes
      [0x34, 0x0f, 0x03, 0x25, 0x95, 0x43, 0x6e, 0xbf, 0x18, 0x62, 0x0d, 0xd6, 0xd9, 0x65, 0x1c, 0xbe]
      [0x00, 0x16, 0x48, 0x02, 0xfd, 0xff, 0x38, 0x2b, 0x0b, 0x43, 0x2d, 0x87, 0x48, 0x04, 0x00, 0xb1] then
    [0x0e, 0xef, 0x11, 0x30, 0xa8, 0xd7, 0x76, 0x60, 0x1b, 0x09, 0x72, 0x97, 0x76, 0xe1, 0x01, 0x76]
  else if b = xorBytes
      [0x0e, 0xef, 0x11, 0x30, 0xa8, 0xd7, 0x76, 0x60, 0x1b, 0x09, 0x72, 0x97, 0x76, 0xe1, 0x01, 0x76]
      [0x9d, 0xe8, 0x0b, 0x00, 0x4b, 0x12, 0x00, 0x00, 0x00, 0x00, 0x00, 0x00, 0x00, 0x00, 0x00, 0x00] then
    [0x49, 0x09, 0xac, 0xf6, 0xe4, 0xc0, 0xd3, 0x59, 0xe8, 0xc0, 0xcf, 0xf3, 0xf5, 0x12, 0xa2, 0x79]
  else if b = xorBytes
      [0x49, 0x09, 0xac, 0xf6, 0xe4, 0xc0, 0xd3, 0x59, 0xe8, 0xc0, 0xcf, 0xf3, 0xf5, 0x12, 0xa2, 0x79]
      [0x0c, 0x00, 0x00, 0x06, 0x00, 0x04, 0x01, 0x01, 0x23, 0x01, 0x0d, 0x02, 0x00, 0x00, 0x00, 0x00] then
    [0x55, 0x65, 0x11, 0x7f, 0x79, 0x93, 0x47, 0xd2, 0xa1, 0xaa, 0xae, 0x64, 0xed, 0xc2, 0x54, 0xf9]
  else if b = [0x01, 0xb1, 0x9d, 0xe8, 0x0b, 0x00, 0x4b, 0x12, 0x00, 0x87, 0x48, 0x04, 0x00, 0x2d, 0x00, 0x00] then
    [0x47, 0x35, 0x0e, 0x8e, 0xbd, 0x96, 0x5b, 0x72, 0x1f, 0x5f, 0x7f, 0x04, 0xbe, 0xdf, 0xd4, 0x38]
  else if b = [0x01, 0xb1, 0x9d, 0xe8, 0x0b, 0x00, 0x4b, 0x12, 0x00, 0x87, 0x48, 0x04, 0x00, 0x2d, 0x00, 0x01] then
    [0x09, 0x56, 0x65, 0xc7, 0x4f, 0x17, 0x11, 0x25, 0x33, 0x06, 0x87, 0x3f, 0x28, 0x2f, 0xc1, 0x3a]
  else zeros 16

/-- The §8 nonce. -/
def nonce8 : Bytes :=
  [0x01, 0xb1, 0x9d, 0xe8, 0x0b, 0x00, 0x4b, 0x12, 0x00, 0x87, 0x48, 0x04, 0x00, 0x2d, 0x00, 0x00]

/-- The §8 auth data. -/
def auth8 : Bytes :=
  [0x48, 0x02, 0xfd, 0xff, 0x38, 0x2b, 0x0b, 0x43, 0x2d, 0x87, 0x48, 0x04, 0x00, 0xb1, 0x9d, 0xe8, 0x0b, 0x00, 0x4b,
   0x12, 0x00, 0x00]

/-- The §8 message. -/
def message8 : Bytes := [0x0c, 0x00, 0x00, 0x06, 0x00, 0x04, 0x01, 0x01, 0x23, 0x01, 0x0d, 0x02]

/-- The §8 frame. -/
def frame8 : Bytes :=
  [0x41, 0x88, 0x3b, 0x62, 0x1a, 0xff, 0xff, 0x00, 0x00] ++
  [0x48, 0x02, 0xfd, 0xff, 0x38, 0x2b, 0x0b, 0x43, 0x28, 0x87, 0x48, 0x04, 0x00, 0xb1, 0x9d, 0xe8, 0x0b, 0x00, 0x4b,
   0x12, 0x00, 0x00] ++
  [0x05, 0x56, 0x65, 0xc1, 0x4f, 0x13, 0x10, 0x24, 0x10, 0x07, 0x8a, 0x3d] ++ [0x12, 0x50, 0x1f, 0xf1]

theorem test_ccmEncrypt_vector :
    (ccmEncrypt cipher8 nonce8 auth8 message8).c =
        [0x05, 0x56, 0x65, 0xc1, 0x4f, 0x13, 0x10, 0x24, 0x10, 0x07, 0x8a, 0x3d] ∧
      (ccmEncrypt cipher8 nonce8 auth8 message8).u = [0x12, 0x50, 0x1f, 0xf1] := by decide

/-- A flipped MIC bit fails (95_test_vectors.md 1.3). -/
theorem test_ccmDecrypt_tampered :
    (ccmDecrypt cipher8 nonce8 auth8 [0x05, 0x56, 0x65, 0xc1, 0x4f, 0x13, 0x10, 0x24, 0x10, 0x07, 0x8a, 0x3d]
      [0x12, 0x50, 0x1f, 0x71] true).auth = .fail := by decide

/-- PARSE of the §8 frame (95_test_vectors.md 1.2): descent, security and write-back. -/
theorem test_parse_vector :
    ((parseFn cipher8 true frame8).toOption.map fun r => (r.depth, r.route, r.auth, r.wb)) =
      some (.zcl, .zcl, .pass, some (17, 0x2d#8)) := by decide

/-- PARSE of the §8 frame (95_test_vectors.md 1.2): the records of the inner layers. -/
theorem test_parse_records :
    ((parseFn cipher8 true frame8).toOption.map fun r => (r.aps, r.zcl, r.nwk.secfc, r.nwk.mic)) =
      some (⟨0x0C, 0, 0x0006, 0x0104, 0x01, 0x23⟩, ⟨0x01, 0x0D, 0x02⟩, 0x00044887#32, 0xF11F5012#32) := by decide

/-- The registers of the §8 frame (95_test_vectors.md 1.2). -/
def records8 : State :=
  { State.reset with
    kw := ⟨true, true, true, true⟩
    mac := ⟨0x8841, true, 0x3B, 0, 0x1A62, 0x1A62, 0xFFFF, 0⟩
    nwk :=
      { NwkFields.zero with
        fc := 0x0248, valid := true, dst := 0xFFFD, src := 0x2B38, radius := 0x0B, seq := 0x43, secctl := 0x2D
        secfc := 0x00044887, secsrc := 0x00124B000BE89DB1 }
    aps := ⟨0x0C, 0, 0x0006, 0x0104, 0x01, 0x23⟩
    zcl := ⟨0x01, 0x0D, 0x02⟩
    fc := 0x00044887
    seqctr := 0x3A }

/-- COMPOSE of the records of the §8 frame gives it back (95_test_vectors.md 8.3). -/
theorem test_compose_vector : composeFrame cipher8 records8 ⟨true, true, true, true⟩ true [] = frame8 := by decide

/-! ### One step each: 95_test_vectors.md 2 to 7 -/

/-- NOP keeps BUSERR and clears the result fields (44_facade.md R300). -/
theorem test_step_nop :
    after (step (due 0 { keyed State.reset with
        status := { Status.zero with buserr := true, auth := .pass, depth := .zcl, route := .zcl } }))
      State.statusWord = some 0x0000040A#32 := by decide

/-- AES_ENC with I_LEN = 15 (95_test_vectors.md 2.1). -/
theorem test_step_aesEnc_param :
    after (step (due 1 (keyed (at0 (zeros 15) 16)))) (fun t => (t.statusWord, t.errInfo.word)) =
      some (0x00000422#32, 0x00000001#32) := by decide

/-- AES_ENC without a key (95_test_vectors.md 2.1). -/
theorem test_step_aesEnc_noKey :
    after (step (due 1 (at0 (zeros 16) 16))) (fun t => (t.statusWord, t.errInfo.word)) =
      some (0x00000052#32, 0x00000000#32) := by decide

/-- AES_DEC with O_CAP = 15 (95_test_vectors.md 2.1). -/
theorem test_step_aesDec_overflow :
    after (step (due 2 (keyed (at0 (zeros 16) 15)))) State.statusWord = some 0x00000492#32 := by decide

/-- CCM_ENC with M = 0 (30_encoding.md R115). -/
theorem test_step_ccmEnc_param :
    after (step (due 0x10 (keyed (at0 [] 16)))) State.statusWord = some 0x00000422#32 := by decide

/-- CCM_DEC with A past DMEM (30_encoding.md R124: operand code 4). -/
theorem test_step_ccmDec_range :
    after (step (due 0x40111 { keyed State.reset with regions := { Regions.zero with aPtr := 513 } }))
      (fun t => (t.statusWord, t.errInfo.word)) = some (0x00000432#32, 0x00000004#32) := by decide

/-- A command frame with a compressed source PAN id (95_test_vectors.md 3.4). -/
theorem test_step_macDec :
    after (step (due 0x20 (keyed
        (at0 [0x43, 0x88, 0x05, 0x34, 0x12, 0xef, 0xbe, 0xfe, 0xca, 0x04, 0x11, 0x22] 64))))
      (fun t => (t.statusWord, [readReg t .macFc, readReg t .macSqc, readReg t .macPan, readReg t .macDaddrLo,
        readReg t .macSaddrLo, readReg t .oLen], t.dmem.readBytes 0x100 2)) =
      some (0x00000402#32, [0x00018843, 0x00000405, 0x12341234, 0x0000BEEF, 0x0000CAFE, 2], [0x11, 0x22]) := by decide

/-- The command id is missing (95_test_vectors.md 3.2). -/
theorem test_step_macDec_malformed :
    after (step (due 0x20 (keyed (at0 [0x03, 0xc8, 0x05, 0x34, 0x12, 0xef, 0xbe, 0x22, 0x11, 0xff, 0xee, 0xdd, 0xcc,
        0xbb, 0xaa, 0x99, 0x88] 64)))) (fun t => (t.statusWord, t.errInfo.word)) =
      some (0x00000482#32, 0x00001011#32) := by decide

/-- DMODE 2, SMODE 3, another source PAN (95_test_vectors.md 3.1). -/
theorem test_step_macEnc :
    after (step (due 0x21 { keyed (at0 [0xaa] 64) with
        mac := ⟨0xC841, true, 0x10, 0, 0x1234, 0x5678, 0xBEEF, 0x8899AABBCCDDEEFF⟩ }))
      (fun t => (t.dmem.readBytes 0x100 18, readReg t .macFc, t.oLen)) =
      some ([0x01, 0xc8, 0x10, 0x34, 0x12, 0xef, 0xbe, 0x78, 0x56, 0xff, 0xee, 0xdd, 0xcc, 0xbb, 0xaa, 0x99, 0x88, 0xaa],
        0x0001C801#32, 18#16) := by decide

/-- ASEQ wraps (95_test_vectors.md 3.3). -/
theorem test_step_macEnc_aseq :
    after (step (due 0x221 { keyed (at0 [] 64) with mac := { MacFields.zero with fc := 1 }, seqctr := 0xFF }))
      (fun t => (t.dmem.readBytes 0x100 3, readReg t .macFc, readReg t .macSqc, readReg t .seqctr)) =
      some ([0x41, 0x00, 0x00], 0x00000041#32, 0, 0) := by decide

/-- A secured frame without a nonce source (95_test_vectors.md 4.1). -/
theorem test_step_nwkDec_nonceSrc :
    after (step (due 0x30 (keyed (at0 [0x08, 0x02, 0x00, 0x00, 0x38, 0x2b, 0x1e, 0x44, 0x08, 0x01, 0x00, 0x00, 0x00,
        0x00, 0xaa, 0x11, 0x22, 0x33, 0x44] 64))))
      (fun t => ([t.statusWord, readReg t .nwkFc, readReg t .nwkSec, readReg t .nwkSecfc, readReg t .nwkMic],
        t.dmem.read 8, t.dmem.readBytes 0x100 1)) =
      some ([0x00000402, 0x00060208, 0x0000000D, 0x00000001, 0x44332211], 0x0D, [0xaa]) := by decide

/-- The §8 NWK frame without a key (95_test_vectors.md 4.1). -/
theorem test_step_nwkDec_noKey :
    after (step (due 0x30 (at0 (frame8.drop 9) 64)))
      (fun t => ([t.statusWord, readReg t .nwkFc, readReg t .nwkMic, readReg t (.nonce 3)], t.dmem.readBytes 0x100 2)) =
      some ([0x00000002, 0x00080248, 0xF11F5012, 0x00002D00], [0x05, 0x56]) := by decide

/-- An unsecured encode needs no key and keeps FC (95_test_vectors.md 4.2). -/
theorem test_step_nwkEnc_plain :
    after (step (due 0x31 { at0 [0xaa, 0xbb] 64 with
        fc := 5, nwk := { NwkFields.zero with fc := 8, dst := 0xFFFD, src := 0x2B38, radius := 0x1E, seq := 0x44 } }))
      (fun t => (t.statusWord, t.dmem.readBytes 0x100 10, t.fc)) =
      some (0x00000002#32, [0x08, 0x00, 0xfd, 0xff, 0x38, 0x2b, 0x1e, 0x44, 0xaa, 0xbb], 5#32) := by decide

/-- The frame counter is exhausted (95_test_vectors.md 4.3). -/
theorem test_step_nwkEnc_exhausted :
    after (step (due 0x31 { records8 with fc := 0xFFFFFFFF })) (fun t => (t.statusWord, t.fc)) =
      some (0x00000472#32, 0xFFFFFFFF#32) := by decide

/-- A unicast APS frame (95_test_vectors.md 5.1). -/
theorem test_step_apsDec :
    after (step (due 0x40 (keyed (at0 [0x00, 0x0a, 0x06, 0x00, 0x04, 0x01, 0x01, 0x23, 0xaa] 64))))
      (fun t => ([t.statusWord, readReg t .apsFc, readReg t .apsDst, readReg t .apsCp, readReg t .apsEc],
        t.dmem.readBytes 0x100 1)) =
      some ([0x00000402, 0x00000000, 0x0000000A, 0x01040006, 0x00002301], [0xaa]) := by decide

/-- The §8 APS frame (95_test_vectors.md 1.2). -/
theorem test_step_apsEnc :
    after (step (due 0x41 { keyed (at0 [0x01, 0x0d, 0x02] 64) with aps := ⟨0x0C, 0, 0x0006, 0x0104, 0x01, 0x23⟩ }))
      (fun t => t.dmem.readBytes 0x100 12) = some message8 := by decide

/-- The §8 ZCL frame (95_test_vectors.md 1.2). -/
theorem test_step_zclDec :
    after (step (due 0x50 (keyed (at0 [0x01, 0x0d, 0x02] 64)))) (fun t => (readReg t .zclHdr, t.oLen)) =
      some (0x00020D01#32, 0#16) := by decide

theorem test_step_zclEnc :
    after (step (due 0x51 { keyed (at0 [0xee] 64) with zcl := ⟨0x01, 0x0D, 0x02⟩ }))
      (fun t => t.dmem.readBytes 0x100 4) = some [0x01, 0x0d, 0x02, 0xee] := by decide

/-- PARSE of the §8 frame without a key stops at the NWK layer (44_facade.md R303, R305; 42_nwk.md R241). -/
theorem test_step_parse_noKey :
    after (step (due 0x60 (at0 frame8 64)))
      (fun t => (t.status.depth, t.status.dfail, t.errInfo, t.dmem.read 17)) =
      some (.nwk, true, ⟨.nwk, 0⟩, 0x2D) := by decide

/-- COMPOSE of APS and ZCL (44_facade.md R311): the §8 message. -/
theorem test_step_compose :
    after (step (due 0xC061 { records8 with regions := { Regions.zero with oPtr := 0x100, oCap := 12 } }))
      (fun t => (t.statusWord, t.dmem.readBytes 0x100 12)) = some (0x00000402#32, message8) := by decide

/-! ### Witnesses of the hypotheses of the statements -/

theorem witness_DecodeInvertsEncode : (Instr.compose ⟨true, true, true, true⟩ true).wellFormed = true := by decide

theorem witness_EncodeInvertsDecode : decode 0x000F0111#32 = .ok (.ccmDec true 15) := by decide

theorem witness_IllegalWordCompletes :
    (due 0x62 State.reset).status.busy = true ∧ (due 0x62 State.reset).wait = 0 ∧ illegalWord 0x62#32 :=
  ⟨rfl, rfl, .inl (by decide)⟩

/-- R113's second ground and R114's two, at their boundary: bit 20 of CCM_ENC, layer sets 0 and 13, ASEQ without MAC. -/
theorem witness_illegalWord_grounds :
    illegalWord 0x00100010#32 ∧ illegalWord 0x61#32 ∧ illegalWord 0xD061#32 ∧ illegalWord 0x2261#32 :=
  ⟨.inr (.inl ⟨(0x10, 0xF0000), by decide, by decide, by decide⟩), .inr (.inr ⟨by decide, .inl (by decide)⟩),
    .inr (.inr ⟨by decide, .inl (by decide)⟩), .inr (.inr ⟨by decide, .inr (by decide)⟩)⟩

theorem witness_StepRunsDecodedCommand :
    (due 0x60 State.reset).status.busy = true ∧ (due 0x60 State.reset).wait = 0 ∧
      decode (due 0x60 State.reset).cur = .ok .parse := by decide

/-- Idle, and busy with one turn to wait; with and without an input. -/
theorem witness_HostInputsTakeTheirTurn :
    (State.reset.status.busy = false ∧ State.reset.inbox = []) ∧
      ({ due 0 State.reset with wait := 1 }.wait ≠ 0 ∧
        { due 0 State.reset with inbox := [.read .w32 4] }.inbox = .read .w32 4 :: []) := by decide

/-- A busy state whose host writes CMD, clears OVR and writes CTRL without SRST meanwhile. -/
theorem witness_ResultIgnoresLatency :
    let s := { due 0x60 State.reset with
      wait := 3, inbox := [.write .w32 0 1, .write .w32 4 4, .write .w32 8 1, .read .w8 0x400] }
    s.status.busy = true ∧ ∀ x ∈ s.inbox, ¬ x.resets := by
  refine ⟨rfl, fun x hx => ?_⟩
  simp at hx
  rcases hx with rfl | rfl | rfl | rfl <;> simp [HostInput.resets]

theorem witness_CompletionWritesStatus :
    let s := due 0 State.reset
    s.status.busy = true ∧ s.wait = 0 ∧ step s = .next (s.succeeded .notChecked) ∧ decode s.cur ≠ .ok .parse ∧
      decode s.cur ≠ .ok .nwkDec ∧ ∀ v m, decode s.cur ≠ .ok (.ccmDec v m) :=
  ⟨rfl, rfl, rfl, by decide, by decide, by decide⟩

theorem witness_ErrorsArePrecise :
    let s := due 3 State.reset
    let t := s.raised .illegalCmd .none 0
    s.status.busy = true ∧ s.wait = 0 ∧ step s = .next t ∧ t.status.err ≠ .none := ⟨rfl, rfl, rfl, by decide⟩

/-- I_LEN 15 and 17, and M 3 and 5. -/
theorem witness_WrongParameterRaises :
    ¬ (at0 (zeros 15) 16).paramOk .aesEnc ∧ ¬ (at0 (zeros 17) 16).paramOk .aesDec ∧
      ¬ State.reset.paramOk (.ccmEnc 3) ∧ ¬ State.reset.paramOk (.ccmDec true 5) := by
  simp only [State.paramOk]
  decide

/-- The last region of a command one byte past DMEM, behind one that ends at 512. -/
theorem witness_RegionOutOfDmemRaises :
    let s := { State.reset with regions := { Regions.zero with iPtr := 511, iLen := 1, oPtr := 512, oCap := 1 } }
    s.paramOk .macDec ∧ regionsOf .macDec = [.i] ++ .o :: [] ∧ (∀ y ∈ [Region.i], s.inDmem y) ∧ ¬ s.inDmem .o := by
  simp only [State.paramOk, State.inDmem]
  decide

/-- Regions that end at 512, an empty one at 512 and no overlap. -/
theorem witness_RegionOutOfDmemRaises_inside :
    let s := { State.reset with regions := { Regions.zero with iPtr := 512, oPtr := 510, oCap := 2 } }
    (∀ x ∈ regionsOf .nwkDec, s.inDmem x) ∧ s.pairOk .nwkDec ∧
      after (exec .nwkDec s) (fun t => t.status.err) = some .none := by
  refine ⟨by simp only [State.inDmem]; decide, ?_, by decide⟩
  simp only [State.pairOk, pairOf, State.overlapping]
  decide

/-- An empty region at 513, the first of its command: P, and A with an accepted parameter. -/
theorem witness_RegionOutOfDmemRaises_first :
    let s := { State.reset with regions := { Regions.zero with pPtr := 513, aPtr := 513 } }
    (s.paramOk .nwkEnc ∧ regionsOf .nwkEnc = [] ++ .p :: [.o] ∧ ¬ s.inDmem .p) ∧
      (s.paramOk (.ccmEnc 4) ∧ regionsOf (.ccmEnc 4) = [] ++ .a :: [.m] ∧ ¬ s.inDmem .a) := by
  simp only [State.paramOk, State.inDmem]
  decide

/-- One shared byte: I and O, P and O, A and M. -/
theorem witness_OverlapRaises :
    let s := { State.reset with
      regions := { Regions.zero with iLen := 2, pLen := 2, oPtr := 1, oCap := 1, aPtr := 3, aLen := 1, mLen := 4 } }
    (s.paramOk .parse ∧ (∀ z ∈ regionsOf .parse, s.inDmem z) ∧ pairOf .parse = some (.i, .o) ∧ s.overlapping .i .o) ∧
      (s.paramOk .apsEnc ∧ (∀ z ∈ regionsOf .apsEnc, s.inDmem z) ∧ pairOf .apsEnc = some (.p, .o) ∧
        s.overlapping .p .o) ∧
      (s.paramOk (.ccmEnc 4) ∧ (∀ z ∈ regionsOf (.ccmEnc 4), s.inDmem z) ∧ pairOf (.ccmEnc 4) = some (.a, .m) ∧
        s.overlapping .a .m) := by
  simp only [State.paramOk, State.inDmem, State.overlapping]
  decide

/-- A raw cipher command and a secured encode, without a key. -/
theorem witness_MissingKeyRaises :
    let s := { records8 with kw := ⟨true, true, true, false⟩ }
    (s.Ready (.ccmEnc 4) ∧ s.keySet = false ∧ rawCipher (.ccmEnc 4)) ∧
      (s.Ready .nwkEnc ∧ s.securesNwk .nwkEnc) :=
  ⟨⟨ready rfl, rfl, trivial⟩, ready rfl, by simp only [State.securesNwk]; decide⟩

/-- No nonce source: EXTNONCE and EXTSRCP are 0. -/
theorem witness_AddressingErrorsRaise_nwk :
    let s := { records8 with nwk := { records8.nwk with secctl := 0xDF } }
    let i := Instr.compose ⟨true, true, true, true⟩ true
    s.Ready i ∧ s.keySet = true ∧ s.securesNwk i ∧ ¬ s.hasNonceSource :=
  ⟨ready rfl, rfl, by simp only [State.securesNwk]; decide, by simp only [State.hasNonceSource]; decide⟩

/-- A reserved source mode, and an unsecured NWK layer. -/
theorem witness_AddressingErrorsRaise_mac :
    let s := { State.reset with mac := { MacFields.zero with fc := 0x4000 } }
    s.Ready (.macEnc false) ∧ ¬ s.securesNwk (.macEnc false) ∧ buildsMac (.macEnc false) ∧ s.mac.reservedMode :=
  ⟨ready rfl, id, trivial, by simp only [MacFields.reservedMode]; decide⟩

theorem witness_ExhaustedCounterRaises :
    let s := { records8 with fc := 0xFFFFFFFF }
    s.Ready .nwkEnc ∧ s.securesNwk .nwkEnc ∧ s.keySet = true ∧ s.hasNonceSource ∧ ¬ buildsMac .nwkEnc ∧
      s.fc = 0xFFFFFFFF#32 :=
  ⟨ready rfl, by simp only [State.securesNwk]; decide, rfl, by simp only [State.hasNonceSource]; decide, id, rfl⟩

/-- The last byte missing: of the frame control, the sequence number, the destination PAN; of an APS and a ZCL header;
and a PARSE of the empty frame. -/
theorem witness_MalformedInputRaises :
    ((at0 [0x41] 0).Ready .macDec ∧ (at0 [0x41] 0).malformed .macDec = some (.mac, 0)) ∧
      ((at0 [0x41, 0x88] 0).Ready .macDec ∧ (at0 [0x41, 0x88] 0).malformed .macDec = some (.mac, 2)) ∧
      ((at0 [0x41, 0x88, 0x3b, 0x62] 0).Ready .macDec ∧
        (at0 [0x41, 0x88, 0x3b, 0x62] 0).malformed .macDec = some (.mac, 3)) ∧
      ((at0 [0x0c, 1, 2, 3, 4, 5, 6, 7] 0).Ready .apsDec ∧
        (at0 [0x0c, 1, 2, 3, 4, 5, 6, 7] 0).malformed .apsDec = some (.aps, 8)) ∧
      ((at0 [1, 2] 0).Ready .zclDec ∧ (at0 [1, 2] 0).malformed .zclDec = some (.zcl, 2)) ∧
      ((at0 [] 0).Ready .parse ∧ (at0 [] 0).malformed .parse = some (.mac, 0)) :=
  ⟨⟨ready rfl, by decide⟩, ⟨ready rfl, by decide⟩, ⟨ready rfl, by decide⟩, ⟨ready rfl, by decide⟩,
    ⟨ready rfl, by decide⟩, ready rfl, by decide⟩

/-- An output of 9 bytes, an O region of 9 and of 8. -/
theorem witness_OutputIsCheckedAndWritten :
    ((at0 [0xaa] 9).Ready .apsEnc ∧ (at0 [0xaa] 9).output .apsEnc = some [0, 0, 0, 0, 0, 0, 0, 0, 0xaa]) ∧
      ((at0 [0xaa] 8).Ready .apsEnc ∧ (at0 [0xaa] 8).output .apsEnc = some [0, 0, 0, 0, 0, 0, 0, 0, 0xaa]) :=
  ⟨⟨ready rfl, by decide⟩, ready rfl, by decide⟩

theorem witness_AesCommandsWriteTheirBlock :
    let s := keyed (at0 (zeros 16) 16)
    s.keySet = true ∧ 16 ≤ s.regions.oCap.toNat ∧ s.Ready .aesEnc ∧ s.Ready .aesDec :=
  ⟨rfl, by decide, ready rfl, ready rfl⟩

/-- Messages of 17 bytes and of none. -/
theorem witness_CcmEncSealsMessage :
    ((keyed (at0 auth8 17)).Ready (.ccmEnc 4) ∧ (keyed (at0 auth8 17)).keySet = true) ∧
      ((keyed (at0 [] 0)).Ready (.ccmEnc 4) ∧ (keyed (at0 [] 0)).keySet = true) :=
  ⟨⟨ready rfl, rfl⟩, ready rfl, rfl⟩

theorem witness_CcmDecOpensMessage :
    ((keyed (at0 auth8 17)).Ready (.ccmDec true 4) ∧ (keyed (at0 auth8 17)).keySet = true) ∧
      ((keyed (at0 [] 0)).Ready (.ccmDec false 4) ∧ (keyed (at0 [] 0)).keySet = true) :=
  ⟨⟨ready rfl, rfl⟩, ready rfl, rfl⟩

/-- A payload of 2 bytes in an O region of 2; an acknowledgment, whose PANC is not the derived one, and a frame with
both PAN ids equal and PANC = 0, of the least length that holds its fields. -/
theorem witness_MacDecWritesFieldsAndPayload :
    let s := at0 [0x41, 0x00, 0x10, 0xaa, 0xbb] 2
    (s.Ready .macDec ∧
      macDecode (s.bytesOf .i) = .ok (⟨0x0041, false, 0x10, 0, 0, 0, 0, 0⟩, [0xaa, 0xbb])) ∧
      macMalformedAt [0x02, 0x00, 0x3b] = none ∧
      macMalformedAt [0x01, 0x88, 0x10, 0x34, 0x12, 0xef, 0xbe, 0x34, 0x12, 0xfe, 0xca] = none :=
  ⟨⟨ready rfl, by decide⟩, by decide, by decide⟩

/-- The fields of those two frames (41_mac.md R201): no field, and a source PAN carried beside an equal one. -/
theorem test_macFieldsOf :
    macFieldsOf [0x02, 0x00, 0x3b] = ⟨0x0002, false, 0x3B, 0, 0, 0, 0, 0⟩ ∧
      macFieldsOf [0x01, 0x88, 0x10, 0x34, 0x12, 0xef, 0xbe, 0x34, 0x12, 0xfe, 0xca] =
        ⟨0x8801, true, 0x10, 0, 0x1234, 0x1234, 0xBEEF, 0xCAFE⟩ := by decide

/-- A frame of 4 bytes in an O region of 4, with and without ASEQ, and one of 10 with PANC derived from equal PAN
ids. -/
theorem witness_MacEncWritesFrame :
    let s := at0 [0xaa] 4
    let t := { at0 [0xaa] 10 with mac := ⟨0x8801, true, 0x10, 0, 0x1234, 0x1234, 0xBEEF, 0xCAFE⟩ }
    (s.Ready (.macEnc true) ∧ s.Ready (.macEnc false) ∧ ¬ s.mac.reservedMode ∧
      ({ s.mac with seq := s.seqctr + 1 }.frame (s.bytesOf .p)).length = 4) ∧
      (t.Ready (.macEnc false) ∧ ¬ t.mac.reservedMode ∧ t.mac.derivedPanc = true ∧
        (t.mac.frame (t.bytesOf .p)).length = 10) :=
  ⟨⟨ready rfl, ready rfl, by simp only [MacFields.reservedMode]; decide, by decide⟩, ready rfl,
    by simp only [MacFields.reservedMode]; decide, by decide, by decide⟩

/-- A secured frame without a key, with a write-back, and a truncated header. -/
theorem witness_NwkDecReportsEveryFrame :
    ((at0 (frame8.drop 9) 12).Ready .nwkDec ∧
        (nwkDecode (aesEnc (at0 (frame8.drop 9) 12).key.bytes) false ((at0 (frame8.drop 9) 12).bytesOf .i)).p.length ≤
          12) ∧
      ((at0 [0x48, 0x02] 2).Ready .nwkDec ∧
        (nwkDecode (aesEnc (at0 [0x48, 0x02] 2).key.bytes) false ((at0 [0x48, 0x02] 2).bytesOf .i)).p.length ≤ 2) :=
  ⟨⟨ready rfl, by decide⟩, ready rfl, by decide⟩

theorem witness_NwkEncWritesPlainFrame :
    let s := at0 [0xaa] 9
    s.Ready .nwkEnc ∧ s.nwk.fc.getLsbD 9 = false ∧
      (nwkHeaderBytes s.nwk ++ s.bytesOf .p).length ≤ s.regions.oCap.toNat :=
  ⟨ready rfl, by decide, by decide⟩

/-- The §8 NWK frame of 38 bytes in an O region of 38, at the last usable frame counter. -/
def sealing : State :=
  { keyed (at0 message8 38) with
    fc := 0xFFFFFFFE, nwk := records8.nwk, mac := records8.mac, aps := records8.aps, zcl := records8.zcl }

theorem witness_NwkEncSealsFrame :
    sealing.Ready .nwkEnc ∧ sealing.nwk.fc.getLsbD 9 = true ∧ sealing.keySet = true ∧ sealing.hasNonceSource ∧
      sealing.fc ≠ 0xFFFFFFFF#32 ∧ (nwkHeaderBytes sealing.nwk).length + 1 + 13 + 12 + 4 = 38 :=
  ⟨ready rfl, by decide, rfl, by simp only [State.hasNonceSource]; decide, by decide, by decide⟩

/-- The sealed frame is as long as its parts. -/
theorem witness_NwkEncSealsFrame_length :
    (nwkFrame (aesEnc sealing.key.bytes) sealing.nwk (sealing.bytesOf .p) sealing.fc).1.length ≤
      sealing.regions.oCap.toNat := by
  have h : nwkSec sealing.nwk.fc = true := by decide
  have hx : extNonce sealing.nwk.secctl = true := by decide
  have hh : (nwkHeaderBytes sealing.nwk).length = 8 := by decide
  have hp : sealing.regions.len .p = 12 := by decide
  simp only [nwkFrame, h, if_true, List.length_append, hh, nwkAuxBytes, hx, ccmEncrypt, leOf_length,
    ctr_length _ (aesEnc_length _), maskTag_length _ (aesEnc_length _) _ _ (cbcTag_length _ (aesEnc_length _) _ _ _),
    bytesOf_length, hp]
  decide

theorem witness_ApsZclDecWriteFieldsAndPayload :
    ((at0 [0x00, 0x0a, 0x06, 0x00, 0x04, 0x01, 0x01, 0x23, 0xaa] 1).Ready .apsDec ∧
        apsDecode ((at0 [0x00, 0x0a, 0x06, 0x00, 0x04, 0x01, 0x01, 0x23, 0xaa] 1).bytesOf .i) =
          .ok (⟨0, 0x0A, 0x0006, 0x0104, 0x01, 0x23⟩, [0xaa])) ∧
      ((at0 [1, 2, 3] 0).Ready .zclDec ∧ (at0 [1, 2, 3] 0).bytesOf .i = 1 :: 2 :: 3 :: []) :=
  ⟨⟨ready rfl, by decide⟩, ready rfl, by decide⟩

/-- Frames of 9 and of 4 bytes in O regions of 9 and of 4. -/
theorem witness_ApsZclEncWriteFrame :
    ((at0 [0xaa] 9).Ready .apsEnc ∧ (apsEncode (at0 [0xaa] 9).aps ((at0 [0xaa] 9).bytesOf .p)).length = 9) ∧
      ((at0 [0xaa] 4).Ready .zclEnc ∧ (zclEncode (at0 [0xaa] 4).zcl ((at0 [0xaa] 4).bytesOf .p)).length = 4) :=
  ⟨⟨ready rfl, by decide⟩, ready rfl, by decide⟩

/-- The result of a PARSE of the §8 frame without a key fits an O region of 12. -/
theorem witness_ParseWritesEveryLayer :
    (at0 frame8 12).Ready .parse ∧
      ∃ r, parseFn (aesEnc (at0 frame8 12).key.bytes) (at0 frame8 12).keySet ((at0 frame8 12).bytesOf .i) = .ok r ∧
        r.out.length ≤ 12 :=
  ⟨ready rfl, _, rfl, by decide⟩

/-- All four layers at the last usable frame counter, and the APS and ZCL layers alone, whose frame of 24 bytes
fits. -/
theorem witness_ComposeWritesFrame :
    (sealing.Ready (.compose ⟨true, true, true, true⟩ true) ∧ sealing.Composable ⟨true, true, true, true⟩) ∧
      (sealing.Ready (.compose ⟨false, false, true, true⟩ false) ∧ sealing.Composable ⟨false, false, true, true⟩ ∧
        (composeInner sealing ⟨false, false, true, true⟩ (sealing.bytesOf .p)).length = 24) :=
  ⟨⟨ready rfl, (composeCheck_ok_iff _ _).1 rfl⟩, ready rfl, (composeCheck_ok_iff _ _).1 rfl, by decide⟩

/-! Codecs. -/

/-- A canonical MAC command frame with both addresses and its frame. -/
theorem witness_MacRoundTrip :
    let f : MacFields := ⟨0x8843, true, 0x05, 0x04, 0x1234, 0x1234, 0xBEEF, 0xCAFE⟩
    let b : Bytes := [0x43, 0x88, 0x05, 0x34, 0x12, 0xef, 0xbe, 0xfe, 0xca, 0x04]
    f.Canonical ∧ macEncode f [] = some (b, true) ∧ macDecode b = .ok (f, []) ∧ f.fc.getLsbD 6 = f.derivedPanc :=
  ⟨by constructor <;> decide, by decide, by decide, by decide⟩

/-- A frame of each failure that no cipher decides: HDR at 7 bytes and at a short header, AUX at the header's end and
one byte past it, NONCESRC, NOKEY. -/
theorem witness_NwkDecodeFailures :
    let fails (b : Bytes) := (nwkDecode (aesEnc []) false b).f.fail
    fails ((frame8.drop 9).take 7) = .hdr ∧ fails [0x08, 0x08, 0, 0, 0, 0, 0, 0, 1, 2, 3] = .hdr ∧
      fails ((frame8.drop 9).take 8) = .aux ∧ fails ((frame8.drop 9).take 9) = .aux ∧
      fails [0x08, 0x02, 0, 0, 0x38, 0x2b, 0x1e, 0x44, 0x08, 1, 0, 0, 0, 0, 0xaa, 0x11, 0x22, 0x33, 0x44] = .nonceSrc ∧
      fails (frame8.drop 9) = .noKey := by decide

/-- When an opened frame with its own nonce source fails with MIC, and when it passes. -/
theorem nwkOpen_check (enc : Bytes → Bytes) (b n u : Bytes) (h r : Nat) (f : NwkFields)
    (he : extNonce f.secctl = true ∧ f.fail = .none ∧ nwkNonce f.secsrc f.secfc f.secctl = n ∧
      slice b (b.length - 4) 4 = u ∧ slice b r (b.length - 4 - r) = []) :
    ((nwkOpen enc true b h r f).f.fail = .mic ↔ cbcTag enc n (b.take r) [] ≠ maskTag enc n u) ∧
      ((nwkOpen enc true b h r f).auth = .pass ↔ cbcTag enc n (b.take r) [] = maskTag enc n u) := by
  obtain ⟨he, hf, rfl, rfl, hc⟩ := he
  have hd : ∀ n, (ctr enc n []).1 = [] := fun n => rfl
  unfold nwkOpen
  simp only [nonceSource, he, if_true, ccmDecrypt, hc, hd]
  by_cases ht : cbcTag enc (nwkNonce f.secsrc f.secfc f.secctl) (b.take r) [] =
      maskTag enc (nwkNonce f.secsrc f.secfc f.secctl) (slice b (b.length - 4) 4)
  · simp [ht, hf]
  · simp [ht]

/-- The §8 NWK header without ciphertext, its security-control byte uncorrected, and a MIC. -/
def micFrame (a b c d : Byte) : Bytes := auth8.set 8 0x28 ++ [a, b, c, d]

/-- Its frame control and its security-control byte. -/
theorem micFrame_head (a b c d : Byte) :
    fieldAt 16 (micFrame a b c d) 0 = 0x0248 ∧ (micFrame a b c d).getD 8 0 = 0x28 := by
  have h : slice (micFrame a b c d) 0 2 = [0x48, 0x02] := rfl
  exact ⟨by rw [fieldAt, h]; decide, rfl⟩

/-- It holds its auxiliary header and the MIC and nothing more, and its own nonce source. -/
theorem micFrame_sealed (a b c d : Byte) : nwkSealed (micFrame a b c d) ∧ nwkHasSource (micFrame a b c d) := by
  have hf : nwkFcOf (micFrame a b c d) = 0x0248 := (micFrame_head a b c d).1
  have hl : (micFrame a b c d).length = 26 := rfl
  simp only [nwkSealed, nwkHasSource, nwkAuxEnd, nwkSecctlOf, nwkHeaderEnd, nwkExtSrcAt, hf, hl]
  have h8 : (8 + if (0x0248 : Half).getLsbD 11 then 8 else 0) + (if (0x0248 : Half).getLsbD 12 then 8 else 0) = 8 := by
    decide
  rw [h8, (micFrame_head a b c d).2]
  decide

/-- It reaches CCM_DECRYPT under the §8 nonce. -/
theorem micFrame_check (enc : Bytes → Bytes) (a b c d : Byte) :
    ((nwkDecode enc true (micFrame a b c d)).f.fail = .mic ↔
        cbcTag enc nonce8 auth8 [] ≠ maskTag enc nonce8 [a, b, c, d]) ∧
      ((nwkDecode enc true (micFrame a b c d)).auth = .pass ↔
        cbcTag enc nonce8 auth8 [] = maskTag enc nonce8 [a, b, c, d]) := by
  have hh : nwkHeaderLen 0x0248 = 8 := by decide
  have hx : len8 (extNonce (0x2D : Byte)) = 8 := by decide
  have hs : nwkSec 0x0248 = true := by decide
  have hl : (micFrame a b c d).length = 26 := rfl
  have hf : slice (auth8 ++ [a, b, c, d]) 9 4 = [0x87, 0x48, 0x04, 0x00] := rfl
  have hn : slice (auth8 ++ [a, b, c, d]) 13 8 = [0xb1, 0x9d, 0xe8, 0x0b, 0x00, 0x4b, 0x12, 0x00] := rfl
  have h : nwkDecode enc true (micFrame a b c d) = nwkOpen enc true (auth8 ++ [a, b, c, d]) 8 22
      (nwkAuxFields (auth8 ++ [a, b, c, d]) 8 { nwkHeader (micFrame a b c d) with secctl := 0x2D }) := by
    unfold nwkDecode nwkDecodeSecured
    have hp : patchSec 0x28 = 0x2D := by decide
    simp only [micFrame_head, hp, hh, hx, hl, hs]
    rfl
  have he : extNonce (0x2D : Byte) = true := by decide
  rw [h]
  refine nwkOpen_check enc _ nonce8 [a, b, c, d] _ _ _ ⟨he, rfl, ?_, rfl, rfl⟩
  simp only [nwkAuxFields, he, if_true, fieldAt, hf, hn]
  decide

/-- Whatever the cipher, of two frames that differ in the MIC alone one at least fails with MIC. -/
theorem witness_NwkDecodeFailures_mic : ∃ b, (nwkDecode (aesEnc []) true b).f.fail = .mic := by
  have he := aesEnc_length []
  by_cases h : (nwkDecode (aesEnc []) true (micFrame 0 0 0 0)).f.fail = .mic
  · exact ⟨_, h⟩
  refine ⟨micFrame 1 0 0 0, ?_⟩
  rw [(micFrame_check _ _ _ _ _).1] at h ⊢
  simp only [ne_eq, not_not] at h ⊢
  intro hc
  have hm := congrArg (maskTag (aesEnc []) nonce8) (h.symm.trans hc)
  rw [maskTag_maskTag _ he _ _ rfl, maskTag_maskTag _ he _ _ rfl] at hm
  simp at hm

/-- Whatever the cipher, the frame with the masked tag of its header as MIC passes. -/
theorem witness_NwkDecodeFailures_pass :
    ∃ b, (nwkDecode (aesEnc []) true b).auth = .pass ∧ nwkSealed b ∧ nwkHasSource b := by
  have he := aesEnc_length []
  have hl := maskTag_length _ he nonce8 _ (cbcTag_length _ he nonce8 auth8 [])
  have hm := maskTag_maskTag _ he nonce8 _ (cbcTag_length _ he nonce8 auth8 [])
  match hu : maskTag (aesEnc []) nonce8 (cbcTag (aesEnc []) nonce8 auth8 []) with
  | [a, b, c, d] =>
    refine ⟨micFrame a b c d, ?_, micFrame_sealed a b c d⟩
    rw [(micFrame_check _ _ _ _ _).2, ← hu, hm]
  | [] => rw [hu] at hl; cases hl
  | [_] => rw [hu] at hl; cases hl
  | [_, _] => rw [hu] at hl; cases hl
  | [_, _, _] => rw [hu] at hl; cases hl
  | _ :: _ :: _ :: _ :: _ :: _ => rw [hu] at hl; simp at hl

/-- Sealed frames at the boundary: a frame that holds its auxiliary header and the MIC and no ciphertext, and one byte
less. -/
theorem witness_NwkDecodeFailures_sealed :
    nwkSealed (micFrame 0 0 0 0) ∧ ¬ nwkSealed ((micFrame 0 0 0 0).take 25) ∧ nwkHasSource (micFrame 0 0 0 0) ∧
      nwkSecctlOf (micFrame 0 0 0 0) = 0x2D := by
  simp only [nwkSealed, nwkHasSource]
  decide

theorem witness_NwkRoundTrip :
    let f := { records8.nwk with keyseq := 7 }
    f.Canonical ∧ ∃ b u, nwkEncode (aesEnc []) f message8 true f.secfc = .ok (b, some u) :=
  ⟨by constructor <;> decide, _, _, rfl⟩

/-- An unsecured canonical record with both extended addresses. -/
theorem witness_NwkRoundTrip_plain :
    let f := { NwkFields.zero with fc := 0x1808, valid := true, extdst := 1, extsrc := 2 }
    f.Canonical ∧ ∃ b, nwkEncode (aesEnc []) f [] true f.secfc = .ok (b, none) :=
  ⟨by constructor <;> decide, _, rfl⟩

theorem witness_ApsZclRoundTrip :
    let f : ApsFields := ⟨0x00, 0x00FF, 1, 2, 3, 4⟩
    f.Canonical ∧ apsDecode (apsEncode f [5]) = .ok (f, [5]) ∧ 3 ≤ ([1, 2, 3] : Bytes).length :=
  ⟨by unfold ApsFields.Canonical; decide, by decide, by decide⟩

/-- A MIC that the sealed one is not, and both outcomes of the check. -/
theorem witness_CcmDecryptInvertsEncrypt :
    let e := aesEnc []
    (∃ u : Bytes, u.length = 4 ∧ u ≠ (ccmEncrypt e nonce8 auth8 message8).u) ∧
      (∃ u, cbcTag e nonce8 auth8 (ctr e nonce8 []).1 = xorBytes u ((e nonce8).take 4)) ∧
      ∃ u, cbcTag e nonce8 auth8 (ctr e nonce8 []).1 ≠ xorBytes u ((e nonce8).take 4) := by
  intro e
  have he : ∀ b, (e b).length = 16 := aesEnc_length []
  refine ⟨?_, ⟨_, (maskTag_maskTag e he nonce8 _ (cbcTag_length e he nonce8 auth8 _)).symm⟩, [], fun h => ?_⟩
  · by_cases h : [0, 0, 0, 0] = (ccmEncrypt e nonce8 auth8 message8).u
    · exact ⟨[1, 0, 0, 0], rfl, fun h1 => by rw [← h] at h1; simp at h1⟩
    · exact ⟨_, rfl, h⟩
  · have := congrArg List.length h
    rw [cbcTag_length e he] at this
    simp [xorBytes] at this

/-- Strings of 14 and 16 bytes, and of 1. -/
theorem witness_MicOfOneBlockEach :
    nonce8.length = 16 ∧ 0 < (zeros 14).length ∧ (zeros 14).length ≤ 14 ∧ 0 < (zeros 16).length ∧
      (zeros 16).length ≤ 16 ∧ 0 < (zeros 1).length := by decide

/-- The last byte of a first block and the first of a second one. -/
theorem witness_CounterPassLaws : nonce8.length = 16 ∧ 15 < (zeros 17).length ∧ 16 < (zeros 17).length := by decide

/-- A MAC acknowledgment, and a data frame around each NWK and APS case of the descent. -/
theorem witness_ParseDescends :
    let mac : Bytes := [0x41, 0x00, 0x10]
    let nwk : Bytes := [0x08, 0x00, 0xfd, 0xff, 0x38, 0x2b, 0x1e, 0x44]
    let aps : Bytes := [0x00, 0x0a, 0x06, 0x00, 0x04, 0x01, 0x01, 0x23]
    let run (b : Bytes) := (parseFn (aesEnc []) false b).toOption.map fun r => (r.depth, r.dfail, r.route)
    run [0x02, 0x00, 0x3b] = some (.mac, false, .raw) ∧ run mac = some (.mac, true, .raw) ∧
      run (mac ++ frame8.drop 9) = some (.nwk, true, .raw) ∧
      run (mac ++ nwk.set 0 0x09) = some (.nwk, false, .raw) ∧ run (mac ++ nwk) = some (.nwk, true, .raw) ∧
      run (mac ++ nwk ++ aps.set 4 0x05) = some (.aps, false, .raw) ∧
      run (mac ++ nwk ++ aps ++ [1, 2]) = some (.aps, true, .zcl) ∧
      run (mac ++ nwk ++ aps ++ [1, 2, 3]) = some (.zcl, false, .zcl) := by decide

/-- The join-management route. -/
theorem witness_ParseReport :
    ((parseFn (aesEnc []) false ([0x41, 0x00, 0x10, 0x08, 0x00, 0xfd, 0xff, 0x38, 0x2b, 0x1e, 0x44] ++
      [0x40, 0x00, 0x36, 0x00, 0x00, 0x00, 0x00, 0x05])).toOption.map fun r => (r.depth, r.route)) =
      some (.aps, .joinMgmt) := by decide

theorem witness_ParseInvertsCompose :
    let s := { records8 with fc := 0x00044887 }
    s.mac.Canonical ∧ s.nwk.Canonical ∧ s.aps.Canonical ∧ s.mac.fc.extractLsb' 0 3 = 1#3 ∧
      s.nwk.fc.extractLsb' 0 2 = 0#2 ∧ s.nwk.fc.getLsbD 9 = true ∧ s.aps.profile = 0x0104#16 ∧ s.fc = s.nwk.secfc ∧
      s.Composable ⟨true, true, true, true⟩ :=
  ⟨by constructor <;> decide, by constructor <;> decide, by unfold ApsFields.Canonical; decide, by decide, by decide,
    by decide, by decide, by decide, (composeCheck_ok_iff _ _).1 rfl⟩

/-! Frames and the host's side. -/

/-- A secured encode at the last usable frame counter answers a next state without an error. -/
theorem witness_FrameCounterNeverRepeats :
    ∃ t, exec .nwkEnc sealing = .next t ∧ sealing.securesNwk .nwkEnc ∧ t.status.err = .none ∧
      securedEncodes 0xFFFFFFFE [(sealing, .nwkEnc, t)] t.fc := by
  have hl := witness_NwkEncSealsFrame_length
  have he : nwkEncode (aesEnc sealing.key.bytes) sealing.nwk (sealing.bytesOf .p) sealing.keySet sealing.fc =
      .ok (nwkFrame (aesEnc sealing.key.bytes) sealing.nwk (sealing.bytesOf .p) sealing.fc) := rfl
  have hs : sealing.securesNwk .nwkEnc := by simp only [State.securesNwk]; decide
  have hx := exec_ready .nwkEnc sealing (ready rfl)
  have hr : ∀ u, (putNwkUpdate sealing u).regions = sealing.regions := fun u => by cases u <;> rfl
  simp only [coreOf, State.cipher, he] at hx
  rw [finish_emit _ _ _ _ (by rw [hr]; exact hl)] at hx
  exact ⟨_, hx, hs, rfl, rfl, hs, hx, rfl, rfl⟩

/-- An encode that assigns a sequence number, and a command without an output. -/
theorem witness_CommandsKeepOtherRegisters :
    (assignsSeq (.macEnc true) ∧ after (exec (.macEnc true) (at0 [] 3)) (fun t => t.status.err) = some .none) ∧
      (exec .nop State.reset = .next (State.reset.succeeded .notChecked) ∧ ¬ hasOutput .nop) :=
  ⟨⟨rfl, by decide⟩, rfl, by unfold hasOutput; decide⟩

/-- A byte of O changes, and two memories agree on the inputs: P is empty. -/
theorem witness_EngineAccessesOnlyItsRegions :
    let s := { at0 [] 3 with zcl := ⟨1, 2, 3⟩ }
    after (exec .zclEnc s) (fun t => (t.dmem.read 0x100, s.dmem.read 0x100)) = some (1, 0) ∧
      ∀ x ∈ regionsOf .zclEnc, x ≠ .o → ∀ a, s.covers x a → Dmem.read ⟨[(5, 6)], []⟩ a = s.dmem.read a := by
  refine ⟨by decide, fun x hx ho a ha => ?_⟩
  simp only [regionsOf, List.mem_cons, List.not_mem_nil, or_false] at hx
  rcases hx with rfl | rfl
  · exfalso
    simp only [State.covers, Regions.ptr, Regions.len, at0, Regions.zero, List.length_nil] at ha
    have h0 : (BitVec.ofNat 16 0).toNat = 0 := rfl
    omega
  · exact absurd rfl ho

/-- The write-back bytes of NWK_DEC and PARSE, which both change there; a PARSE of an unsecured frame has none. -/
theorem witness_EngineAccessesOnlyItsRegions_writeBack :
    ((at0 (frame8.drop 9) 64).writesBack .nwkDec 8 ∧
        after (exec .nwkDec (at0 (frame8.drop 9) 64)) (fun t => t.dmem.read 8) = some 0x2D) ∧
      ((at0 frame8 64).writesBack .parse 17 ∧ ¬ (at0 frame8 64).writesBack .parse 16 ∧
        after (exec .parse (at0 frame8 64)) (fun t => t.dmem.read 17) = some 0x2D) ∧
      ¬ (at0 [0x41, 0x00, 0x10, 0x08, 0x00, 0xfd, 0xff, 0x38, 0x2b, 0x1e, 0x44, 0x28] 64).writesBack .parse 11 := by
  simp only [State.writesBack, State.inDmem]
  decide

theorem witness_KeyUnusedAndUnread :
    State.reset.keySet = false ∧ exec .nop State.reset = .next (State.reset.succeeded .notChecked) := ⟨rfl, rfl⟩

theorem witness_CmdWriteIsAcceptedOrDropped :
    State.reset.status.busy = false ∧ (due 0 State.reset).status.busy = true ∧ (due 0 State.reset).wait = 0 ∧
      step (due 0 State.reset) = .next ((due 0 State.reset).succeeded .notChecked) := ⟨rfl, rfl, rfl, rfl⟩

/-- Byte access to a register, misaligned and reserved offsets, past the last register and past DMEM; the last
register and the last bytes of DMEM are permitted; ERR_INFO is not writable in BUSY, CTRL is. -/
theorem witness_RefusedAccessOnlySetsBuserr :
    (¬ permitted .w8 0x000 ∧ ¬ permitted .w32 0x002 ∧ ¬ permitted .w32 0x03C ∧ ¬ permitted .w32 0x174 ∧
      ¬ permitted .w32 0x3FC ∧ ¬ permitted .w8 0x600 ∧ ¬ permitted .w16 0x5FF) ∧
      (permitted .w32 0x170 ∧ permitted .w8 0x5FF ∧ permitted .w16 0x5FE ∧ permitted .w32 0x5FC) ∧
      (due 0 State.reset).status.busy = true ∧ ¬ writableBusy 0x00C ∧ writableBusy 0x008 := by
  simp [permitted, reservedOffset, writableBusy, due]

/-- STATUS, CTRL, CMD, KEY0, KEY3, NONCE0 and DMEM in BUSY. -/
theorem witness_ReadsWhileBusy :
    (due 0 State.reset).status.busy = true ∧ permitted .w32 (0x004#12).toNat ∧ permitted .w32 (0x008#12).toNat ∧
      permitted .w32 (0x000#12).toNat ∧ permitted .w32 (0x010#12).toNat ∧ permitted .w32 (0x01C#12).toNat ∧
      permitted .w32 (0x020#12).toNat ∧ permitted .w8 (0x400#12).toNat := by
  simp [permitted, reservedOffset, due, State.reset, Status.zero]

theorem witness_RegisterHoldsItsRwBits :
    State.reset.status.busy = false ∧ regAt (0x00C#12).toNat = some .errInfo ∧ regAt (0x170#12).toNat = some .zclHdr ∧
      (Reg.zclHdr ≠ .cmd ∧ Reg.zclHdr ≠ .status ∧ Reg.zclHdr ≠ .ctrl ∧ ∀ k, Reg.zclHdr ≠ .key k) ∧
      regAt (0x010#12).toNat = some (.key 0) ∧ regAt (0x01C#12).toNat = some (.key 3) := by decide

/-- A write of KEY3 in IDLE sets its bit, and stores its value when the bit is set already. -/
theorem witness_KeySetFollowsKeyWrites :
    let s := { State.reset with inbox := [.write .w32 0x01C 7] }
    (s.status.busy = false ∧ s.kw.get 3 = false ∧
      after (step s) (fun t => (t.kw.get 3, t.key.get 3)) = some (true, 7)) ∧
      ((keyed s).status.busy = false ∧ (keyed s).kw.get 3 = true ∧
        after (step (keyed s)) (fun t => (t.key.get 3, t.key.get 0)) = some (7, 0)) := by
  decide

/-- The first and the last byte, half and word of DMEM. -/
theorem witness_DmemAccessIsLittleEndian :
    State.reset.status.busy = false ∧ (0x400 ≤ (0x400#12).toNat ∧ permitted .w32 (0x400#12).toNat) ∧
      (0x400 ≤ (0x5FF#12).toNat ∧ permitted .w8 (0x5FF#12).toNat) ∧
      (0x400 ≤ (0x5FE#12).toNat ∧ permitted .w16 (0x5FE#12).toNat) ∧
      (0x400 ≤ (0x5FC#12).toNat ∧ permitted .w32 (0x5FC#12).toNat) := by
  simp [permitted, reservedOffset, State.reset, Status.zero]

theorem witness_SoftResetKeepsKeyAndCounter :
    State.reset.status.busy = false ∧ (2#32).getLsbD 1 = true ∧ (1#32).getLsbD 1 = false := by decide

/-- An aborted secured encode, the same without a key, an aborted PARSE and an aborted illegal word. -/
theorem witness_AbortTouchesOnlyTheCommandsBytes :
    let s := due 0x31 sealing
    (s.status.busy = true ∧ (3#32).getLsbD 1 = true ∧ decode s.cur = .ok .nwkEnc ∧ s.securesNwk .nwkEnc ∧
      s.keySet = true ∧ s.fc ≠ 0xFFFFFFFF#32) ∧
      ((due 0x60 (at0 frame8 64)).status.busy = true ∧ decode (due 0x60 (at0 frame8 64)).cur = .ok .parse ∧
        (due 0x60 (at0 frame8 64)).keySet = false) ∧
      (due 0xFF sealing).status.busy = true ∧ illegalWord (due 0xFF sealing).cur :=
  ⟨⟨rfl, by decide, by decide, by simp only [State.securesNwk]; decide, rfl, by decide⟩, ⟨rfl, by decide, rfl⟩, rfl,
    .inl (by decide)⟩

theorem witness_HardwareResetValues : State.reset ∈ [State.reset, hardReset sealing] := by simp

theorem witness_InterruptFollowsDone :
    (due 0 State.reset).status.busy = true ∧ (due 0 State.reset).wait = 0 ∧
      step (due 0 State.reset) = .next ((due 0 State.reset).succeeded .notChecked) ∧ State.reset.status.busy = false ∧
      (2#32).getLsbD 1 = true ∧ (2#32).getLsbD 0 = false := ⟨rfl, rfl, rfl, rfl, by decide, by decide⟩

theorem witness_StepKeepsInvariant :
    (due 0 State.reset).Inv ∧ step (due 0 State.reset) = .next ((due 0 State.reset).succeeded .notChecked) :=
  ⟨by constructor <;> decide, rfl⟩

end Sys2Proof.Tests
end

section
/-! What a step is in each of its three cases, and that it answers a next state in each. -/

namespace Sys2Proof.Machine

/-- While no command is due, the step is the host's turn (20_memory.md R93). -/
theorem step_of_not_completing (s : State) (h : s.completing = false) : step s = .next (hostTurn s) := by
  simp [step, h]

/-- A due word that decodes is executed (60_exceptions.md R337). -/
theorem step_of_decodes (s : State) (i : Instr) (h : s.completing = true) (hd : decode s.cur = .ok i) :
    step s = exec i s := by
  simp [step, fetch, h, hd]

/-- A due word that the decoder refuses raises ILLEGAL_CMD and has no other effect (30_encoding.md R113, R116). -/
theorem step_of_decode_error (s : State) (e : Reject) (h : s.completing = true) (hd : decode s.cur = .error e) :
    step s = .next (s.raised .illegalCmd .none 0) := by
  simp only [step, fetch, h, hd, if_true]
  rfl

/-- No command stops the machine: the checks shut out every access past DMEM, so that what is left is an error
completion or a success (00_scope.md R15). -/
theorem exec_answers_next (i : Instr) (s : State) : ∃ t, exec i s = .next t := by
  obtain ⟨c, l, o, h, -, -⟩ | ⟨t, r, -, -, h⟩ := exec_cases i s
  · exact ⟨s.raised c l o, h⟩
  · exact ⟨t.complete r, h⟩

/-- Settles O8: the host's turn answers by definition, an illegal word completes, and a decoded command answers by
`exec_answers_next`. -/
theorem everyStepAnswersNext : Obligations.EveryStepAnswersNext := by
  intro s
  cases hc : s.completing with
  | false => exact ⟨hostTurn s, step_of_not_completing s hc⟩
  | true =>
    cases hd : decode s.cur with
    | error e => exact ⟨s.raised .illegalCmd .none 0, step_of_decode_error s e hc hd⟩
    | ok i =>
      obtain ⟨t, ht⟩ := exec_answers_next i s
      exact ⟨t, (step_of_decodes s i hc hd).trans ht⟩

end Sys2Proof.Machine
end

section
/-! No command uses the KEY words while KEY_SET = 0, and no host read shows them (10_state.md R40). Every use of the
cipher stands behind a check of KEY_SET; each lemma says so of one function, `coreOf_withKey` of a whole command. -/

namespace Sys2Proof.Machine

/-- `s` with other KEY words. -/
def State.withKey (s : State) (key : Words4) : State := { s with key := key }

/-- The result of a command's body with other KEY words. -/
def withKeyResult (key : Words4) (p : State × Report) : State × Report := (p.1.withKey key, p.2)

/-- A NWK decode without a key does not run the cipher: the frame is reported with FAIL = NOKEY (42_nwk.md R241). -/
theorem nwkDecode_noKey (enc enc' : Bytes → Bytes) (b : Bytes) : nwkDecode enc false b = nwkDecode enc' false b := by
  have hopen : ∀ c h r f, nwkOpen enc false c h r f = nwkOpen enc' false c h r f := by
    intro c h r f
    unfold nwkOpen
    cases nonceSource f f.secctl <;> rfl
  simp only [nwkDecode, nwkDecodeSecured, hopen]

/-- A parse without a key does not run the cipher. -/
theorem parseFn_noKey (enc enc' : Bytes → Bytes) (b : Bytes) : parseFn enc false b = parseFn enc' false b := by
  simp only [parseFn, nwkDecode_noKey enc enc']

/-- An unsecured NWK frame does not run the cipher (42_nwk.md R244). -/
theorem nwkFrame_unsecured (enc enc' : Bytes → Bytes) (f : NwkFields) (pl : Bytes) (c : Word)
    (h : nwkSec f.fc = false) : nwkFrame enc f pl c = nwkFrame enc' f pl c := by
  simp [nwkFrame, h]

/-- A NWK encode without a key does not run the cipher: a secured one raises NOKEY first (42_nwk.md R244). -/
theorem nwkEncode_noKey (enc enc' : Bytes → Bytes) (f : NwkFields) (pl : Bytes) (c : Word) :
    nwkEncode enc f pl false c = nwkEncode enc' f pl false c := by
  cases h : nwkSec f.fc with
  | true => simp [nwkEncode, nwkNoKey, h]
  | false => simp only [nwkEncode, nwkFrame_unsecured enc enc' f pl c h]

/-- A composable command without a key builds no secured NWK layer, so it does not run the cipher (44_facade.md
R312). -/
theorem composeNwk_noKey (enc enc' : Bytes → Bytes) (s : State) (l : LayerSet) (pl : Bytes) (hk : s.keySet = false)
    (hc : s.Composable l) : composeNwk enc s l pl = composeNwk enc' s l pl := by
  unfold composeNwk
  cases hn : l.nwk with
  | false => rfl
  | true =>
    have hsec : nwkSec s.nwk.fc = false := by
      by_contra h
      exact absurd (hc.key hn (by simpa [nwkSec] using h)) (by simp [hk])
    exact nwkFrame_unsecured enc enc' _ _ _ hsec

theorem putNonce_withKey (s : State) (key : Words4) (n : Option Bytes) :
    putNonce (s.withKey key) n = (putNonce s n).withKey key := by cases n <;> rfl

theorem wroteBack_withKey (s : State) (key : Words4) (wb : Option (Nat × Byte)) :
    wroteBack (s.withKey key) wb = (wroteBack s wb).withKey key := by cases wb <;> rfl

theorem putParsed_withKey (s : State) (key : Words4) (r : ParseResult) :
    putParsed (s.withKey key) r = (putParsed s r).withKey key :=
  putNonce_withKey { s with mac := r.mac, nwk := r.nwk, aps := r.aps, zcl := r.zcl } key r.nonce

theorem putNwkUpdate_withKey (s : State) (key : Words4) (u : Option NwkUpdate) :
    putNwkUpdate (s.withKey key) u = (putNwkUpdate s u).withKey key := by cases u <;> rfl

theorem putMacEncoded_withKey (s : State) (key : Words4) (aseq panc : Bool) :
    putMacEncoded (s.withKey key) aseq panc = (putMacEncoded s aseq panc).withKey key := by cases aseq <;> rfl

theorem putComposed_withKey (s : State) (key : Words4) (l : LayerSet) (aseq : Bool) (u : Option NwkUpdate) :
    putComposed (s.withKey key) l aseq u = (putComposed s l aseq u).withKey key := by
  unfold putComposed
  cases l.mac with
  | false => exact putNwkUpdate_withKey s key u
  | true =>
    show putMacEncoded (putNwkUpdate (s.withKey key) u) aseq _ = _
    rw [putNwkUpdate_withKey, putMacEncoded_withKey]
    rfl

/-- The output of a command is checked and written alike under other KEY words (30_encoding.md R126). -/
theorem emit_withKey (u : State) (key : Words4) (out : Bytes) (r : Report) :
    emit (u.withKey key) out r = (emit u out r).map (withKeyResult key) := by
  unfold emit
  by_cases h : out.length ≤ u.regions.len .o
  · rw [if_pos h, if_pos (show out.length ≤ (u.withKey key).regions.len .o from h)]
    rfl
  · rw [if_neg h, if_neg (show ¬ out.length ≤ (u.withKey key).regions.len .o from h)]
    rfl

@[simp] theorem withKey_bytesOf (s : State) (key : Words4) (x : Region) :
    (s.withKey key).bytesOf x = s.bytesOf x := rfl
@[simp] theorem withKey_nwk (s : State) (key : Words4) : (s.withKey key).nwk = s.nwk := rfl
@[simp] theorem withKey_fc (s : State) (key : Words4) : (s.withKey key).fc = s.fc := rfl
@[simp] theorem withKey_status (s : State) (key : Words4) : (s.withKey key).status = s.status := rfl

/-- The core of a command runs alike under other KEY words while KEY_SET = 0 (10_state.md R40). -/
theorem coreOf_withKey (i : Instr) (s : State) (key : Words4) (hk : s.keySet = false) :
    coreOf i (s.withKey key) = (coreOf i s).map (withKeyResult key) := by
  have hk' : (s.withKey key).keySet = false := hk
  cases i <;> simp only [coreOf, withKey_bytesOf, hk, hk']
  case nop => rfl
  case aesEnc => rfl
  case aesDec => rfl
  case ccmEnc => rfl
  case ccmDec => rfl
  case macDec =>
    cases macDecode (s.bytesOf .i) with
    | error off => rfl
    | ok r => exact emit_withKey { s with mac := r.1 } key r.2 {}
  case macEnc aseq =>
    rw [show macOperand (s.withKey key) aseq = macOperand s aseq from rfl]
    cases macEncode (macOperand s aseq) (s.bytesOf .p) with
    | none => rfl
    | some r =>
      simp only [putMacEncoded_withKey]
      exact emit_withKey _ key r.1 {}
  case nwkDec =>
    rw [nwkDecode_noKey (s.withKey key).cipher s.cipher]
    generalize nwkDecode s.cipher false (s.bytesOf .i) = r
    rw [show { s.withKey key with nwk := r.f } = State.withKey { s with nwk := r.f } key from rfl,
      putNonce_withKey, wroteBack_withKey]
    exact emit_withKey _ key r.p _
  case nwkEnc =>
    simp only [withKey_nwk, withKey_fc, nwkEncode_noKey (s.withKey key).cipher s.cipher]
    cases nwkEncode s.cipher s.nwk (s.bytesOf .p) false s.fc with
    | error e => cases e <;> rfl
    | ok r =>
      simp only [putNwkUpdate_withKey]
      exact emit_withKey _ key r.1 {}
  case apsDec =>
    cases apsDecode (s.bytesOf .i) with
    | error off => rfl
    | ok r => exact emit_withKey { s with aps := r.1 } key r.2 {}
  case apsEnc => exact emit_withKey s key _ {}
  case zclDec =>
    cases zclDecode (s.bytesOf .i) with
    | error off => rfl
    | ok r => exact emit_withKey { s with zcl := r.1 } key r.2 {}
  case zclEnc => exact emit_withKey s key _ {}
  case parse =>
    rw [parseFn_noKey (s.withKey key).cipher s.cipher]
    cases parseFn s.cipher false (s.bytesOf .i) with
    | error off => rfl
    | ok r =>
      simp only [putParsed_withKey, wroteBack_withKey]
      exact emit_withKey _ key r.out r.report
  case compose l aseq =>
    rw [show composeCheck (s.withKey key) l = composeCheck s l from rfl]
    cases hc : composeCheck s l with
    | error e => rfl
    | ok _ =>
      have hn := composeNwk_noKey (s.withKey key).cipher s.cipher s l (s.bytesOf .p) hk ((composeCheck_ok_iff s l).1 hc)
      have hw : composeNwk (s.withKey key).cipher (s.withKey key) l (s.bytesOf .p) =
          composeNwk s.cipher s l (s.bytesOf .p) := hn
      have hf : composeFrame (s.withKey key).cipher (s.withKey key) l aseq (s.bytesOf .p) =
          composeFrame s.cipher s l aseq (s.bytesOf .p) := by
        simp only [composeFrame, hw]
        rfl
      simp only [ok_bind, hw, hf, putComposed_withKey]
      exact emit_withKey _ key _ {}

/-- The end of a command is the same under other KEY words (60_exceptions.md R333). -/
theorem finish_withKey (s t : State) (key : Words4) (body : Except Halt (State × Report))
    (h : s.finish body = .next t) : (s.withKey key).finish (body.map (withKeyResult key)) = .next (t.withKey key) := by
  match body, h with
  | .ok _, h => injection h with h; subst h; rfl
  | .error (.error _), h => injection h with h; subst h; rfl

/-- A register reads alike under other KEY words: KEY itself reads 0 (10_state.md R40). -/
theorem readReg_withKey (s : State) (key : Words4) (r : Reg) : readReg (s.withKey key) r = readReg s r := by
  cases r <;> rfl

/-- Settles O47: a command is its checks, which do not look at KEY, then its core, which runs alike; a host read reaches
a register or DMEM, neither of which shows KEY. -/
theorem keyUnusedAndUnread : Obligations.KeyUnusedAndUnread := by
  refine ⟨fun i s t key hk h => ?_, fun s key width off => ?_⟩
  · show exec i (s.withKey key) = .next (t.withKey key)
    rw [exec_eq] at h ⊢
    have hbody : (checks i (s.withKey key) >>= fun _ => coreOf i (s.withKey key)) =
        (checks i s >>= fun _ => coreOf i s).map (withKeyResult key) := by
      rw [coreOf_withKey i s key hk, show checks i (s.withKey key) = checks i s from rfl]
      cases checks i s <;> rfl
    rw [hbody]
    exact finish_withKey s t key _ h
  · show hostRead (s.withKey key) width off = (hostRead s width off).withKey key
    unfold hostRead
    cases target width off with
    | none => rfl
    | some x =>
      cases x with
      | reg r =>
        simp only [readReg_withKey, withKey_status]
        split <;> rfl
      | dmem a =>
        cases hb : s.status.busy <;> simp only [withKey_status, hb] <;> rfl

end Sys2Proof.Machine
end

section
/-! What an input of the host does, said once: every effect it can have on the state (20_memory.md R83 to R89), and
where the registers stand. -/

namespace Sys2Proof.Machine

/-- The registers stand below 0x200 (10_state.md R34, R47). -/
theorem regAt_lt (n : Nat) (r : Reg) (h : regAt n = some r) : n < 0x200 := by
  have hall : ∀ e ∈ csrMap ++ fieldMap, e.1 < 0x200 := by decide
  exact hall _ (regAt_mem n r h)

/-- KEY word k stands at 0x010 + 4k (10_state.md R34). -/
theorem regAt_key (n : Nat) (k : Fin 4) (h : regAt n = some (.key k)) : n = 0x010 + 4 * k.val := by
  have hm := regAt_mem n (.key k) h
  fin_cases k <;> simpa [csrMap, fieldMap] using hm

/-- A 32-bit access at a register's offset reaches it. -/
theorem target_w32 (off : BitVec 12) (r : Reg) (h : regAt off.toNat = some r) :
    target .w32 off = some (.reg r) := by
  simp [target, regAt_lt _ r h, h]

/-- A host write to a register (20_memory.md R87, R89). -/
theorem hostWrite_reg (s : State) (off : BitVec 12) (v : Word) (r : Reg) (h : regAt off.toNat = some r) :
    hostWrite s .w32 off v = writeTarget s v r := by
  simp [hostWrite, target_w32 off r h]

/-- A write to a register that is no event is stored in IDLE and refused in BUSY (20_memory.md R87, R89). -/
theorem writeTarget_eq (s : State) (v : Word) (r : Reg) (hcmd : r ≠ .cmd) (hstatus : r ≠ .status) (hctrl : r ≠ .ctrl) :
    writeTarget s v r = if s.status.busy then s.refuseAccess else writeReg s v r := by
  cases r with
  | cmd => exact absurd rfl hcmd
  | status => exact absurd rfl hstatus
  | ctrl => exact absurd rfl hctrl
  | _ => rfl

/-- A host read of a register in IDLE returns its value (20_memory.md R83). -/
theorem hostRead_reg (s : State) (off : BitVec 12) (r : Reg) (h : regAt off.toNat = some r)
    (hidle : s.status.busy = false) : hostRead s .w32 off = s.answer (readReg s r) := by
  simp [hostRead, target_w32 off r h, hidle]

/-- A host read moves BUSERR and the model's own fields alone (20_memory.md R87, R89). -/
theorem hostRead_eq (s : State) (width : AccessWidth) (off : BitVec 12) :
    ∃ b v n, hostRead s width off = { s with status := { s.status with buserr := b }, busData := v, draws := n } := by
  unfold hostRead
  cases target width off with
  | none => exact ⟨true, 0, s.draws, rfl⟩
  | some x =>
    cases x with
    | reg r =>
      simp only
      split
      · exact ⟨_, _, _, rfl⟩
      · exact ⟨_, _, _, rfl⟩
    | dmem a =>
      simp only
      split
      · exact ⟨_, _, _, rfl⟩
      · exact ⟨_, _, _, rfl⟩

/-- The host's turn without an input (20_memory.md R93). -/
theorem hostTurn_nil (s : State) (h : s.inbox = []) : hostTurn s = { s with wait := s.wait - 1 } := by
  unfold hostTurn
  rw [h]

/-- The host's turn takes its next input (20_memory.md R93). -/
theorem hostTurn_cons (s : State) (x : HostInput) (rest : List HostInput) (h : s.inbox = x :: rest) :
    hostTurn s = State.take { s with wait := s.wait - 1, inbox := rest } x := by
  unfold hostTurn
  rw [h]

/-- The effects an input of the host can have. -/
inductive HostEffect (s : State) : HostInput → State → Prop
  /-- A read, or a refused access: BUSERR, the data of the read and the count of free values. -/
  | bus (x : HostInput) (b : Bool) (v : Word) (n : Nat) :
    HostEffect s x { s with status := { s.status with buserr := b }, busData := v, draws := n }
  /-- A CMD write. -/
  | command (x : HostInput) (w : Word) : HostEffect s x (writeCmd s w)
  /-- A CTRL write. -/
  | control (x : HostInput) (v : Word) : HostEffect s x (writeCtrl s v)
  /-- A STATUS write. -/
  | status (x : HostInput) (v : Word) : HostEffect s x (writeReg s v .status)
  /-- A write to any other register, in IDLE. -/
  | register (off : BitVec 12) (v : Word) (r : Reg) (hat : regAt off.toNat = some r) (hr : r ≠ .status)
      (hidle : s.status.busy = false) : HostEffect s (.write .w32 off v) (writeReg s v r)
  /-- A write to DMEM. -/
  | memory (x : HostInput) (width : AccessWidth) (a : Nat) (v : Word) (ha : a + width.bytes ≤ 512) :
    HostEffect s x { s with dmem := dmemStore s.dmem width a v }
  /-- Hardware reset. -/
  | reset : HostEffect s .hardReset (hardReset s)

/-- Every input of the host has one of these effects. -/
theorem take_effect (s : State) (x : HostInput) : HostEffect s x (s.take x) := by
  cases x with
  | hardReset => exact .reset
  | read width off =>
    obtain ⟨b, v, n, h⟩ := hostRead_eq s width off
    exact (show s.take (.read width off) = _ from h) ▸ HostEffect.bus _ b v n
  | write width off v =>
    show HostEffect s (.write width off v) (hostWrite s width off v)
    have hrefused : HostEffect s (.write width off v) s.refuseAccess := .bus _ true s.busData s.draws
    cases ht : target width off with
    | none => simpa [hostWrite, ht] using hrefused
    | some y =>
      cases y with
      | dmem a =>
        simp only [hostWrite, ht]
        split
        · exact hrefused
        · exact .memory _ width a v (target_dmem width off a ht).2
      | reg r =>
        obtain ⟨rfl, hat⟩ := target_reg width off r ht
        rw [hostWrite_reg s off v r hat]
        by_cases hcmd : r = .cmd
        · exact hcmd ▸ .command _ v
        by_cases hctrl : r = .ctrl
        · exact hctrl ▸ .control _ v
        by_cases hstatus : r = .status
        · exact hstatus ▸ .status _ v
        rw [writeTarget_eq s v r hcmd hstatus hctrl]
        cases hb : s.status.busy with
        | true => exact hrefused
        | false => exact .register off v r hat hstatus hb

end Sys2Proof.Machine
end

section
/-! What the invariant needs of the decoders: the payload of a NWK decode, the failure of a valid frame, and the route,
depth and offset a parse reports. -/

namespace Sys2Proof.Machine

theorem slice_length_le (b : Bytes) (i n : Nat) : (slice b i n).length ≤ b.length := by
  simp only [slice, List.length_take, List.length_drop]
  omega

/-- The security step's payload is no longer than the frame, and a valid frame has no failure (42_nwk.md R231, R233). -/
theorem nwkOpen_sound (enc : Bytes → Bytes) (keyset : Bool) (b : Bytes) (h r : Nat) (f : NwkFields)
    (henc : ∀ b, (enc b).length = 16) (hv : f.valid = false) (hf : f.fail = .none) :
    let o := nwkOpen enc keyset b h r f
    o.p.length ≤ b.length ∧ (o.f.valid = true → o.f.fail = .none) := by
  have hc := slice_length_le b r (b.length - 4 - r)
  simp only [nwkOpen]
  split
  · exact ⟨hc, by simp [hv]⟩
  · split
    · split
      · exact ⟨(ctr_length enc henc _ _).trans_le hc, fun _ => hf⟩
      · exact ⟨hc, by simp [hv]⟩
    · exact ⟨hc, by simp [hv]⟩

/-- The payload of a NWK decode is no longer than the frame, and a valid frame has no failure (42_nwk.md R233). -/
theorem nwkDecode_sound (enc : Bytes → Bytes) (keyset : Bool) (b : Bytes) (henc : ∀ b, (enc b).length = 16) :
    (nwkDecode enc keyset b).p.length ≤ b.length ∧
      ((nwkDecode enc keyset b).f.valid = true → (nwkDecode enc keyset b).f.fail = .none) := by
  simp only [nwkDecode]
  split
  · exact ⟨Nat.le_refl _, by simp [nwkHdrFail, NwkFields.zero]⟩
  split
  · exact ⟨Nat.le_refl _, by simp [nwkHdrFail, NwkFields.zero]⟩
  split
  · simp only [nwkDecodeSecured]
    split
    · exact ⟨Nat.zero_le _, by simp [nwkHeader, NwkFields.zero]⟩
    split
    · exact ⟨by simp, by simp [nwkHeader, NwkFields.zero]⟩
    · simpa using
        nwkOpen_sound enc keyset (b.set (nwkHeaderLen (fieldAt 16 b 0)) _) _ _ (nwkAuxFields _ _ _) henc rfl rfl
  · exact ⟨by simp, fun _ => rfl⟩

/-- The result fields of a completion fit together: an error leaves no result, the route fits the depth, and the offset
lies in DMEM (60_exceptions.md R332, R333; 44_facade.md R304, R305). -/
structure Report.Consistent (r : Report) : Prop where
  errors : r.err ≠ .none → r.auth = .notChecked ∧ r.depth = .none ∧ r.route = .raw ∧ r.dfail = false
  route : r.route ≠ .raw → r.depth = .aps ∨ r.depth = .zcl
  zcl : r.depth = .zcl → r.route = .zcl ∧ r.dfail = false
  offset : r.offset ≤ 512

/-- A report of route RAW above ZCL, without an error. -/
theorem consistent_of_raw (r : Report) (he : r.err = .none) (hr : r.route = .raw) (hd : r.depth ≠ .zcl)
    (ho : r.offset ≤ 512) : r.Consistent :=
  ⟨fun h => absurd he h, fun h => absurd hr h, fun h => absurd h hd, ho⟩

/-- A parse that reached the APS layer reports consistently (44_facade.md R303, R304). -/
theorem parseZcl_consistent (r : ParseResult) (ap : Bytes) (hd : r.depth = .aps) (hr : r.route = .raw)
    (hf : r.dfail = false) (ho : r.offset = 0) (hl : ap.length ≤ 512) : (parseZcl r ap).report.Consistent := by
  unfold parseZcl
  split
  · split
    · next off hz =>
      have := (zclDecode_error ap off hz).1
      exact ⟨fun h => absurd rfl h, fun _ => .inl hd, fun h => absurd (hd.symm.trans h) (by decide), by
        show off ≤ 512; omega⟩
    · exact ⟨fun h => absurd rfl h, fun _ => .inr rfl, fun _ => ⟨rfl, hf⟩, by show r.offset ≤ 512; omega⟩
  · split
    · exact ⟨fun h => absurd rfl h, fun _ => .inl hd, fun h => absurd (hd.symm.trans h) (by decide), by
        show r.offset ≤ 512; omega⟩
    · exact consistent_of_raw _ rfl hr (by simp [ParseResult.report, hd]) (by show r.offset ≤ 512; omega)

/-- A parse that reached the NWK layer reports consistently (44_facade.md R303, R305). -/
theorem parseAps_consistent (r : ParseResult) (np : Bytes) (hd : r.depth ≠ .zcl) (hr : r.route = .raw)
    (hf : r.dfail = false) (ho : r.offset = 0) (hl : np.length ≤ 512) : (parseAps r np).report.Consistent := by
  unfold parseAps
  split
  · next off ha =>
    exact consistent_of_raw _ rfl hr hd (Nat.le_trans (apsDecode_error np off ha) hl)
  · next f ap ha =>
    obtain ⟨n, -, rfl⟩ := apsDecode_ok np ap f ha
    exact parseZcl_consistent _ _ rfl hr hf ho (by simp; omega)

/-- A parse that reached the MAC layer reports consistently (44_facade.md R303, R305). -/
theorem parseNwk_consistent (r : ParseResult) (n : NwkResult) (hm : Nat) (hd : r.depth ≠ .zcl) (hr : r.route = .raw)
    (hf : r.dfail = false) (ho : r.offset = 0) (hfoff : n.foff ≤ 512) (hp : n.p.length ≤ 512) :
    (parseNwk r n hm).report.Consistent := by
  unfold parseNwk
  simp only
  split
  · exact consistent_of_raw _ rfl hr hd (Nat.zero_le _)
  split
  · exact consistent_of_raw _ rfl hr (by simp [ParseResult.report, ParseResult.failAt]) hfoff
  split
  · exact consistent_of_raw _ rfl hr (by simp [ParseResult.report]) (by show r.offset ≤ 512; omega)
  · exact parseAps_consistent _ n.p (by simp) hr hf ho hp

/-- What a parse of an input inside DMEM reports is consistent, and its NWK record is sound (44_facade.md R304, R305;
42_nwk.md R233). -/
theorem parseFn_sound (enc : Bytes → Bytes) (keyset : Bool) (b : Bytes) (r : ParseResult)
    (henc : ∀ b, (enc b).length = 16) (hb : b.length ≤ 512) (h : parseFn enc keyset b = .ok r) :
    r.report.Consistent ∧ (r.nwk.valid = true → r.nwk.fail = .none) := by
  unfold parseFn at h
  split at h
  · cases h
  next f mp hm =>
  obtain ⟨n, -, -, rfl⟩ := macDecode_ok b mp f hm
  split at h
  · injection h with h
    subst h
    exact ⟨consistent_of_raw _ rfl rfl (by simp [ParseResult.report]) (Nat.zero_le _), fun h => by cases h⟩
  · injection h with h
    subst h
    have hlen : (b.drop n).length ≤ 512 := by simp; omega
    have hfoff := (nwkDecode_bounds enc keyset (b.drop n)).2
    obtain ⟨hp, hvalid⟩ := nwkDecode_sound enc keyset (b.drop n) henc
    refine ⟨parseNwk_consistent _ _ _ (by simp) rfl rfl rfl (by omega) (by omega), ?_⟩
    rw [(parseNwk_keeps _ _ _).2.2.2.2]
    exact hvalid

end Sys2Proof.Machine
end

section
/-! The invariant is kept by every step: by a completion, which writes an output inside DMEM and a consistent report,
and by every effect an input of the host can have. -/

namespace Sys2Proof.Machine

/-- The part of the invariant that the core of a command can touch. -/
structure State.CoreInv (s : State) : Prop where
  dmem : s.dmem.wf
  output : s.oLen.toNat ≤ 512
  valid : s.nwk.valid = true → s.nwk.fail = .none

theorem State.Inv.core {s : State} (h : s.Inv) : s.CoreInv := ⟨h.dmem, h.output, h.valid⟩

/-- An output written to an O region inside DMEM keeps DMEM canonical, and its length fits (30_encoding.md R126). -/
theorem emitted_coreInv (u t : State) (out : Bytes) (h : emitted u out t) (hd : u.dmem.wf)
    (hv : u.nwk.valid = true → u.nwk.fail = .none) (ho : u.regions.ptr .o + u.regions.len .o ≤ 512) : t.CoreInv := by
  obtain ⟨hl, rfl⟩ := h
  refine ⟨writeBytes_wf _ _ _ hd (by simp only [Config.dmemBytes]; omega), ?_, hv⟩
  simp only [BitVec.toNat_ofNat]
  omega

/-- A write-back inside DMEM keeps it canonical (42_nwk.md R234). -/
theorem wroteBack_wf (s : State) (wb : Option (Nat × Byte)) (hd : s.dmem.wf)
    (h : ∀ off v, wb = some (off, v) → s.regions.ptr .i + off < 512) : (wroteBack s wb).dmem.wf := by
  cases wb with
  | none => exact hd
  | some w => exact write_wf _ _ _ hd (h w.1 w.2 rfl)

/-- A NWK encode leaves NWK_FC.VALID and FAIL (42_nwk.md R248). -/
theorem putNwkUpdate_valid_fail (s : State) (u : Option NwkUpdate) :
    (putNwkUpdate s u).nwk.valid = s.nwk.valid ∧ (putNwkUpdate s u).nwk.fail = s.nwk.fail := by
  cases u <;> exact ⟨rfl, rfl⟩

@[simp] theorem wroteBack_nwk (s : State) (wb : Option (Nat × Byte)) : (wroteBack s wb).nwk = s.nwk := by
  cases wb <;> rfl

/-- The core of a ready command keeps its part of the invariant: what it writes lies in its regions. -/
theorem didCore_coreInv (i : Instr) (s t : State) (r : Report) (hs : s.CoreInv) (hr : s.Ready i)
    (h : didCore i s t r) : t.CoreInv := by
  have inDmem : ∀ x ∈ regionsOf i, s.regions.ptr x + s.regions.len x ≤ 512 := hr.range
  have writeBackFits : ∀ {wb : Option (Nat × Byte)}, Region.i ∈ regionsOf i →
      (∀ off v, wb = some (off, v) → off < (s.bytesOf .i).length) →
      ∀ off v, wb = some (off, v) → s.regions.ptr .i + off < 512 := by
    intro wb hi hwb off v he
    have h1 := inDmem .i hi
    have h2 := hwb off v he
    rw [bytesOf_length] at h2
    omega
  cases i <;> simp only [didCore] at h <;> simp only [regionsOf] at inDmem writeBackFits
  case nop => exact h.1 ▸ hs
  case aesEnc => exact emitted_coreInv s t _ h.2.1 hs.dmem hs.valid (inDmem .o (by simp))
  case aesDec => exact emitted_coreInv s t _ h.2.1 hs.dmem hs.valid (inDmem .o (by simp))
  case ccmEnc =>
    obtain ⟨-, -, rfl⟩ := h
    have hm := inDmem .m (by simp)
    exact ⟨writeBytes_wf _ _ _ hs.dmem (by simpa [ccmEncrypt, ctr_length] using hm), hs.output, hs.valid⟩
  case ccmDec =>
    obtain ⟨-, -, rfl⟩ := h
    have hm := inDmem .m (by simp)
    exact ⟨writeBytes_wf _ _ _ hs.dmem (by simpa [ccmDecrypt, ctr_length] using hm), hs.output, hs.valid⟩
  case macDec =>
    obtain ⟨_, _, -, he, -⟩ := h
    exact emitted_coreInv _ t _ he hs.dmem hs.valid (inDmem .o (by simp))
  case macEnc =>
    obtain ⟨_, _, -, he, -⟩ := h
    exact emitted_coreInv _ t _ he (by simpa using hs.dmem) (by simpa using hs.valid)
      (by simpa using inDmem .o (by simp))
  case nwkDec =>
    have hwb := (nwkDecode_bounds s.cipher s.keySet (s.bytesOf .i)).1
    refine emitted_coreInv _ t _ h.1 (wroteBack_wf _ _ (by simpa using hs.dmem) ?_) ?_
      (by simpa using inDmem .o (by simp))
    · simpa using writeBackFits (by simp) hwb
    · simpa using (nwkDecode_sound s.cipher s.keySet (s.bytesOf .i) (cipher_length s)).2
  case nwkEnc =>
    obtain ⟨_, u, -, he, -⟩ := h
    obtain ⟨hvalid, hfail⟩ := putNwkUpdate_valid_fail s u
    exact emitted_coreInv _ t _ he (by simpa using hs.dmem) (by rw [hvalid, hfail]; exact hs.valid)
      (by simpa using inDmem .o (by simp))
  case apsDec =>
    obtain ⟨_, _, -, he, -⟩ := h
    exact emitted_coreInv _ t _ he hs.dmem hs.valid (inDmem .o (by simp))
  case apsEnc => exact emitted_coreInv s t _ h.1 hs.dmem hs.valid (inDmem .o (by simp))
  case zclDec =>
    obtain ⟨_, _, -, he, -⟩ := h
    exact emitted_coreInv _ t _ he hs.dmem hs.valid (inDmem .o (by simp))
  case zclEnc => exact emitted_coreInv s t _ h.1 hs.dmem hs.valid (inDmem .o (by simp))
  case parse =>
    obtain ⟨o, ho, he, -⟩ := h
    have hi := inDmem .i (by simp)
    have hsound := parseFn_sound s.cipher s.keySet (s.bytesOf .i) o (cipher_length s) (by rw [bytesOf_length]; omega) ho
    refine emitted_coreInv _ t _ he (wroteBack_wf _ _ (by simpa [putParsed] using hs.dmem) ?_) ?_
      (by simpa using inDmem .o (by simp))
    · simpa using writeBackFits (by simp) (parseFn_wb s.cipher s.keySet (s.bytesOf .i) o ho)
    · simpa [putParsed] using hsound.2
  case compose l aseq =>
    obtain ⟨-, he, -⟩ := h
    generalize (composeNwk s.cipher s l (s.bytesOf .p)).2 = u at he
    obtain ⟨hvalid, hfail⟩ := putNwkUpdate_valid_fail s u
    refine emitted_coreInv _ t _ he ?_ ?_ (by simpa using inDmem .o (by simp))
    · rw [putComposed_eq]; exact hs.dmem
    · rw [putComposed_eq]; simp only; rw [hvalid, hfail]; exact hs.valid

/-- What the core of a ready command reports is consistent (60_exceptions.md R333, 44_facade.md R310). -/
theorem didCore_consistent (i : Instr) (s t : State) (r : Report) (hr : s.Ready i) (h : didCore i s t r) :
    r.Consistent := by
  by_cases hp : i = .parse
  · subst hp
    obtain ⟨o, ho, -, rfl⟩ := h
    have hi : s.regions.ptr .i + s.regions.len .i ≤ 512 := hr.range .i (by simp [regionsOf])
    exact (parseFn_sound s.cipher s.keySet (s.bytesOf .i) o (cipher_length s) (by rw [bytesOf_length]; omega) ho).1
  · obtain ⟨herr, hfields, -⟩ := didCore_report i s t r h
    obtain ⟨hdepth, hroute, -, -, hoffset⟩ := hfields hp
    exact consistent_of_raw r herr hroute (by simp [hdepth]) (by omega)

/-- A completion with a consistent report meets the invariant. -/
theorem complete_inv (t : State) (r : Report) (ht : t.CoreInv) (hw : t.wait = 0) (hr : r.Consistent) :
    (t.complete r).Inv where
  dmem := ht.dmem
  running h := by simp [Status.completed] at h
  idle _ := hw
  errors := hr.errors
  route := hr.route
  zcl := hr.zcl
  offset := by
    have := hr.offset
    simp only [complete_errInfo, Report.errInfo, BitVec.toNat_ofNat]
    omega
  output := ht.output
  valid := ht.valid

/-- An error completion meets the invariant. -/
theorem raised_inv (s : State) (c : ErrCode) (l : Layer) (o : Nat) (hs : s.CoreInv) (hw : s.wait = 0) (ho : o ≤ 512) :
    (s.raised c l o).Inv :=
  complete_inv s { err := c, layer := l, offset := o } hs hw
    ⟨fun _ => ⟨rfl, rfl, rfl, rfl⟩, fun h => absurd rfl h, fun h => (by cases h), ho⟩

/-- The completion of a command keeps the invariant. -/
theorem exec_inv (i : Instr) (s t : State) (hs : s.Inv) (hw : s.wait = 0) (h : exec i s = .next t) : t.Inv := by
  obtain ⟨c, l, o, he, -, ho⟩ | ⟨u, r, hr, hd, he⟩ := exec_cases i s
  · obtain rfl : s.raised c l o = t := Host.Outcome.next.inj (he.symm.trans h)
    exact raised_inv s c l o hs.core hw ho
  · obtain rfl : u.complete r = t := Host.Outcome.next.inj (he.symm.trans h)
    have hwait : u.wait = 0 := by rw [didCore_eq i s u r hd]; exact hw
    exact complete_inv u r (didCore_coreInv i s u r hs.core hr hd) hwait (didCore_consistent i s u r hr hd)

/-- A write to a register keeps the invariant. -/
theorem writeReg_inv (s : State) (v : Word) (r : Reg) (h : s.Inv) : (writeReg s v r).Inv := by
  cases r with
  | status =>
    exact { h with
      running := fun hb => by
        have hdone : s.status.done = false := h.running hb
        simp [writeReg, Status.hostWritten, hdone] }
  | _ => exact { h with }

/-- A CMD write keeps the invariant: it clears DONE where it sets BUSY (60_exceptions.md R336). -/
theorem writeCmd_inv (s : State) (w : Word) (h : s.Inv) : (writeCmd s w).Inv := by
  unfold writeCmd
  split
  · exact { h with }
  · exact { h with running := fun _ => rfl, idle := fun hb => (by cases hb) }

/-- Free values at addresses inside DMEM keep it canonical. -/
theorem scramble_wf (m : Dmem) (draw : Nat) (as : List Nat) (hm : m.wf) (ha : ∀ a ∈ as, a < 512) :
    (scramble m draw as).wf := by
  induction as generalizing m with
  | nil => exact hm
  | cons a as ih =>
    exact ih _ (write_wf m a _ hm (ha a (by simp))) (fun b hb => ha b (List.mem_cons_of_mem _ hb))

theorem spanAddrs_lt (p n a : Nat) (h : a ∈ spanAddrs p n) : a < 512 := by
  simp only [spanAddrs, List.mem_map, List.mem_range, Config.dmemBytes] at h
  omega

/-- A write-back that stands in the I region has its address inside DMEM (42_nwk.md R234). -/
theorem writeBackAddr_lt (s : State) (wb : Bytes → Option (Nat × Byte)) (a : Nat)
    (hwb : ∀ b off v, wb b = some (off, v) → off < b.length) (h : a ∈ writeBackAddr s wb) : a < 512 := by
  unfold writeBackAddr at h
  split at h
  · next hi =>
    rw [inRange_iff] at hi
    split at h
    · cases h
    · next off v hw =>
      have hoff := hwb _ off v hw
      rw [readBytes_length] at hoff
      simp only [List.mem_singleton] at h
      omega
  · cases h

/-- An aborted command leaves bytes inside DMEM unspecified (70_reset_and_hazards.md R363). -/
theorem abortAddrs_lt (s : State) (i : Instr) (a : Nat) (h : a ∈ abortAddrs s i) : a < 512 := by
  cases i <;> simp only [abortAddrs] at h
  case nop => cases h
  case nwkDec =>
    rcases List.mem_append.1 h with h | h
    · exact spanAddrs_lt _ _ _ h
    · exact writeBackAddr_lt s _ a (fun b => (nwkDecode_bounds s.cipher s.keySet b).1) h
  case parse =>
    rcases List.mem_append.1 h with h | h
    · exact spanAddrs_lt _ _ _ h
    · refine writeBackAddr_lt s _ a (fun b off v hw => ?_) h
      unfold parseWriteBack at hw
      split at hw
      · cases hw
      · next r hr => exact parseFn_wb s.cipher s.keySet b r hr off v hw
  all_goals exact spanAddrs_lt _ _ _ h

/-- Abandoning a command keeps DMEM canonical. -/
theorem abortCommand_wf (s : State) (h : s.dmem.wf) : (abortCommand s).dmem.wf := by
  unfold abortCommand
  split
  · exact h
  · exact scramble_wf _ _ _ h (abortAddrs_lt s _)

/-- The registers after reset meet the invariant (70_reset_and_hazards.md R360). -/
theorem reset_inv : State.reset.Inv := by constructor <;> decide

/-- A soft reset meets the invariant whatever the registers held: it keeps DMEM and clears the rest
(70_reset_and_hazards.md R362, R363). -/
theorem softReset_inv (s : State) (ie : Bool) (h : s.dmem.wf) : (softReset s ie).Inv := by
  have hdmem : (if s.status.busy then abortCommand s else s).dmem.wf := by
    split
    · exact abortCommand_wf s h
    · exact h
  exact { reset_inv with dmem := hdmem }

/-- A CTRL write keeps the invariant. -/
theorem writeCtrl_inv (s : State) (v : Word) (h : s.Inv) : (writeCtrl s v).Inv := by
  unfold writeCtrl
  split
  · exact softReset_inv s _ h.dmem
  · exact { h with }

/-- Hardware reset meets the invariant (70_reset_and_hazards.md R360). -/
theorem hardReset_inv (s : State) : (hardReset s).Inv := by
  exact { reset_inv with dmem := ⟨List.Pairwise.nil, fun c hc => (by cases hc)⟩ }

/-- Every effect of an input of the host keeps the invariant. -/
theorem hostEffect_inv (s t : State) (x : HostInput) (h : s.Inv) (he : HostEffect s x t) : t.Inv := by
  cases he with
  | bus => exact { h with }
  | command _ w => exact writeCmd_inv s w h
  | control _ v => exact writeCtrl_inv s v h
  | status _ v => exact writeReg_inv s v .status h
  | register off v r => exact writeReg_inv s v r h
  | memory _ width a v ha => exact { h with dmem := writeBytes_wf _ _ _ h.dmem (by simpa using ha) }
  | reset => exact hardReset_inv s

/-- The host's turn keeps the invariant: in IDLE no latency is left to count down. -/
theorem hostTurn_inv (s : State) (h : s.Inv) : (hostTurn s).Inv := by
  have hidle : s.status.busy = false → s.wait - 1 = 0 := fun hb => by rw [h.idle hb]
  cases hin : s.inbox with
  | nil =>
    rw [hostTurn_nil s hin]
    exact { h with idle := hidle }
  | cons x rest =>
    have hturn : State.Inv { s with wait := s.wait - 1, inbox := rest } := { h with idle := hidle }
    rw [hostTurn_cons s x rest hin]
    exact hostEffect_inv _ _ x hturn (take_effect _ x)

/-- A command is due: it runs, and its latency has passed. -/
theorem completing_iff (s : State) : s.completing = true ↔ s.status.busy = true ∧ s.wait = 0 := by
  simp [State.completing]

/-- Settles O60: a step is the host's turn, the completion of an illegal word, or that of a command. -/
theorem stepKeepsInvariant : Obligations.StepKeepsInvariant := by
  intro s t hs h
  cases hc : s.completing with
  | false =>
    obtain rfl : hostTurn s = t := Host.Outcome.next.inj ((step_of_not_completing s hc).symm.trans h)
    exact hostTurn_inv s hs
  | true =>
    have hw := ((completing_iff s).1 hc).2
    cases hd : decode s.cur with
    | error e =>
      obtain rfl : s.raised .illegalCmd .none 0 = t :=
        Host.Outcome.next.inj ((step_of_decode_error s e hc hd).symm.trans h)
      exact raised_inv s _ _ 0 hs.core hw (Nat.zero_le _)
    | ok i => exact exec_inv i s t hs hw ((step_of_decodes s i hc hd).symm.trans h)

end Sys2Proof.Machine
end

section
/-! The registers a command may change, as the "Writes" paragraphs of its rules name them: `frameOf` is that table, and
every command that succeeds leaves its row of it. -/

namespace Sys2Proof.Machine

/-- `s` with what a NWK encode writes taken from `t`; an unsecured encode writes nothing (42_nwk.md R248). -/
def tookNwk (secured : Bool) (s t : State) : State :=
  { s with
    nwk :=
      if secured then { s.nwk with secfc := t.nwk.secfc, mic := t.nwk.mic, secctl := t.nwk.secctl } else s.nwk
    nonce := if secured then t.nonce else s.nonce
    fc := if secured then t.fc else s.fc }

/-- `s` with what a MAC encode, if there is one, writes: PANC in the frame control taken from `t`, and with ASEQ the
next sequence number (41_mac.md R214, R216). -/
def tookMac (builds aseq : Bool) (s t : State) : State :=
  { s with
    mac :=
      if builds then { s.mac with fc := t.mac.fc, seq := if aseq then s.seqctr + 1 else s.mac.seq } else s.mac
    seqctr := if builds && aseq then s.seqctr + 1 else s.seqctr }

/-- `s` with what an output writes taken from `t` (30_encoding.md R126). -/
def tookOutput (s t : State) : State := { s with oLen := t.oLen, dmem := t.dmem }

/-- `s` with the registers and the memory that the command may write taken from `t`. -/
def frameOf (i : Instr) (s t : State) : State :=
  match i with
  | .nop => s
  | .aesEnc => tookOutput s t
  | .aesDec => tookOutput s t
  | .ccmEnc _ => { s with mic := t.mic, nonce := t.nonce, dmem := t.dmem }
  | .ccmDec _ _ => { s with nonce := t.nonce, dmem := t.dmem }
  | .macDec => tookOutput { s with mac := t.mac } t
  | .macEnc aseq => tookOutput (tookMac true aseq s t) t
  | .nwkDec => tookOutput { s with nwk := t.nwk, nonce := t.nonce } t
  | .nwkEnc => tookOutput (tookNwk (nwkSec s.nwk.fc) s t) t
  | .apsDec => tookOutput { s with aps := t.aps } t
  | .apsEnc => tookOutput s t
  | .zclDec => tookOutput { s with zcl := t.zcl } t
  | .zclEnc => tookOutput s t
  | .parse => tookOutput { s with mac := t.mac, nwk := t.nwk, aps := t.aps, zcl := t.zcl, nonce := t.nonce } t
  | .compose l aseq => tookOutput (tookMac l.mac aseq (tookNwk (l.nwk && nwkSec s.nwk.fc) s t) t) t

/-- What an output leaves is the state it was written over, but for O_LEN and DMEM. -/
theorem emitted_tookOutput (u t : State) (out : Bytes) (h : emitted u out t) : t = tookOutput u t := by
  obtain ⟨-, rfl⟩ := h
  rfl

/-- A frame that is not secured carries no register update (42_nwk.md R244). -/
theorem nwkFrame_plain (enc : Bytes → Bytes) (f : NwkFields) (pl : Bytes) (c : Word) (h : nwkSec f.fc = false) :
    (nwkFrame enc f pl c).2 = none := by
  simp [nwkFrame, h]

/-- The update a NWK encode makes is that of its frame (42_nwk.md R244). -/
theorem nwkEncode_update (enc : Bytes → Bytes) (f : NwkFields) (pl b : Bytes) (keyset : Bool) (c : Word)
    (u : Option NwkUpdate) (h : nwkEncode enc f pl keyset c = .ok (b, u)) : u = (nwkFrame enc f pl c).2 := by
  unfold nwkEncode at h
  split at h
  · cases h
  split at h
  · cases h
  split at h
  · cases h
  injection h with h
  rw [h]

/-- The registers a NWK encode writes, read off the state it leaves. -/
theorem putNwkUpdate_tookNwk (secured : Bool) (s t : State) (u : Option NwkUpdate) (hu : secured = false → u = none)
    (hnwk : t.nwk = (putNwkUpdate s u).nwk) (hnonce : t.nonce = (putNwkUpdate s u).nonce)
    (hfc : t.fc = (putNwkUpdate s u).fc) : putNwkUpdate s u = tookNwk secured s t := by
  cases secured with
  | false => rw [hu rfl]; rfl
  | true =>
    simp only [tookNwk, if_true, hnwk, hnonce, hfc]
    cases u <;> rfl

/-- The registers a MAC encode writes, read off the state it leaves. -/
theorem putMacEncoded_tookMac (s t : State) (aseq panc : Bool) (hmac : t.mac = (putMacEncoded s aseq panc).mac) :
    putMacEncoded s aseq panc = tookMac true aseq s t := by
  simp only [tookMac, hmac]
  cases aseq <;> rfl

/-- A COMPOSE without a secured NWK layer makes no NWK update (44_facade.md R312). -/
theorem composeNwk_plain (enc : Bytes → Bytes) (s : State) (l : LayerSet) (pl : Bytes)
    (h : (l.nwk && nwkSec s.nwk.fc) = false) : (composeNwk enc s l pl).2 = none := by
  unfold composeNwk
  cases hn : l.nwk with
  | false => rfl
  | true => exact nwkFrame_plain enc _ _ _ (by simpa [hn] using h)

/-- The registers a COMPOSE writes, read off the state it leaves (44_facade.md R312). -/
theorem putComposed_took (s t : State) (l : LayerSet) (aseq : Bool) (u : Option NwkUpdate)
    (hu : (l.nwk && nwkSec s.nwk.fc) = false → u = none) (hmac : t.mac = (putComposed s l aseq u).mac)
    (hnwk : t.nwk = (putComposed s l aseq u).nwk) (hnonce : t.nonce = (putComposed s l aseq u).nonce)
    (hfc : t.fc = (putComposed s l aseq u).fc) :
    putComposed s l aseq u =
      tookMac l.mac aseq (tookNwk (l.nwk && nwkSec s.nwk.fc) s t) t := by
  have hkept := putComposed_eq s l aseq u
  have hn := putNwkUpdate_tookNwk _ s t u hu (by rw [hnwk, hkept]) (by rw [hnonce, hkept]) (by rw [hfc, hkept])
  cases hm : l.mac with
  | false =>
    simp only [putComposed, hm]
    exact hn
  | true =>
    simp only [putComposed, hm, if_true] at hmac ⊢
    rw [← hn]
    exact putMacEncoded_tookMac _ t aseq _ hmac

/-- Every success of a command's core leaves the command's frame. -/
theorem didCore_frame (i : Instr) (s t : State) (r : Report) (h : didCore i s t r) : t = frameOf i s t := by
  cases i <;> simp only [didCore] at h
  case nop => exact h.1
  case aesEnc => exact emitted_tookOutput _ t _ h.2.1
  case aesDec => exact emitted_tookOutput _ t _ h.2.1
  case ccmEnc => obtain ⟨-, -, rfl⟩ := h; rfl
  case ccmDec => obtain ⟨-, -, rfl⟩ := h; rfl
  case macDec => obtain ⟨_, _, -, ⟨-, rfl⟩, -⟩ := h; rfl
  case macEnc aseq =>
    obtain ⟨b, panc, -, he, -⟩ := h
    have ht := emitted_tookOutput _ t _ he
    show t = tookOutput (tookMac true aseq s t) t
    rw [← putMacEncoded_tookMac s t aseq panc (by rw [ht]; rfl)]
    exact ht
  case nwkDec =>
    obtain ⟨⟨-, rfl⟩, -⟩ := h
    rw [wroteBack_eq, putNonce_eq]
    rfl
  case nwkEnc =>
    obtain ⟨b, u, hu, he, -⟩ := h
    have ht := emitted_tookOutput _ t _ he
    show t = tookOutput (tookNwk (nwkSec s.nwk.fc) s t) t
    rw [← putNwkUpdate_tookNwk (nwkSec s.nwk.fc) s t u
      (fun hs => (nwkEncode_update _ _ _ _ _ _ _ hu).trans (nwkFrame_plain _ _ _ _ hs))
      (by rw [ht]; rfl) (by rw [ht]; rfl) (by rw [ht]; rfl)]
    exact ht
  case apsDec => obtain ⟨_, _, -, ⟨-, rfl⟩, -⟩ := h; rfl
  case apsEnc => exact emitted_tookOutput _ t _ h.1
  case zclDec => obtain ⟨_, _, -, ⟨-, rfl⟩, -⟩ := h; rfl
  case zclEnc => exact emitted_tookOutput _ t _ h.1
  case parse =>
    obtain ⟨_, -, ⟨-, rfl⟩, -⟩ := h
    rw [wroteBack_eq, putParsed_eq]
    rfl
  case compose l aseq =>
    obtain ⟨-, he, -⟩ := h
    have hu := composeNwk_plain s.cipher s l (s.bytesOf .p)
    generalize (composeNwk s.cipher s l (s.bytesOf .p)).2 = u at he hu
    have ht := emitted_tookOutput _ t _ he
    show t = tookOutput (tookMac l.mac aseq (tookNwk (l.nwk && nwkSec s.nwk.fc) s t) t) t
    rw [← putComposed_took s t l aseq u hu (by rw [ht]; rfl) (by rw [ht]; rfl) (by rw [ht]; rfl) (by rw [ht]; rfl)]
    exact ht

/-- A register that is the same in the frame is kept. -/
theorem kept_of_frame {α : Type} {i : Instr} {s t : State} (h : t = frameOf i s t) (get : State → α)
    (hget : get (frameOf i s t) = get s) : get t = get s :=
  (congrArg get h).trans hget

theorem frameOf_mic (i : Instr) (s t : State) (hi : ∀ m, i ≠ .ccmEnc m) : (frameOf i s t).mic = s.mic := by
  cases i with
  | ccmEnc m => exact absurd rfl (hi m)
  | _ => rfl

/-- A COMPOSE that does not secure a NWK layer has a `tookNwk` that takes nothing (42_nwk.md R244). -/
theorem compose_unsecured (s : State) (l : LayerSet) (aseq : Bool) (h : ¬ s.securesNwk (.compose l aseq)) :
    (l.nwk && nwkSec s.nwk.fc) = false := by
  simpa [State.securesNwk, nwkSec] using h

/-- So has a NWK_ENC with NWK_FC.SEC = 0. -/
theorem nwkEnc_unsecured (s : State) (h : ¬ s.securesNwk .nwkEnc) : nwkSec s.nwk.fc = false := by
  simpa [State.securesNwk, nwkSec] using h

theorem frameOf_nonce (i : Instr) (s t : State) (henc : ∀ m, i ≠ .ccmEnc m) (hdec : ∀ v m, i ≠ .ccmDec v m)
    (hnwk : i ≠ .nwkDec) (hparse : i ≠ .parse) (hsec : ¬ s.securesNwk i) : (frameOf i s t).nonce = s.nonce := by
  cases i with
  | ccmEnc m => exact absurd rfl (henc m)
  | ccmDec v m => exact absurd rfl (hdec v m)
  | nwkDec => exact absurd rfl hnwk
  | parse => exact absurd rfl hparse
  | nwkEnc => simp [frameOf, tookOutput, tookNwk, nwkEnc_unsecured s hsec]
  | compose l aseq => simp [frameOf, tookOutput, tookMac, tookNwk, compose_unsecured s l aseq hsec]
  | _ => rfl

/-- NWK_FC.VALID and FAIL are results of the decoders alone (42_nwk.md R233). -/
theorem frameOf_valid_fail (i : Instr) (s t : State) (hnwk : i ≠ .nwkDec) (hparse : i ≠ .parse) :
    (frameOf i s t).nwk.valid = s.nwk.valid ∧ (frameOf i s t).nwk.fail = s.nwk.fail := by
  have htook : ∀ secured, (tookNwk secured s t).nwk.valid = s.nwk.valid ∧ (tookNwk secured s t).nwk.fail = s.nwk.fail :=
    fun secured => by cases secured <;> exact ⟨rfl, rfl⟩
  cases i with
  | nwkDec => exact absurd rfl hnwk
  | parse => exact absurd rfl hparse
  | nwkEnc => exact htook _
  | compose l aseq => exact htook _
  | _ => exact ⟨rfl, rfl⟩

theorem frameOf_nwk (i : Instr) (s t : State) (hnwk : i ≠ .nwkDec) (hparse : i ≠ .parse) (hsec : ¬ s.securesNwk i) :
    (frameOf i s t).nwk = s.nwk := by
  cases i with
  | nwkDec => exact absurd rfl hnwk
  | parse => exact absurd rfl hparse
  | nwkEnc => simp [frameOf, tookOutput, tookNwk, nwkEnc_unsecured s hsec]
  | compose l aseq => simp [frameOf, tookOutput, tookMac, tookNwk, compose_unsecured s l aseq hsec]
  | _ => rfl

theorem frameOf_mac (i : Instr) (s t : State) (hmac : i ≠ .macDec) (hparse : i ≠ .parse) (hb : ¬ buildsMac i) :
    (frameOf i s t).mac = s.mac := by
  cases i with
  | macDec => exact absurd rfl hmac
  | parse => exact absurd rfl hparse
  | macEnc aseq => exact absurd trivial hb
  | compose l aseq =>
    have hl : l.mac = false := by simpa [buildsMac] using hb
    simp [frameOf, tookOutput, tookMac, tookNwk, hl]
  | _ => rfl

theorem frameOf_aps (i : Instr) (s t : State) (haps : i ≠ .apsDec) (hparse : i ≠ .parse) :
    (frameOf i s t).aps = s.aps := by
  cases i with
  | apsDec => exact absurd rfl haps
  | parse => exact absurd rfl hparse
  | _ => rfl

theorem frameOf_zcl (i : Instr) (s t : State) (hzcl : i ≠ .zclDec) (hparse : i ≠ .parse) :
    (frameOf i s t).zcl = s.zcl := by
  cases i with
  | zclDec => exact absurd rfl hzcl
  | parse => exact absurd rfl hparse
  | _ => rfl

/-- With ASEQ the next sequence number goes to SEQCTR and to MAC_SQC (41_mac.md R214). -/
theorem frameOf_seq_assigned (i : Instr) (s t : State) (h : assignsSeq i) :
    (frameOf i s t).seqctr = s.seqctr + 1 ∧ (frameOf i s t).mac.seq = s.seqctr + 1 := by
  cases i with
  | macEnc aseq =>
    obtain rfl : aseq = true := h
    exact ⟨rfl, rfl⟩
  | compose l aseq =>
    obtain ⟨hl, rfl⟩ : l.mac = true ∧ aseq = true := h
    simp [frameOf, tookOutput, tookMac, tookNwk, hl]
  | _ => exact h.elim

theorem frameOf_seqctr (i : Instr) (s t : State) (h : ¬ assignsSeq i) : (frameOf i s t).seqctr = s.seqctr := by
  cases i with
  | macEnc aseq =>
    obtain rfl : aseq = false := by simpa [assignsSeq] using h
    rfl
  | compose l aseq =>
    have hl : (l.mac && aseq) = false := by simpa [assignsSeq] using h
    simp [frameOf, tookOutput, tookMac, tookNwk, hl]
  | _ => rfl

theorem frameOf_oLen (i : Instr) (s t : State) (h : ¬ hasOutput i) : (frameOf i s t).oLen = s.oLen := by
  cases i with
  | nop => rfl
  | ccmEnc m => rfl
  | ccmDec v m => rfl
  | _ => exact absurd (by simp [hasOutput, regionsOf]) h

/-- Settles O45: an error changes the completion fields alone, and a success leaves the command's frame. -/
theorem commandsKeepOtherRegisters : Obligations.CommandsKeepOtherRegisters := by
  intro i s t h
  obtain ⟨c, l, o, he, hc, -⟩ | ⟨u, r, -, hd, he⟩ := exec_cases i s
  · obtain rfl : s.raised c l o = t := Host.Outcome.next.inj (he.symm.trans h)
    exact ⟨rfl, fun _ => rfl, fun _ _ _ _ _ => rfl, fun _ _ => ⟨rfl, rfl⟩, fun _ _ _ => rfl, fun _ _ _ => rfl,
      fun _ _ => rfl, fun _ _ => rfl, fun _ herr => absurd herr hc, fun _ => rfl, fun _ => rfl⟩
  · obtain rfl : u.complete r = t := Host.Outcome.next.inj (he.symm.trans h)
    have hf := didCore_frame i s u r hd
    have herr : r.err = .none := (didCore_report i s u r hd).1
    refine ⟨?_, fun h1 => kept_of_frame hf State.mic (frameOf_mic i s u h1),
      fun h1 h2 h3 h4 h5 => kept_of_frame hf State.nonce (frameOf_nonce i s u h1 h2 h3 h4 h5),
      fun h1 h2 => ?_,
      fun h1 h2 h3 => kept_of_frame hf State.nwk (frameOf_nwk i s u h1 h2 h3),
      fun h1 h2 h3 => kept_of_frame hf State.mac (frameOf_mac i s u h1 h2 h3),
      fun h1 h2 => kept_of_frame hf State.aps (frameOf_aps i s u h1 h2),
      fun h1 h2 => kept_of_frame hf State.zcl (frameOf_zcl i s u h1 h2),
      fun h1 _ => ?_, fun h1 => ?_,
      fun h1 => kept_of_frame hf State.oLen (frameOf_oLen i s u h1)⟩
    · have hframe := didCore_eq i s u r hd
      have hstatus : u.status = s.status := by rw [hframe]
      conv => lhs; rw [hframe]
      simp only [State.complete, hstatus]
    · obtain ⟨hv, hfail⟩ := frameOf_valid_fail i s u h1 h2
      exact ⟨kept_of_frame hf (fun s => s.nwk.valid) hv, kept_of_frame hf (fun s => s.nwk.fail) hfail⟩
    · obtain ⟨hctr, hseq⟩ := frameOf_seq_assigned i s u h1
      exact ⟨(congrArg State.seqctr hf).trans hctr, (congrArg (fun s => s.mac.seq) hf).trans hseq⟩
    · rcases h1 with h1 | h1
      · exact kept_of_frame hf State.seqctr (frameOf_seqctr i s u h1)
      · exact absurd herr h1

end Sys2Proof.Machine
end

section
/-! Registers as the host writes and reads them in IDLE (10_state.md R33): the RW bits of every register are its low
`rwWidth` bits, a write puts them there and leaves the bits above, and no two registers share a bit. -/

namespace Sys2Proof.Machine

/-- How many low bits of a register are RW. -/
def Reg.rwWidth : Reg → Nat
  | .cmd | .status | .errInfo | .key _ | .oLen => 0
  | .ctrl => 1
  | .seqctr | .apsFc => 8
  | .iPtr | .iLen | .pPtr | .pLen | .oPtr | .oCap | .aPtr | .aLen | .mPtr | .mLen => 16
  | .macSqc | .nwkFc | .nwkHop | .nwkSec | .apsDst | .apsEc => 16
  | .macFc => 17
  | .zclHdr => 24
  | .nonce _ | .mic | .fc => 32
  | .macPan | .macDaddrLo | .macDaddrHi | .macSaddrLo | .macSaddrHi => 32
  | .nwkAddr | .nwkExtdstLo | .nwkExtdstHi | .nwkExtsrcLo | .nwkExtsrcHi => 32
  | .nwkSecfc | .nwkSecsrcLo | .nwkSecsrcHi | .nwkMic | .apsCp => 32

/-- The word whose low `n` bits are 1. -/
def lowMask (n : Nat) : Word := BitVec.ofNat 32 (2 ^ n - 1)

theorem rwMask_eq (r : Reg) : r.rwMask = lowMask r.rwWidth := by cases r <;> rfl

theorem getLsbD_lowMask (n k : Nat) (hk : k < 32) : (lowMask n).getLsbD k = decide (k < n) := by
  rw [lowMask, BitVec.getLsbD_ofNat, Nat.testBit_two_pow_sub_one]
  simp [hk]

/-- `x` has the low `n` bits of `v` and the other bits of `old`. -/
def mergesLow (n : Nat) (x v old : Word) : Prop :=
  ∀ k, k < 32 → x.getLsbD k = if k < n then v.getLsbD k else old.getLsbD k

theorem eq_of_mergesLow {n : Nat} {x v old : Word} (h : mergesLow n x v old) :
    x = (v &&& lowMask n) ||| (old &&& ~~~lowMask n) := by
  refine BitVec.eq_of_getLsbD_eq fun k hk => ?_
  rw [h k hk, BitVec.getLsbD_or, BitVec.getLsbD_and, BitVec.getLsbD_and, BitVec.getLsbD_not, getLsbD_lowMask n k hk]
  by_cases hn : k < n <;> simp [hn, hk]

/-- A register without RW bits keeps its value. -/
theorem mergesLow_zero (v old : Word) : mergesLow 0 old v old := fun _ _ => rfl

/-- A register of 32 RW bits takes the word written. -/
theorem mergesLow_full (v old : Word) : mergesLow 32 v v old := fun _ hk => (if_pos hk).symm

/-- `x` has no bit from `p` on. -/
def endsAt (p : Nat) (x : Word) : Prop := ∀ k, k < 32 → p ≤ k → x.getLsbD k = false

/-- A field ends where its width says. -/
theorem place_endsAt {w : Nat} (p : Nat) (a : BitVec w) : endsAt (p + w) (place p a) := by
  intro k hk hp
  rw [getLsbD_place p a k hk, BitVec.getLsbD_of_ge a _ (by omega), Bool.and_false]

/-- Fields side by side end where the last one does. -/
theorem or_endsAt {p q : Nat} {x y : Word} (hx : endsAt p x) (hpq : p ≤ q) (hy : endsAt q y) : endsAt q (x ||| y) := by
  intro k hk hq
  rw [BitVec.getLsbD_or, hx k hk (by omega), hy k hk hq, Bool.or_false]

/-- One RW field at the foot of a register. -/
theorem mergesLow_field (w : Nat) (v : Word) (a : BitVec w) :
    mergesLow w (place 0 (v.extractLsb' 0 w)) v (place 0 a) := by
  intro k hk
  rw [getLsbD_place 0 _ k hk, getLsbD_place 0 _ k hk, BitVec.getLsbD_extractLsb']
  by_cases h : k < w
  · simp [h]
  · simp [h, BitVec.getLsbD_of_ge a k (by omega)]

/-- One RW field more, above those already there. -/
theorem mergesLow_snoc (p w : Nat) {x v old : Word} (b : BitVec w) (h : mergesLow p x v old) (hold : endsAt p old) :
    mergesLow (p + w) (x ||| place p (v.extractLsb' p w)) v (old ||| place p b) := by
  intro k hk
  rw [BitVec.getLsbD_or, BitVec.getLsbD_or, h k hk, getLsbD_place p _ k hk, getLsbD_place p _ k hk,
    BitVec.getLsbD_extractLsb']
  by_cases hp : k < p
  · have hlt : k < p + w := by omega
    have hn : ¬ p ≤ k := by omega
    simp [hp, hlt, hn]
  · have hpk : p ≤ k := by omega
    have hsum : p + (k - p) = k := by omega
    by_cases hw : k < p + w
    · have hlt : k - p < w := by omega
      simp [hp, hpk, hold k hk hpk, hsum, hw, hlt]
    · have hge : ¬ k - p < w := by omega
      simp [hp, hpk, hold k hk hpk, hsum, hw, hge, BitVec.getLsbD_of_ge b (k - p) (by omega)]

/-- RO bits above the RW ones. -/
theorem mergesLow_above {p : Nat} {x v old : Word} (y : Word) (h : mergesLow p x v old)
    (hy : ∀ k, k < p → y.getLsbD k = false) : mergesLow p (x ||| y) v (old ||| y) := by
  intro k hk
  rw [BitVec.getLsbD_or, BitVec.getLsbD_or, h k hk]
  by_cases hp : k < p
  · simp [hp, hy k hp]
  · simp [hp]

/-- Two bytes of RW bits. -/
theorem mergesLow_bytes (v : Word) (a b : Byte) :
    mergesLow 16 (place 0 (byteOf 0 v) ||| place 8 (byteOf 1 v)) v (place 0 a ||| place 8 b) :=
  mergesLow_snoc 8 8 b (mergesLow_field 8 v a) (place_endsAt 0 a)

/-- Two halves of RW bits. -/
theorem mergesLow_halves (v : Word) (a b : Half) :
    mergesLow 32 (place 0 (lo16 v) ||| place 16 (hi16 v)) v (place 0 a ||| place 16 b) :=
  mergesLow_snoc 16 16 b (mergesLow_field 16 v a) (place_endsAt 0 a)

/-- A half and a bit of RW bits (10_state.md R48). -/
theorem mergesLow_half_bit (v : Word) (a : Half) (b : Bool) :
    mergesLow 17 (place 0 (lo16 v) ||| placeBit 16 (v.getLsbD 16)) v (place 0 a ||| placeBit 16 b) := by
  have hbit : BitVec.ofBool (v.getLsbD 16) = v.extractLsb' 16 1 := by
    refine BitVec.eq_of_getLsbD_eq fun k hk => ?_
    obtain rfl : k = 0 := by omega
    simp
  rw [placeBit, hbit]
  exact mergesLow_snoc 16 1 (BitVec.ofBool b) (mergesLow_field 16 v a) (place_endsAt 0 a)

/-- In IDLE a register reads back its RW bits as written and its other bits as before (10_state.md R33). -/
theorem readReg_writeReg_same (s : State) (v : Word) (r : Reg) (hstatus : r ≠ .status) (hctrl : r ≠ .ctrl) :
    mergesLow r.rwWidth (readReg (writeReg s v r) r) v (readReg s r) := by
  cases r with
  | status => exact absurd rfl hstatus
  | ctrl => exact absurd rfl hctrl
  | cmd | errInfo | key | oLen => exact mergesLow_zero v _
  | mic | fc | nwkSecfc | nwkMic => exact mergesLow_full v _
  | nonce | macDaddrLo | macDaddrHi | macSaddrLo | macSaddrHi | nwkExtdstLo | nwkExtdstHi | nwkExtsrcLo | nwkExtsrcHi
  | nwkSecsrcLo | nwkSecsrcHi => simpa [readReg, writeReg, Reg.rwWidth] using mergesLow_full v _
  | seqctr | apsFc => exact mergesLow_field 8 v _
  | iPtr | iLen | pPtr | pLen | oPtr | oCap | aPtr | aLen | mPtr | mLen | apsDst => exact mergesLow_field 16 v _
  | macSqc | nwkHop | nwkSec | apsEc => exact mergesLow_bytes v _ _
  | macPan | nwkAddr | apsCp => exact mergesLow_halves v _ _
  | macFc => exact mergesLow_half_bit v _ _
  | nwkFc =>
    have hhigh : ∀ k, k < 16 → (placeBit 16 s.nwk.valid ||| place 17 s.nwk.fail.code).getLsbD k = false := by
      intro k hk
      have h16 : ¬ k = 16 := by omega
      have h17 : ¬ 17 ≤ k := by omega
      rw [BitVec.getLsbD_or, getLsbD_placeBit 16 _ k (by omega), getLsbD_place 17 _ k (by omega)]
      simp [h16, h17]
    simp only [readReg, writeReg, BitVec.or_assoc]
    exact mergesLow_above _ (mergesLow_field 16 v s.nwk.fc) hhigh
  | zclHdr =>
    exact mergesLow_snoc 16 8 s.zcl.cmd (mergesLow_bytes v s.zcl.fc s.zcl.seq)
      (or_endsAt (place_endsAt 0 s.zcl.fc) (by decide) (place_endsAt 8 s.zcl.seq))

/-- A write to a register leaves every other one but STATUS: the registers are separate fields of the state, but for the
words of NONCE and the two words of an address. -/
theorem readReg_writeReg_other (s : State) (v : Word) (r q : Reg) (hr : r ≠ .status) (hq : q ≠ r) (hs : q ≠ .status) :
    readReg (writeReg s v r) q = readReg s q := by
  cases r with
  | status => exact absurd rfl hr
  | cmd | ctrl | errInfo | oLen => rfl
  | key =>
    cases q with
    | status => exact absurd rfl hs
    | _ => rfl
  | nonce k =>
    cases q with
    | nonce j =>
      have hjk : j ≠ k := fun h => hq (h ▸ rfl)
      simp [readReg, writeReg, hjk]
    | _ => rfl
  | macDaddrLo | macDaddrHi | macSaddrLo | macSaddrHi | nwkExtdstLo | nwkExtdstHi | nwkExtsrcLo | nwkExtsrcHi
  | nwkSecsrcLo | nwkSecsrcHi =>
    simp only [writeReg]
    cases q <;> first | rfl | exact absurd rfl hq | simp [readReg]
  | _ =>
    simp only [writeReg]
    cases q <;> first | rfl | exact absurd rfl hq

/-- A write to a register but STATUS leaves STATUS's fields and DMEM. -/
theorem writeReg_keeps (s : State) (v : Word) (r : Reg) (hr : r ≠ .status) :
    (writeReg s v r).status = s.status ∧ (writeReg s v r).dmem = s.dmem := by
  cases r with
  | status => exact absurd rfl hr
  | _ => exact ⟨rfl, rfl⟩

/-- Only a KEY write changes KEY and the key-written bits (10_state.md R39). -/
theorem writeReg_keeps_key (s : State) (v : Word) (r : Reg) (hr : ∀ k, r ≠ .key k) :
    (writeReg s v r).key = s.key ∧ (writeReg s v r).kw = s.kw := by
  cases r with
  | key k => exact absurd rfl (hr k)
  | _ => exact ⟨rfl, rfl⟩

/-- STATUS as read is its fields and, in bit 10, KEY_SET (10_state.md R36). -/
theorem statusWord_masked (s t : State) (h : t.status = s.status) :
    t.statusWord &&& 0xFFFFFBFF#32 = s.statusWord &&& 0xFFFFFBFF#32 := by
  have hbit : ∀ b, placeBit 10 b &&& 0xFFFFFBFF#32 = 0#32 := by decide
  simp only [State.statusWord, h, BitVec.and_or_distrib_right, hbit]

theorem statusWord_eq (s t : State) (h : t.status = s.status) (hkw : t.kw = s.kw) : t.statusWord = s.statusWord := by
  simp only [State.statusWord, State.keySet, h, hkw]

/-- Settles O51: in IDLE the write is `writeReg` and the read `readReg`. -/
theorem registerHoldsItsRwBits : Obligations.RegisterHoldsItsRwBits := by
  intro s off r v hidle hat hcmd hstatus hctrl
  obtain ⟨hs, hd⟩ := writeReg_keeps s v r hstatus
  have hwrite : hostWrite s .w32 off v = writeReg s v r := by
    rw [hostWrite_reg s off v r hat, writeTarget_eq s v r hcmd hstatus hctrl, hidle]
    rfl
  simp only [hwrite]
  refine ⟨?_, hd, hs, statusWord_masked s _ hs, fun hkey => ?_, fun q hq hqs => ?_⟩
  · rw [hostRead_reg _ off r hat (by rw [hs]; exact hidle), answer_busData, rwMask_eq]
    exact eq_of_mergesLow (readReg_writeReg_same s v r hstatus hctrl)
  · obtain ⟨hk, hkw⟩ := writeReg_keeps_key s v r hkey
    exact ⟨statusWord_eq s _ hs hkw, hk, hkw⟩
  · exact readReg_writeReg_other s v r q hstatus hq hqs

end Sys2Proof.Machine
end

section
/-! STATUS bit by bit, the key-written bits and the interrupt output (10_state.md R36, R39, R68). -/

namespace Sys2Proof.Machine

/-! ### STATUS as the host reads and writes it -/

/-- Bit k of STATUS as the host reads it (10_state.md R36). -/
theorem getLsbD_statusWord (s : State) (k : Nat) (hk : k < 32) :
    s.statusWord.getLsbD k =
      (decide (k = 0) && s.status.busy || decide (k = 1) && s.status.done || decide (k = 2) && s.status.ovr ||
        decide (k = 3) && s.status.buserr || decide (4 ≤ k) && s.status.err.code.getLsbD (k - 4) ||
        decide (8 ≤ k) && s.status.auth.code.getLsbD (k - 8) || decide (k = 10) && s.keySet ||
        decide (11 ≤ k) && s.status.depth.code.getLsbD (k - 11) ||
        decide (14 ≤ k) && s.status.route.code.getLsbD (k - 14) || decide (k = 16) && s.status.dfail) := by
  simp only [State.statusWord, BitVec.getLsbD_or, getLsbD_placeBit _ _ k hk, getLsbD_place _ _ k hk]

/-- A STATUS write clears the W1C bits written as 1, in IDLE and in BUSY (10_state.md R33, R36). -/
theorem hostWrite_status (s : State) (v : Word) :
    hostWrite s .w32 0x004#12 v = { s with status := s.status.hostWritten v } :=
  hostWrite_reg s 0x004#12 v .status rfl

theorem hostWrite_cmd (s : State) (w : Word) : hostWrite s .w32 0x000#12 w = writeCmd s w :=
  hostWrite_reg s 0x000#12 w .cmd rfl

theorem hostWrite_ctrl (s : State) (v : Word) : hostWrite s .w32 0x008#12 v = writeCtrl s v :=
  hostWrite_reg s 0x008#12 v .ctrl rfl

/-- A field of a word is known from its bits. -/
theorem extractLsb'_eq_of_bits {w : Nat} (x : Word) (p : Nat) (a : BitVec w)
    (h : ∀ j, j < w → x.getLsbD (p + j) = a.getLsbD j) : x.extractLsb' p w = a :=
  BitVec.eq_of_getLsbD_eq fun j hj => by rw [BitVec.getLsbD_extractLsb', h j hj]; simp [hj]

/-- Settles O52: each bit, and each field bit by bit, is read off `getLsbD_statusWord`. -/
theorem statusFieldsAndWriteOneToClear : Obligations.StatusFieldsAndWriteOneToClear := by
  intro s v
  have bit := getLsbD_statusWord s
  refine ⟨?busy, ?done, ?ovr, ?buserr, ?err, ?auth, ?keySet, ?depth, ?route, ?dfail, ?rest, hostWrite_status s v⟩
  case busy | done | ovr | buserr | keySet | dfail =>
    rw [bit _ (by decide)]
    simp
  case err | auth | depth | route | rest =>
    refine extractLsb'_eq_of_bits _ _ _ fun j hj => ?_
    rw [bit _ (by omega)]
    interval_cases j <;> simp

/-! ### What a completion leaves -/

/-- A due command completes with DONE, and leaves CTRL.IE and the key-written bits (60_exceptions.md R333). -/
theorem step_completion (s t : State) (hc : s.completing = true) (h : step s = .next t) :
    t.status.done = true ∧ t.ie = s.ie ∧ t.kw = s.kw := by
  cases hd : decode s.cur with
  | error e =>
    obtain rfl : s.raised .illegalCmd .none 0 = t :=
      Host.Outcome.next.inj ((step_of_decode_error s e hc hd).symm.trans h)
    exact ⟨rfl, rfl, rfl⟩
  | ok i =>
    have he := (step_of_decodes s i hc hd).symm.trans h
    obtain ⟨c, l, o, hr, -, -⟩ | ⟨u, r, -, hcore, hr⟩ := exec_cases i s
    · obtain rfl : s.raised c l o = t := Host.Outcome.next.inj (hr.symm.trans he)
      exact ⟨rfl, rfl, rfl⟩
    · obtain rfl : u.complete r = t := Host.Outcome.next.inj (hr.symm.trans he)
      have hframe := didCore_eq i s u r hcore
      have hie : u.ie = s.ie := by rw [hframe]
      have hkw : u.kw = s.kw := by rw [hframe]
      exact ⟨rfl, hie, hkw⟩

/-! ### The key-written bits -/

@[simp] theorem KeyWritten.get_set (w : KeyWritten) (k j : Fin 4) :
    (w.set k).get j = if j = k then true else w.get j := by
  fin_cases k <;> fin_cases j <;> rfl

/-- Abandoning a command leaves the key-written bits (70_reset_and_hazards.md R362, R363). -/
theorem softReset_kw (s : State) (ie : Bool) : (softReset s ie).kw = s.kw := by
  have habort : (abortCommand s).kw = s.kw := by
    unfold abortCommand
    split <;> rfl
  unfold softReset
  rw [clearSoft_kw]
  split
  · exact habort
  · rfl

/-- A KEY write in IDLE stores its word and sets its bit (10_state.md R39, R40). -/
theorem hostWrite_key (s : State) (v : Word) (k : Fin 4) (hidle : s.status.busy = false) :
    hostWrite s .w32 (BitVec.ofNat 12 (0x010 + 4 * k.val)) v = writeReg s v (.key k) := by
  have hat : regAt (BitVec.ofNat 12 (0x010 + 4 * k.val)).toNat = some (.key k) := by
    fin_cases k <;> rfl
  rw [hostWrite_reg s _ v _ hat, writeTarget_eq s v _ (by simp) (by simp) (by simp), hidle]
  rfl

/-- Of the effects of the host's inputs, only a KEY write in IDLE sets a key-written bit (10_state.md R39). -/
theorem hostEffect_sets_kw (s t : State) (x : HostInput) (k : Fin 4) (he : HostEffect s x t)
    (h0 : s.kw.get k = false) (h1 : t.kw.get k = true) :
    ∃ v, x = .write .w32 (BitVec.ofNat 12 (0x010 + 4 * k.val)) v ∧ s.status.busy = false ∧
      t = writeReg s v (.key k) := by
  have kept : t.kw = s.kw → False := fun hkw => by rw [hkw, h0] at h1; cases h1
  cases he with
  | bus => exact (kept rfl).elim
  | command _ w => exact (kept (by unfold writeCmd; split <;> rfl)).elim
  | control _ v =>
    refine (kept ?_).elim
    unfold writeCtrl
    split
    · exact softReset_kw s _
    · rfl
  | status => exact (kept rfl).elim
  | memory => exact (kept rfl).elim
  | reset => fin_cases k <;> cases h1
  | register off v r hat hr hidle =>
    by_cases hkey : ∃ j, r = .key j
    · obtain ⟨j, rfl⟩ := hkey
      have hkj : k = j := by
        by_contra hne
        simp [writeReg, hne, h0] at h1
      subst hkj
      have hoff : off = BitVec.ofNat 12 (0x010 + 4 * k.val) := by
        rw [← regAt_key off.toNat k hat, BitVec.ofNat_toNat, BitVec.setWidth_eq]
      exact ⟨v, by rw [hoff], hidle, rfl⟩
    · exact (kept (writeReg_keeps_key s v r fun j hj => hkey ⟨j, hj⟩).2).elim

/-- Settles O53: the reads of STATUS and the resets, the KEY write, and the only step that sets a bit. -/
theorem keySetFollowsKeyWrites : Obligations.KeySetFollowsKeyWrites := by
  refine ⟨fun s => ⟨?_, rfl, softReset_kw s⟩, fun s v k hidle => ?_, fun s t k h h0 h1 => ?_⟩
  · rw [getLsbD_statusWord s 10 (by decide)]
    simp [State.keySet, KeyWritten.all, KeyWritten.get]
  · simp only [hostWrite_key s v k hidle]
    exact ⟨rfl, by simp [writeReg], by simp [writeReg], fun j hj => by simp [writeReg, hj]⟩
  · cases hc : s.completing with
    | true =>
      have hkw := (step_completion s t hc h).2.2
      rw [hkw, h0] at h1
      cases h1
    | false =>
      obtain rfl : hostTurn s = t := Host.Outcome.next.inj ((step_of_not_completing s hc).symm.trans h)
      cases hin : s.inbox with
      | nil =>
        rw [hostTurn_nil s hin, h0] at h1
        cases h1
      | cons x rest =>
        rw [hostTurn_cons s x rest hin] at h1 ⊢
        obtain ⟨v, rfl, hidle, ht⟩ :=
          hostEffect_sets_kw { s with wait := s.wait - 1, inbox := rest } _ x k (take_effect _ x) h0 h1
        refine ⟨v, rest, rfl, hidle, ?_⟩
        rw [ht]
        simp [writeReg]

/-! ### The interrupt output -/

/-- Settles O58: what sets, clears and keeps DONE and IE. -/
theorem interruptFollowsDone : Obligations.InterruptFollowsDone := by
  refine ⟨fun s => ⟨rfl, rfl, rfl⟩, fun s t hb hw h => ?_, fun s v hv => ?_, fun s w hb => ?_, fun s w hb => ?_,
    fun s v hv => ?_, fun s width off => ?_⟩
  · obtain ⟨hdone, hie, -⟩ := step_completion s t ((completing_iff s).2 ⟨hb, hw⟩) h
    rw [State.irq, hdone, hie, Bool.and_true]
  · simp [hostWrite_status, State.irq, Status.hostWritten, hv]
  · simp [hostWrite_cmd, writeCmd, State.irq, hb]
  · simp [hostWrite_cmd, writeCmd, State.irq, hb]
  · rw [hostWrite_ctrl, writeCtrl, hv]
    split <;> simp [softReset, State.irq]
  · obtain ⟨b, x, n, h⟩ := hostRead_eq s width off
    rw [h]
    rfl

end Sys2Proof.Machine
end

section
/-! What the MAC decoder takes off a frame it accepts: the header of the wire layout (30_encoding.md R133). -/

namespace Sys2Proof.Machine

/-- No field is cut when all of them fit. -/
theorem firstCut_of_fits (n p : Nat) (ws : List Nat) (h : p + ws.sum ≤ n) : firstCut n p ws = none := by
  induction ws generalizing p with
  | nil => rfl
  | cons w ws ih =>
    rw [List.sum_cons] at h
    rw [firstCut, if_neg (by omega), ih (p + w) (by omega)]

/-- The widths of the conditional fields of a MAC frame, in the decoder's terms (41_mac.md R201, R203). -/
theorem macFieldWidths_eq (fc : Half) :
    macFieldWidths fc =
      [if macDmode fc ≠ 0 then 2 else 0, if macDmode fc ≠ 0 then alen (macDmode fc) else 0,
       if macSmode fc ≠ 0 ∧ macPanc fc = false then 2 else 0, if macSmode fc ≠ 0 then alen (macSmode fc) else 0,
       if macType fc = 3 then 1 else 0] := by
  have mode_eq_zero : ∀ v : BitVec 2, v.toNat = 0 ↔ v = 0 := by decide
  have mode_eq_three : ∀ v : BitVec 2, v.toNat = 3 ↔ v = 3 := by decide
  have type_eq_three : ∀ v : BitVec 3, v.toNat = 3 ↔ v = 3 := by decide
  have absent : (fc.extractLsb' 14 2 = 0 ∨ fc.getLsbD 6 = true) ↔
      ¬ (¬ fc.extractLsb' 14 2 = 0 ∧ fc.getLsbD 6 = false) := by
    rw [not_and_or, not_not, Bool.not_eq_false]
  simp only [macFieldWidths, macDmode, macSmode, macType, macPanc, alen, ne_eq, mode_eq_zero, mode_eq_three,
    type_eq_three, absent, ite_not]

/-- The fields behind the sequence number end where their widths add up to. -/
theorem macDecodeFields_ok (b p : Bytes) (fc : Half) (f : MacFields) (h3 : 3 ≤ b.length)
    (h : macDecodeFields b fc = .ok (f, p)) :
    f.fc = fc ∧ 3 + (macFieldWidths fc).sum ≤ b.length ∧ p = b.drop (3 + (macFieldWidths fc).sum) := by
  simp only [macDecodeFields, decode_bind_ok] at h
  obtain ⟨⟨_, p1⟩, h1, ⟨_, p2⟩, h2, ⟨_, p3⟩, h3', ⟨_, p4⟩, h4, ⟨_, p5⟩, h5, h⟩ := h
  obtain ⟨fit1, -, end1, -⟩ := takeIf_ok _ _ _ _ _ _ h1
  obtain ⟨fit2, -, end2, -⟩ := takeIf_ok _ _ _ _ _ _ h2
  obtain ⟨fit3, -, end3, -⟩ := takeIf_ok _ _ _ _ _ _ h3'
  obtain ⟨fit4, -, end4, -⟩ := takeIf_ok _ _ _ _ _ _ h4
  obtain ⟨fit5, -, end5, -⟩ := takeIf_ok _ _ _ _ _ _ h5
  have hend : p5 = 3 + (macFieldWidths fc).sum := by
    simp only [macFieldWidths_eq, List.sum_cons, List.sum_nil, ← Nat.add_assoc, Nat.add_zero]
    simp only [Bool.and_eq_true, decide_eq_true_eq, Bool.not_eq_true'] at end1 end2 end3 end4 end5
    rw [end5, end4, end3, end2, end1]
  rw [← hend]
  injection h with h
  obtain ⟨rfl, rfl⟩ := Prod.mk.inj h
  exact ⟨rfl, fit5 (fit4 (fit3 (fit2 (fit1 h3)))), rfl⟩

/-- A frame the MAC decoder accepts is well formed, and its payload is what follows its header (41_mac.md R207). -/
theorem macDecode_wellFormed (b p : Bytes) (f : MacFields) (h : macDecode b = .ok (f, p)) :
    macMalformedAt b = none ∧ p = b.drop (macHeaderLen b) ∧ f.fc = b.getD 1 0 ++ b.getD 0 0 := by
  have mode_eq_one : ∀ v : BitVec 2, v.toNat = 1 ↔ v = 1 := by decide
  simp only [macDecode, macDmode, macSmode, mode_eq_one, fieldAt_16] at h
  split at h
  · cases h
  next h2 =>
  split at h
  · cases h
  next hmodes =>
  split at h
  · cases h
  next h3 =>
  obtain ⟨hfc, hfit, hp⟩ := macDecodeFields_ok b p _ f (by omega) h
  refine ⟨?_, hp, hfc⟩
  simp only [macMalformedAt]
  rw [if_neg h2, if_neg hmodes, if_neg h3, firstCut_of_fits _ _ _ hfit]

/-- The frame type is in the first byte (30_encoding.md R130). -/
theorem macType_eq_one_iff (x y : Byte) : macType (x ++ y) = 1 ↔ y.extractLsb' 0 3 = 1#3 := by
  have hlow : (x ++ y : Half).extractLsb' 0 3 = y.extractLsb' 0 3 := by
    apply BitVec.eq_of_getLsbD_eq
    intro k hk
    have hbyte : (x ++ y).getLsbD k = y.getLsbD k := by
      rw [BitVec.getLsbD_append, if_pos (by omega)]
    simp only [BitVec.getLsbD_extractLsb', Nat.zero_add]
    exact congrArg _ hbyte
  have hone : ∀ v : BitVec 3, v.toNat = 1 ↔ v = 1#3 := by decide
  rw [macType, hlow, hone]

/-- A parse writes the security-control byte of the NWK frame inside its MAC frame back (44_facade.md R309). -/
theorem parseFn_writeBack (enc : Bytes → Bytes) (keyset : Bool) (b : Bytes) (r : ParseResult)
    (h : parseFn enc keyset b = .ok r) : r.wb.map Prod.fst = parseWriteBackAt b := by
  unfold parseFn at h
  split at h
  · cases h
  next f mp hm =>
  obtain ⟨hwf, rfl, hfc⟩ := macDecode_wellFormed b mp f hm
  have hlen := macHeaderLen_le b hwf
  have htype := macType_eq_one_iff (b.getD 1 0) (b.getD 0 0)
  rw [← hfc] at htype
  rw [parseWriteBackAt]
  split at h
  · next hdata =>
    injection h with h
    subst h
    rw [if_neg (fun hc => hdata (htype.2 hc.2))]
    rfl
  · next hdata =>
    injection h with h
    subst h
    rw [if_pos ⟨hwf, htype.1 (not_not.1 hdata)⟩, (parseNwk_keeps _ _ _).1, ← nwkDecode_writeBack enc keyset,
      List.length_drop, Nat.sub_sub_self hlen, Option.map_map, Option.map_map]
    rfl

end Sys2Proof.Machine
end

section
/-! What a command writes of DMEM (20_memory.md R91): its output region, the M region of CCM, and the byte it writes
back into I. -/

namespace Sys2Proof.Machine

/-- Writing a string changes no byte outside it. -/
theorem writeBytes_changes (m : Dmem) (p : Nat) (b : Bytes) (a : Nat) (h : (m.writeBytes p b).read a ≠ m.read a) :
    p ≤ a ∧ a < p + b.length := by
  by_contra hout
  exact h (by rw [read_writeBytes, if_neg hout])

/-- An output changes no byte outside O (30_encoding.md R126). -/
theorem emitted_changes (u t : State) (out : Bytes) (a : Nat) (h : emitted u out t)
    (hne : t.dmem.read a ≠ u.dmem.read a) : u.covers .o a := by
  obtain ⟨hfit, rfl⟩ := h
  obtain ⟨hlow, hhigh⟩ := writeBytes_changes _ _ _ _ hne
  exact ⟨hlow, by omega⟩

/-- A write-back changes no byte but its own (42_nwk.md R234). -/
theorem wroteBack_changes (s : State) (wb : Option (Nat × Byte)) (a : Nat)
    (hne : (wroteBack s wb).dmem.read a ≠ s.dmem.read a) :
    (wb.map Prod.fst).map (s.regions.ptr .i + ·) = some a := by
  cases wb with
  | none => exact absurd rfl hne
  | some w =>
    by_contra hother
    have ha : a ≠ s.regions.ptr .i + w.1 := fun h => hother (congrArg some h.symm)
    exact hne (read_write_other _ _ _ _ ha)

/-- The bytes of DMEM that R91 lets a command write. -/
def State.mayWrite (s : State) (i : Instr) (a : Nat) : Prop :=
  (hasOutput i ∧ s.covers .o a) ∨ (Region.m ∈ regionsOf i ∧ s.covers .m a) ∨ s.writesBack i a

/-- A command that writes an output over registers of its own choice writes O alone. -/
theorem mayWrite_of_emitted (i : Instr) (s u t : State) (out : Bytes) (a : Nat) (hi : hasOutput i)
    (hregions : u.regions = s.regions) (hdmem : u.dmem = s.dmem) (h : emitted u out t)
    (hne : t.dmem.read a ≠ s.dmem.read a) : s.mayWrite i a := by
  have hcovers := emitted_changes u t out a h (hdmem ▸ hne)
  exact .inl ⟨hi, by simpa only [State.covers, hregions] using hcovers⟩

/-- A command that also writes a byte back writes O and that byte. -/
theorem mayWrite_of_wroteBack (i : Instr) (s u t : State) (wb : Option (Nat × Byte)) (out : Bytes) (a : Nat)
    (hi : hasOutput i) (hregions : u.regions = s.regions) (hdmem : u.dmem = s.dmem)
    (hwb : (wb.map Prod.fst).map (s.regions.ptr .i + ·) = some a → s.writesBack i a)
    (h : emitted (wroteBack u wb) out t) (hne : t.dmem.read a ≠ s.dmem.read a) : s.mayWrite i a := by
  by_cases hout : t.dmem.read a = (wroteBack u wb).dmem.read a
  · have hback := wroteBack_changes u wb a (by rwa [← hout, hdmem])
    exact .inr (.inr (hwb (hregions ▸ hback)))
  · have hcovers := emitted_changes _ t out a h hout
    exact .inl ⟨hi, by simpa only [State.covers, wroteBack_regions, hregions] using hcovers⟩

/-- A CCM command writes the message in place: M alone (40_aes_ccm.md R177, R178). -/
theorem mayWrite_of_message (i : Instr) (s : State) (out : Bytes) (a : Nat) (hi : Region.m ∈ regionsOf i)
    (hlen : out.length = s.regions.len .m)
    (hne : (s.dmem.writeBytes (s.regions.ptr .m) out).read a ≠ s.dmem.read a) : s.mayWrite i a := by
  have hspan := writeBytes_changes _ _ _ _ hne
  rw [hlen] at hspan
  exact .inr (.inl ⟨hi, hspan⟩)

/-- The counter pass keeps the length of the message (40_aes_ccm.md R166). -/
theorem ccmMessage_length (s : State) : (ctr s.cipher s.nonce.bytes (s.bytesOf .m)).1.length = s.regions.len .m := by
  rw [ctr_length s.cipher (cipher_length s), bytesOf_length]

@[simp] theorem putParsed_dmem (s : State) (r : ParseResult) : (putParsed s r).dmem = s.dmem := by
  rw [putParsed_eq]

@[simp] theorem putComposed_dmem (s : State) (l : LayerSet) (aseq : Bool) (u : Option NwkUpdate) :
    (putComposed s l aseq u).dmem = s.dmem := by
  rw [putComposed_eq]

/-- A command that succeeds writes only what R91 allows. -/
theorem didCore_changes (i : Instr) (s t : State) (r : Report) (a : Nat) (hr : s.Ready i) (h : didCore i s t r)
    (hne : t.dmem.read a ≠ s.dmem.read a) : s.mayWrite i a := by
  have output {u : State} {out : Bytes} (he : emitted u out t) (hi : hasOutput i) (hregions : u.regions = s.regions)
      (hdmem : u.dmem = s.dmem) : s.mayWrite i a :=
    mayWrite_of_emitted i s u t out a hi hregions hdmem he hne
  cases i <;> simp only [didCore] at h
  case nop => exact absurd (by rw [h.1]) hne
  case aesEnc => exact output h.2.1 (by simp [hasOutput, regionsOf]) rfl rfl
  case aesDec => exact output h.2.1 (by simp [hasOutput, regionsOf]) rfl rfl
  case ccmEnc =>
    obtain ⟨-, -, rfl⟩ := h
    exact mayWrite_of_message _ s _ a (by simp [regionsOf]) (ccmMessage_length s) hne
  case ccmDec =>
    obtain ⟨-, -, rfl⟩ := h
    exact mayWrite_of_message _ s _ a (by simp [regionsOf]) (ccmMessage_length s) hne
  case macDec =>
    obtain ⟨f, p, -, he, -⟩ := h
    exact output he (by simp [hasOutput, regionsOf]) rfl rfl
  case macEnc =>
    obtain ⟨b, panc, -, he, -⟩ := h
    exact output he (by simp [hasOutput, regionsOf]) (by simp) (by simp)
  case nwkDec =>
    refine mayWrite_of_wroteBack .nwkDec s _ t _ _ a (by simp [hasOutput, regionsOf]) (by simp) (by simp)
      (fun hback => ?_) h.1 hne
    rw [nwkDecode_writeBack] at hback
    exact ⟨hr.range .i (by simp [regionsOf]), .inl ⟨rfl, hback⟩⟩
  case nwkEnc =>
    obtain ⟨b, u, -, he, -⟩ := h
    exact output he (by simp [hasOutput, regionsOf]) (by simp) (by simp)
  case apsDec =>
    obtain ⟨f, p, -, he, -⟩ := h
    exact output he (by simp [hasOutput, regionsOf]) rfl rfl
  case apsEnc => exact output h.1 (by simp [hasOutput, regionsOf]) rfl rfl
  case zclDec =>
    obtain ⟨f, p, -, he, -⟩ := h
    exact output he (by simp [hasOutput, regionsOf]) rfl rfl
  case zclEnc => exact output h.1 (by simp [hasOutput, regionsOf]) rfl rfl
  case parse =>
    obtain ⟨o, ho, he, -⟩ := h
    refine mayWrite_of_wroteBack .parse s _ t _ _ a (by simp [hasOutput, regionsOf]) (by simp) (by simp)
      (fun hback => ?_) he hne
    rw [parseFn_writeBack _ _ _ _ ho] at hback
    exact ⟨hr.range .i (by simp [regionsOf]), .inr ⟨rfl, hback⟩⟩
  case compose =>
    obtain ⟨-, he, -⟩ := h
    exact output he (by simp [hasOutput, regionsOf]) (by simp) (by simp)

/-- A command writes only what R91 allows, whether it succeeds or raises. -/
theorem exec_changes (i : Instr) (s t : State) (a : Nat) (h : exec i s = .next t)
    (hne : t.dmem.read a ≠ s.dmem.read a) : s.mayWrite i a := by
  obtain ⟨c, l, o, hraised, -, -⟩ | ⟨u, r, hr, hu, hdone⟩ := exec_cases i s
  · obtain rfl : s.raised c l o = t := Host.Outcome.next.inj (hraised.symm.trans h)
    exact absurd rfl hne
  · obtain rfl : u.complete r = t := Host.Outcome.next.inj (hdone.symm.trans h)
    exact didCore_changes i s u r a hr hu hne

end Sys2Proof.Machine
end

section
/-! What a command reads of DMEM (20_memory.md R91): its input regions. Over two memories that agree there, its core
makes the same writes and leaves the same registers. -/

namespace Sys2Proof.Machine

/-- `s` with another memory. -/
def State.withDmem (s : State) (d : Dmem) : State := { s with dmem := d }

@[simp] theorem withDmem_dmem (s : State) (d : Dmem) : (s.withDmem d).dmem = d := rfl
@[simp] theorem withDmem_key (s : State) (d : Dmem) : (s.withDmem d).key = s.key := rfl
@[simp] theorem withDmem_keySet (s : State) (d : Dmem) : (s.withDmem d).keySet = s.keySet := rfl
@[simp] theorem withDmem_cipher (s : State) (d : Dmem) : (s.withDmem d).cipher = s.cipher := rfl
@[simp] theorem withDmem_nonce (s : State) (d : Dmem) : (s.withDmem d).nonce = s.nonce := rfl
@[simp] theorem withDmem_mic (s : State) (d : Dmem) : (s.withDmem d).mic = s.mic := rfl
@[simp] theorem withDmem_fc (s : State) (d : Dmem) : (s.withDmem d).fc = s.fc := rfl
@[simp] theorem withDmem_regions (s : State) (d : Dmem) : (s.withDmem d).regions = s.regions := rfl
@[simp] theorem withDmem_nwk (s : State) (d : Dmem) : (s.withDmem d).nwk = s.nwk := rfl
@[simp] theorem withDmem_aps (s : State) (d : Dmem) : (s.withDmem d).aps = s.aps := rfl
@[simp] theorem withDmem_zcl (s : State) (d : Dmem) : (s.withDmem d).zcl = s.zcl := rfl

@[simp] theorem macOperand_withDmem (s : State) (d : Dmem) (aseq : Bool) :
    macOperand (s.withDmem d) aseq = macOperand s aseq := rfl

@[simp] theorem composeCheck_withDmem (s : State) (d : Dmem) (l : LayerSet) :
    composeCheck (s.withDmem d) l = composeCheck s l := rfl

@[simp] theorem composeNwk_withDmem (enc : Bytes → Bytes) (s : State) (d : Dmem) (l : LayerSet) (pl : Bytes) :
    composeNwk enc (s.withDmem d) l pl = composeNwk enc s l pl := rfl

@[simp] theorem composeFrame_withDmem (enc : Bytes → Bytes) (s : State) (d : Dmem) (l : LayerSet) (aseq : Bool)
    (pl : Bytes) : composeFrame enc (s.withDmem d) l aseq pl = composeFrame enc s l aseq pl := rfl

@[simp] theorem putNonce_withDmem (s : State) (d : Dmem) (n : Option Bytes) :
    putNonce (s.withDmem d) n = (putNonce s n).withDmem d := by cases n <;> rfl

@[simp] theorem putParsed_withDmem (s : State) (d : Dmem) (r : ParseResult) :
    putParsed (s.withDmem d) r = (putParsed s r).withDmem d :=
  putNonce_withDmem { s with mac := r.mac, nwk := r.nwk, aps := r.aps, zcl := r.zcl } d r.nonce

@[simp] theorem putNwkUpdate_withDmem (s : State) (d : Dmem) (u : Option NwkUpdate) :
    putNwkUpdate (s.withDmem d) u = (putNwkUpdate s u).withDmem d := by cases u <;> rfl

@[simp] theorem putMacEncoded_withDmem (s : State) (d : Dmem) (aseq panc : Bool) :
    putMacEncoded (s.withDmem d) aseq panc = (putMacEncoded s aseq panc).withDmem d := by cases aseq <;> rfl

@[simp] theorem putComposed_withDmem (s : State) (d : Dmem) (l : LayerSet) (aseq : Bool) (u : Option NwkUpdate) :
    putComposed (s.withDmem d) l aseq u = (putComposed s l aseq u).withDmem d := by
  unfold putComposed
  cases l.mac <;> simp

/-! ### The same writes over two memories -/

/-- Memories that agree on a region give the same string there. -/
theorem readBytes_congr (m d : Dmem) (p n : Nat) (h : ∀ a, p ≤ a → a < p + n → d.read a = m.read a) :
    d.readBytes p n = m.readBytes p n := by
  induction n generalizing p with
  | zero => rfl
  | succ n ih =>
    rw [Dmem.readBytes, Dmem.readBytes, h p (Nat.le_refl p) (by omega),
      ih (p + 1) (fun a hlow hhigh => h a (by omega) (by omega))]

/-- `m` and `d` come from `m₀` and `d₀` by the same writes: a byte is equal in both, or is in neither written. -/
def SameWrites (m₀ d₀ m d : Dmem) : Prop :=
  ∀ a, d.read a = m.read a ∨ (d.read a = d₀.read a ∧ m.read a = m₀.read a)

theorem SameWrites.refl (m d : Dmem) : SameWrites m d m d := fun _ => .inr ⟨rfl, rfl⟩

theorem SameWrites.write {m₀ d₀ m d : Dmem} (h : SameWrites m₀ d₀ m d) (p : Nat) (v : Byte) :
    SameWrites m₀ d₀ (m.write p v) (d.write p v) := by
  intro a
  rw [read_write, read_write]
  by_cases ha : a = p
  · exact .inl (by rw [if_pos ha, if_pos ha])
  · rw [if_neg ha, if_neg ha]
    exact h a

theorem SameWrites.writeBytes {m₀ d₀ m d : Dmem} (h : SameWrites m₀ d₀ m d) (p : Nat) (b : Bytes) :
    SameWrites m₀ d₀ (m.writeBytes p b) (d.writeBytes p b) := by
  induction b generalizing m d p with
  | nil => exact h
  | cons x b ih => exact ih (h.write p x) (p + 1)

theorem SameWrites.wroteBack {m₀ d₀ d : Dmem} {u : State} (h : SameWrites m₀ d₀ u.dmem d) (wb : Option (Nat × Byte)) :
    ∃ d', wroteBack (u.withDmem d) wb = (wroteBack u wb).withDmem d' ∧
      SameWrites m₀ d₀ (wroteBack u wb).dmem d' := by
  cases wb with
  | none => exact ⟨d, rfl, h⟩
  | some w => exact ⟨_, rfl, h.write _ _⟩

/-- Two runs of a body over the memories `m₀` and `d₀` end alike: in the same error, or with the same report in states
that differ in DMEM at most, where they made the same writes. -/
inductive SameResult (m₀ d₀ : Dmem) : Except Halt (State × Report) → Except Halt (State × Report) → Prop
  | ok (t : State) (r : Report) (d : Dmem) (h : SameWrites m₀ d₀ t.dmem d) :
    SameResult m₀ d₀ (.ok (t, r)) (.ok (t.withDmem d, r))
  | error (e : Halt) : SameResult m₀ d₀ (.error e) (.error e)

/-- An output is checked and written alike over both memories (30_encoding.md R126). -/
theorem SameWrites.emit {m₀ d₀ d : Dmem} {u : State} (h : SameWrites m₀ d₀ u.dmem d) (out : Bytes) (r : Report) :
    SameResult m₀ d₀ (emit u out r) (emit (u.withDmem d) out r) := by
  unfold Machine.emit
  by_cases hl : out.length ≤ u.regions.len .o
  · rw [if_pos hl, if_pos (show out.length ≤ (u.withDmem d).regions.len .o from hl)]
    exact .ok { u with dmem := u.dmem.writeBytes (u.regions.ptr .o) out, oLen := BitVec.ofNat 16 out.length } r _
      (h.writeBytes _ out)
  · rw [if_neg hl, if_neg (show ¬ out.length ≤ (u.withDmem d).regions.len .o from hl)]
    exact .error _

/-- The core of a command runs alike over two memories that give it the same input (20_memory.md R91). -/
theorem coreOf_sameResult (i : Instr) (s : State) (d : Dmem)
    (hin : ∀ x ∈ regionsOf i, x ≠ .o → (s.withDmem d).bytesOf x = s.bytesOf x) :
    SameResult s.dmem d (coreOf i s) (coreOf i (s.withDmem d)) := by
  have hs := SameWrites.refl s.dmem d
  cases i <;> simp only [regionsOf, List.forall_mem_cons, reduceCtorEq, ne_eq, not_true_eq_false,
    not_false_eq_true, true_implies, false_implies] at hin
  case nop => exact .ok s {} d hs
  case aesEnc =>
    simp only [coreOf, hin, withDmem_key, withDmem_keySet]
    split
    · exact hs.emit _ {}
    · exact .error _
  case aesDec =>
    simp only [coreOf, hin, withDmem_key, withDmem_keySet]
    split
    · exact hs.emit _ {}
    · exact .error _
  case ccmEnc =>
    obtain ⟨hauth, hmessage⟩ := hin
    simp only [coreOf, hauth, hmessage, withDmem_keySet, withDmem_cipher, withDmem_nonce, withDmem_regions,
      withDmem_dmem]
    generalize ccmEncrypt s.cipher s.nonce.bytes (s.bytesOf .a) (s.bytesOf .m) = o
    split
    · exact .ok { s with
        dmem := s.dmem.writeBytes (s.regions.ptr .m) o.c, mic := fieldAt 32 o.u 0, nonce := .ofBytes o.nonce } {} _
        (hs.writeBytes _ o.c)
    · exact .error _
  case ccmDec v _ =>
    obtain ⟨hauth, hmessage⟩ := hin
    simp only [coreOf, hauth, hmessage, withDmem_keySet, withDmem_cipher, withDmem_nonce, withDmem_regions,
      withDmem_dmem, withDmem_mic]
    generalize ccmDecrypt s.cipher s.nonce.bytes (s.bytesOf .a) (s.bytesOf .m) (leOf s.mic) v = o
    split
    · exact .ok { s with dmem := s.dmem.writeBytes (s.regions.ptr .m) o.m, nonce := .ofBytes o.nonce } _ _
        (hs.writeBytes _ o.m)
    · exact .error _
  case macDec =>
    simp only [coreOf, hin]
    cases macDecode (s.bytesOf .i) with
    | error off => exact .error _
    | ok r => exact SameWrites.emit (u := { s with mac := r.1 }) hs r.2 {}
  case macEnc aseq =>
    simp only [coreOf, hin, macOperand_withDmem]
    cases macEncode (macOperand s aseq) (s.bytesOf .p) with
    | none => exact .error _
    | some r =>
      simp only [putMacEncoded_withDmem]
      exact SameWrites.emit (by rwa [putMacEncoded_dmem]) r.1 {}
  case nwkDec =>
    simp only [coreOf, hin, withDmem_keySet, withDmem_cipher]
    generalize nwkDecode s.cipher s.keySet (s.bytesOf .i) = o
    obtain ⟨d', heq, hd'⟩ := SameWrites.wroteBack (u := putNonce { s with nwk := o.f } o.nonce) (d := d)
      (by rwa [putNonce_dmem]) o.wb
    rw [show { s.withDmem d with nwk := o.f } = State.withDmem { s with nwk := o.f } d from rfl, putNonce_withDmem, heq]
    exact hd'.emit o.p _
  case nwkEnc =>
    simp only [coreOf, hin, withDmem_nwk, withDmem_keySet, withDmem_cipher, withDmem_fc]
    cases nwkEncode s.cipher s.nwk (s.bytesOf .p) s.keySet s.fc with
    | error e => cases e <;> exact .error _
    | ok r =>
      simp only [putNwkUpdate_withDmem]
      exact SameWrites.emit (by rwa [putNwkUpdate_dmem]) r.1 {}
  case apsDec =>
    simp only [coreOf, hin]
    cases apsDecode (s.bytesOf .i) with
    | error off => exact .error _
    | ok r => exact SameWrites.emit (u := { s with aps := r.1 }) hs r.2 {}
  case apsEnc =>
    simp only [coreOf, hin, withDmem_aps]
    exact hs.emit _ {}
  case zclDec =>
    simp only [coreOf, hin]
    cases zclDecode (s.bytesOf .i) with
    | error off => exact .error _
    | ok r => exact SameWrites.emit (u := { s with zcl := r.1 }) hs r.2 {}
  case zclEnc =>
    simp only [coreOf, hin, withDmem_zcl]
    exact hs.emit _ {}
  case parse =>
    simp only [coreOf, hin, withDmem_keySet, withDmem_cipher]
    cases parseFn s.cipher s.keySet (s.bytesOf .i) with
    | error off => exact .error _
    | ok o =>
      obtain ⟨d', heq, hd'⟩ := SameWrites.wroteBack (u := putParsed s o) (d := d) (by rwa [putParsed_dmem]) o.wb
      simp only [putParsed_withDmem, heq]
      exact hd'.emit o.out _
  case compose l aseq =>
    simp only [coreOf, hin, withDmem_cipher, composeCheck_withDmem, composeNwk_withDmem, composeFrame_withDmem,
      putComposed_withDmem]
    cases composeCheck s l with
    | error e => exact .error e
    | ok _ => exact SameWrites.emit (by rwa [putComposed_dmem]) _ {}

/-- The end of a command keeps two runs alike (60_exceptions.md R333). -/
theorem SameResult.finish {s t : State} {d : Dmem} {x y : Except Halt (State × Report)} (h : SameResult s.dmem d x y)
    (hx : s.finish x = .next t) :
    ∃ m, (s.withDmem d).finish y = .next (t.withDmem m) ∧ SameWrites s.dmem d t.dmem m := by
  cases h with
  | ok u r m hm =>
    obtain rfl : u.complete r = t := Host.Outcome.next.inj hx
    exact ⟨m, rfl, hm⟩
  | error e =>
    cases e with
    | error e =>
      obtain rfl : s.complete e.report = t := Host.Outcome.next.inj hx
      exact ⟨d, rfl, SameWrites.refl s.dmem d⟩
    | fault f => cases hx

/-- Over a memory that agrees on the input regions a command leaves the same registers and makes the same writes. -/
theorem exec_withDmem (i : Instr) (s t : State) (d : Dmem)
    (hin : ∀ x ∈ regionsOf i, x ≠ .o → ∀ a, s.covers x a → d.read a = s.dmem.read a) (h : exec i s = .next t) :
    ∃ m, exec i (s.withDmem d) = .next (t.withDmem m) ∧ SameWrites s.dmem d t.dmem m := by
  have hcore := coreOf_sameResult i s d fun x hx hxo =>
    readBytes_congr _ _ _ _ fun a hlow hhigh => hin x hx hxo a ⟨hlow, hhigh⟩
  rw [exec_eq] at h ⊢
  rw [show checks i (s.withDmem d) = checks i s from rfl]
  refine SameResult.finish ?_ h
  cases checks i s with
  | error e => exact .error e
  | ok _ => exact hcore

/-- Settles O46: every command writes only what R91 allows (`exec_changes`), and runs alike over memories that agree on
its input regions (`exec_withDmem`). -/
theorem engineAccessesOnlyItsRegions : Obligations.EngineAccessesOnlyItsRegions :=
  ⟨exec_changes, fun i s t d hin h => exec_withDmem i s t d hin h⟩

end Sys2Proof.Machine
end

section
/-! The host's accesses: its turn, which accesses are refused, and what the others do (20_memory.md R83 to R93). -/

namespace Sys2Proof.Machine

/-! ### The host's turn -/

/-- Settles O7: a step that completes no command is the host's turn. -/
theorem hostInputsTakeTheirTurn : Obligations.HostInputsTakeTheirTurn := by
  intro s h
  have hnot : s.completing = false := by
    rw [← Bool.not_eq_true, completing_iff]
    rintro ⟨hbusy, hwait⟩
    exact h.elim (fun hidle => absurd hbusy (by simp [hidle])) (fun hw => hw hwait)
  rw [step_of_not_completing s hnot]
  exact ⟨fun hin => congrArg _ (hostTurn_nil s hin), fun x rest hin => congrArg _ (hostTurn_cons s x rest hin)⟩

/-! ### Refused accesses -/

/-- A read that is not permitted is refused (20_memory.md R87). -/
theorem hostRead_refused (s : State) (width : AccessWidth) (off : BitVec 12) (h : ¬ permitted width off.toNat) :
    hostRead s width off = s.refuseAccess.answer 0 := by
  simp only [hostRead, (target_none_iff width off).2 h]

/-- A write that is not permitted is refused (20_memory.md R87). -/
theorem hostWrite_refused (s : State) (width : AccessWidth) (off : BitVec 12) (v : Word)
    (h : ¬ permitted width off.toNat) : hostWrite s width off v = s.refuseAccess := by
  simp only [hostWrite, (target_none_iff width off).2 h]

/-- What a permitted access reaches: a register at its offset, or DMEM. -/
theorem permitted_cases (width : AccessWidth) (off : BitVec 12) (h : permitted width off.toNat) :
    (∃ r, width = .w32 ∧ regAt off.toNat = some r) ∨
      (target width off = some (.dmem (off.toNat - 0x400)) ∧ 0x400 ≤ off.toNat) := by
  cases ht : target width off with
  | none => exact absurd h ((target_none_iff width off).1 ht)
  | some x =>
    cases x with
    | reg r => exact .inl ⟨r, target_reg width off r ht⟩
    | dmem a =>
      obtain ⟨hoff, -⟩ := target_dmem width off a ht
      exact .inr ⟨by rw [hoff, Nat.add_sub_cancel_left], by omega⟩

/-- The registers writable while BUSY are CMD, STATUS and CTRL (20_memory.md R87). -/
theorem writableBusy_iff (n : Nat) (r : Reg) (h : regAt n = some r) :
    writableBusy n ↔ r = .cmd ∨ r = .status ∨ r = .ctrl := by
  obtain ⟨hcmd, hstatus, hctrl⟩ := regAt_special n r h
  constructor
  · rintro (rfl | rfl | rfl)
    · exact .inl (Option.some.inj h).symm
    · exact .inr (.inl (Option.some.inj h).symm)
    · exact .inr (.inr (Option.some.inj h).symm)
  · rintro (hr | hr | hr)
    · exact .inl (hcmd hr)
    · exact .inr (.inl (hstatus hr))
    · exact .inr (.inr (hctrl hr))

/-- A write in BUSY to anything but CMD, STATUS and CTRL is refused, permitted by its address or not (20_memory.md
R87). -/
theorem hostWrite_busy_refused (s : State) (width : AccessWidth) (off : BitVec 12) (v : Word)
    (hbusy : s.status.busy = true) (h : ¬ writableBusy off.toNat) : hostWrite s width off v = s.refuseAccess := by
  by_cases hp : permitted width off.toNat
  · obtain ⟨r, rfl, hat⟩ | ⟨ht, -⟩ := permitted_cases width off hp
    · rw [writableBusy_iff _ r hat, not_or, not_or] at h
      obtain ⟨hcmd, hstatus, hctrl⟩ := h
      rw [hostWrite_reg s off v r hat, writeTarget_eq s v r hcmd hstatus hctrl, hbusy]
      rfl
    · simp only [hostWrite, ht, hbusy, if_true]
  · exact hostWrite_refused s width off v hp

/-! ### Permitted accesses -/

/-- A permitted read moves the model's own fields alone (20_memory.md R88, R89). -/
theorem hostRead_permitted (s : State) (width : AccessWidth) (off : BitVec 12) (h : permitted width off.toNat) :
    ∃ v n, hostRead s width off = { s with busData := v, draws := n } := by
  unfold hostRead
  cases ht : target width off with
  | none => exact absurd h ((target_none_iff width off).1 ht)
  | some x =>
    cases x with
    | reg r =>
      simp only
      split <;> exact ⟨_, _, rfl⟩
    | dmem a =>
      simp only
      split <;> exact ⟨_, _, rfl⟩

/-- A write to CMD, STATUS or CTRL does not set BUSERR (60_exceptions.md R336; 10_state.md R36, R37). -/
theorem writeTarget_special_buserr (s : State) (v : Word) (r : Reg) (hr : r = .cmd ∨ r = .status ∨ r = .ctrl)
    (h : (writeTarget s v r).status.buserr = true) : s.status.buserr = true := by
  obtain rfl | rfl | rfl := hr
  · have hkept : (writeCmd s v).status.buserr = s.status.buserr := by
      unfold writeCmd
      split <;> rfl
    exact hkept ▸ h
  · have hcleared : (s.status.buserr && !v.getLsbD 3) = true := h
    exact ((Bool.and_eq_true _ _).mp hcleared).1
  · have hcontrol : (writeCtrl s v).status.buserr = true := h
    unfold writeCtrl at hcontrol
    split at hcontrol
    · cases hcontrol
    · exact hcontrol

/-- A write that is permitted, in IDLE or to a register writable in BUSY, does not set BUSERR (20_memory.md R87). -/
theorem hostWrite_permitted_buserr (s : State) (width : AccessWidth) (off : BitVec 12) (v : Word)
    (hp : permitted width off.toNat) (hw : s.status.busy = false ∨ writableBusy off.toNat)
    (h : (hostWrite s width off v).status.buserr = true) : s.status.buserr = true := by
  obtain ⟨r, rfl, hat⟩ | ⟨ht, hlow⟩ := permitted_cases width off hp
  · rw [hostWrite_reg s off v r hat] at h
    rw [writableBusy_iff _ r hat] at hw
    by_cases hspecial : r = .cmd ∨ r = .status ∨ r = .ctrl
    · exact writeTarget_special_buserr s v r hspecial h
    · have hidle := hw.resolve_right hspecial
      rw [not_or, not_or] at hspecial
      obtain ⟨hcmd, hstatus, hctrl⟩ := hspecial
      rw [writeTarget_eq s v r hcmd hstatus hctrl, hidle] at h
      rwa [← (writeReg_keeps s v r hstatus).1]
  · have hidle : s.status.busy = false := hw.resolve_right (by unfold writableBusy; omega)
    simpa [hostWrite, ht, hidle] using h

/-- Settles O49: the refused accesses one by one, then that no other access sets BUSERR. -/
theorem refusedAccessOnlySetsBuserr : Obligations.RefusedAccessOnlySetsBuserr := by
  refine fun s width off v =>
    ⟨hostRead_refused s width off, hostWrite_refused s width off v, hostWrite_busy_refused s width off v, fun hp => ?_,
      hostWrite_permitted_buserr s width off v⟩
  obtain ⟨_, _, hread⟩ := hostRead_permitted s width off hp
  rw [hread]

/-- A permitted access below 0x200 is one of 32 bits, aligned (20_memory.md R85). -/
theorem permitted_low (width : AccessWidth) (n : Nat) (h : permitted width n) (hn : n < 0x200) :
    width = .w32 ∧ n % 4 = 0 := by
  obtain ⟨-, hw, halign, -⟩ | ⟨hhigh, -⟩ := h
  · exact ⟨hw, halign⟩
  · omega

/-- A register that R88 names reads its value in BUSY too. -/
theorem hostRead_readableBusy (s : State) (off : BitVec 12) (r : Reg) (h : regAt off.toNat = some r)
    (hr : r.readableBusy = true) : hostRead s .w32 off = s.answer (readReg s r) := by
  simp [hostRead, target_w32 off r h, hr]

/-- CTRL reads IE in bit 0 (10_state.md R37). -/
theorem readReg_ctrl (s : State) : readReg s .ctrl = if s.ie then 1 else 0 := by
  show placeBit 0 s.ie = _
  cases s.ie <;> rfl

/-- The offsets of KEY0 to KEY3 (10_state.md R34). -/
theorem regAt_keys (n : Nat) (hlow : 0x010 ≤ n) (hhigh : n < 0x020) (h4 : n % 4 = 0) : ∃ k, regAt n = some (.key k) := by
  have hoffset : n = 0x010 ∨ n = 0x014 ∨ n = 0x018 ∨ n = 0x01C := by omega
  obtain rfl | rfl | rfl | rfl := hoffset
  · exact ⟨0, rfl⟩
  · exact ⟨1, rfl⟩
  · exact ⟨2, rfl⟩
  · exact ⟨3, rfl⟩

/-- Settles O50: STATUS, CTRL, CMD and KEY read in BUSY as in IDLE, and any permitted read moves only the model's own
fields. -/
theorem readsWhileBusy : Obligations.ReadsWhileBusy := by
  intro s width off _ hp
  have width_of_low (hlow : off.toNat < 0x200) : width = .w32 := (permitted_low width _ hp hlow).1
  refine ⟨?_, ?_, ?_, hostRead_permitted s width off hp⟩
  · rintro rfl
    obtain rfl := width_of_low (by decide)
    exact hostRead_readableBusy s _ .status rfl rfl
  · rintro rfl
    obtain rfl := width_of_low (by decide)
    rw [hostRead_readableBusy s _ .ctrl rfl rfl, readReg_ctrl]
    rfl
  · rintro (rfl | ⟨hlow, hhigh⟩)
    · obtain rfl := width_of_low (by decide)
      exact hostRead_readableBusy s _ .cmd rfl rfl
    · obtain ⟨hw, h4⟩ := permitted_low width _ hp (by omega)
      obtain ⟨k, hat⟩ := regAt_keys _ hlow hhigh h4
      rw [hw]
      exact hostRead_readableBusy s off (.key k) hat rfl

/-! ### DMEM, byte by byte -/

/-- Byte `k` of a string is digit `k` of its little-endian value (00_scope.md R12). -/
theorem rdLe_digit (b : Bytes) (k : Nat) : rdLe b / 256 ^ k % 256 = (b.getD k 0).toNat := by
  induction b generalizing k with
  | nil => simp [rdLe]
  | cons x b ih =>
    have hx : x.toNat < 256 := x.isLt
    cases k with
    | zero =>
      simp only [rdLe, List.getD_cons_zero]
      omega
    | succ k =>
      rw [List.getD_cons_succ, ← ih k, rdLe, Nat.pow_succ', ← Nat.div_div_eq_div_mul]
      congr 2
      omega

/-- Byte `k` of a little-endian encoding is digit `k` of the value (00_scope.md R12). -/
theorem le_getD (n v k : Nat) (h : k < n) : (le n v).getD k 0 = BitVec.ofNat 8 (v / 256 ^ k) := by
  induction n generalizing v k with
  | zero => omega
  | succ n ih =>
    cases k with
    | zero => simp [le]
    | succ k => rw [le, List.getD_cons_succ, ih _ k (by omega), Nat.div_div_eq_div_mul, Nat.pow_succ']

/-- Byte `k` of a word is digit `k` of its value. -/
theorem extractByte_eq (v : Word) (k : Nat) : v.extractLsb' (8 * k) 8 = BitVec.ofNat 8 (v.toNat / 256 ^ k) := by
  apply BitVec.eq_of_toNat_eq
  rw [BitVec.extractLsb'_toNat, Nat.shiftRight_eq_div_pow, Nat.pow_mul, BitVec.toNat_ofNat]

theorem width_bytes_le (width : AccessWidth) : width.bytes ≤ 4 := by cases width <;> decide

/-- The data of a DMEM read fit its width (20_memory.md R83). -/
theorem dmemValue_toNat (m : Dmem) (width : AccessWidth) (a : Nat) :
    (dmemValue m width a).toNat = rdLe (m.readBytes a width.bytes) ∧
      (dmemValue m width a).toNat < 256 ^ width.bytes := by
  have hlt := rdLe_lt (m.readBytes a width.bytes)
  rw [readBytes_length] at hlt
  have hword : 256 ^ width.bytes ≤ 2 ^ 32 := Nat.pow_le_pow_right (n := 256) (by decide) (width_bytes_le width)
  have hvalue : (dmemValue m width a).toNat = rdLe (m.readBytes a width.bytes) := by
    rw [dmemValue, BitVec.toNat_ofNat, Nat.mod_eq_of_lt (by omega)]
  exact ⟨hvalue, hvalue ▸ hlt⟩

/-- Byte `k` of the data of a DMEM read is the byte `k` further (20_memory.md R83). -/
theorem dmemValue_byte (m : Dmem) (width : AccessWidth) (a k : Nat) (h : k < width.bytes) :
    (dmemValue m width a).extractLsb' (8 * k) 8 = m.read (a + k) := by
  apply BitVec.eq_of_toNat_eq
  rw [extractByte_eq, BitVec.toNat_ofNat, (dmemValue_toNat m width a).1, rdLe_digit, readBytes_getD m a _ k h]

/-- A DMEM write stores byte `k` of its data at the address `k` further (20_memory.md R83). -/
theorem read_dmemStore (m : Dmem) (width : AccessWidth) (a : Nat) (v : Word) (b : Nat) :
    (dmemStore m width a v).read b =
      if a ≤ b ∧ b < a + width.bytes then v.extractLsb' (8 * (b - a)) 8 else m.read b := by
  rw [dmemStore, read_writeBytes, le_length]
  by_cases h : a ≤ b ∧ b < a + width.bytes
  · rw [if_pos h, if_pos h, le_getD _ _ _ (by omega), extractByte_eq]
  · rw [if_neg h, if_neg h]

/-- Settles O54: in IDLE an access to DMEM is `dmemStore` or `dmemValue`, whose bytes are those of the data. -/
theorem dmemAccessIsLittleEndian : Obligations.DmemAccessIsLittleEndian := by
  intro s width off v hidle hdmem hp n t
  have ht : target width off = some (.dmem (off.toNat - 0x400)) := by
    obtain ⟨r, -, hat⟩ | ⟨ht, -⟩ := permitted_cases width off hp
    · have hlow := regAt_lt _ r hat
      omega
    · exact ht
  have hn : n = width.bytes := by cases width <;> rfl
  have hwrite : t = { s with dmem := dmemStore s.dmem width (off.toNat - 0x400) v } := by
    simp only [t, hostWrite, ht, hidle, Bool.false_eq_true, if_false]
  have hread : hostRead s width off = s.answer (dmemValue s.dmem width (off.toNat - 0x400)) := by
    simp only [hostRead, ht, hidle, Bool.false_eq_true, if_false]
  rw [hwrite, hread, hn]
  exact ⟨rfl, read_dmemStore s.dmem width _ v, dmemValue_byte s.dmem width _, (dmemValue_toNat s.dmem width _).2, rfl⟩

end Sys2Proof.Machine
end

section
/-! The fields of a command word (30_encoding.md R110): a word is made of its fields and gives them back, and the mask
check of R113 says that a word is made of its permitted fields alone. Decoder and encoder meet in these fields. -/

namespace Sys2Proof.Machine

/-- OP, V, S, L and M (30_encoding.md R110). -/
structure CommandFields where
  op : Byte
  v : Bool
  s : Bool
  l : LayerSet
  m : BitVec 4

/-- No layer. -/
def noLayers : LayerSet := ⟨false, false, false, false⟩

/-- The word made of the fields, its reserved bits 0. -/
def CommandFields.word (f : CommandFields) : Word :=
  place 0 f.op ||| placeBit 8 f.v ||| placeBit 9 f.s ||| f.l.word ||| place 16 f.m

/-- The fields of a word. -/
def fieldsOf (w : Word) : CommandFields := ⟨opField w, vField w, sField w, lField w, mField w⟩

/-- OP and those of the fields V, S, L, M that are permitted, the others 0. -/
def CommandFields.keep (f : CommandFields) (v s l m : Bool) : CommandFields :=
  ⟨f.op, v && f.v, s && f.s, if l then f.l else noLayers, if m then f.m else 0⟩

/-- The mask of OP and the permitted fields (30_encoding.md R113). -/
def fieldMask (v s l m : Bool) : Word :=
  CommandFields.word ⟨BitVec.allOnes 8, v, s, ⟨l, l, l, l⟩, if m then BitVec.allOnes 4 else 0⟩

/-- The fields of a command's word (30_encoding.md R112). -/
def commandFields : Instr → CommandFields
  | .nop => ⟨0x00, false, false, noLayers, 0⟩
  | .aesEnc => ⟨0x01, false, false, noLayers, 0⟩
  | .aesDec => ⟨0x02, false, false, noLayers, 0⟩
  | .ccmEnc m => ⟨0x10, false, false, noLayers, m⟩
  | .ccmDec v m => ⟨0x11, v, false, noLayers, m⟩
  | .macDec => ⟨0x20, false, false, noLayers, 0⟩
  | .macEnc aseq => ⟨0x21, false, aseq, noLayers, 0⟩
  | .nwkDec => ⟨0x30, false, false, noLayers, 0⟩
  | .nwkEnc => ⟨0x31, false, false, noLayers, 0⟩
  | .apsDec => ⟨0x40, false, false, noLayers, 0⟩
  | .apsEnc => ⟨0x41, false, false, noLayers, 0⟩
  | .zclDec => ⟨0x50, false, false, noLayers, 0⟩
  | .zclEnc => ⟨0x51, false, false, noLayers, 0⟩
  | .parse => ⟨0x60, false, false, noLayers, 0⟩
  | .compose layers aseq => ⟨0x61, false, aseq, layers, 0⟩

@[simp] theorem placeBit_false (p : Nat) : placeBit p false = 0#32 := by simp [placeBit, place]

@[simp] theorem place_zero (n p : Nat) : place p (0#n) = 0#32 := by simp [place]

@[simp] theorem noLayers_word : noLayers.word = 0#32 := rfl

/-- The encoder makes the word of the command's fields (30_encoding.md R112, R150). -/
theorem encode_eq (i : Instr) : encode i = (commandFields i).word := by
  cases i <;> simp [encode, commandFields, CommandFields.word, place]

/-- Bit k of the word made of some fields (30_encoding.md R110). -/
theorem getLsbD_word (f : CommandFields) (k : Nat) (hk : k < 32) :
    f.word.getLsbD k =
      (f.op.getLsbD k || decide (k = 8) && f.v || decide (k = 9) && f.s ||
        (decide (k = 12) && f.l.mac || decide (k = 13) && f.l.nwk || decide (k = 14) && f.l.aps ||
          decide (k = 15) && f.l.zcl) ||
        decide (16 ≤ k) && f.m.getLsbD (k - 16)) := by
  simp only [CommandFields.word, LayerSet.word, BitVec.getLsbD_or, getLsbD_place _ _ k hk, getLsbD_placeBit _ _ k hk]
  simp

/-- A word made of some fields gives them back. -/
@[simp] theorem fieldsOf_word (f : CommandFields) : fieldsOf f.word = f := by
  have bit := getLsbD_word f
  have hop : opField f.word = f.op := extractLsb'_eq_of_bits _ _ _ fun j hj => by
    rw [bit _ (by omega)]
    interval_cases j <;> simp
  have hv : vField f.word = f.v := by rw [vField, bit _ (by decide)]; simp
  have hs : sField f.word = f.s := by rw [sField, bit _ (by decide)]; simp
  have hl : lField f.word = f.l := by
    rw [lField, bit _ (by decide), bit _ (by decide), bit _ (by decide), bit _ (by decide)]
    simp
  have hm : mField f.word = f.m := extractLsb'_eq_of_bits _ _ _ fun j hj => by
    rw [bit _ (by omega)]
    interval_cases j <;> simp
  rw [fieldsOf, hop, hv, hs, hl, hm]

/-- Masking a word with a field of ones keeps that field. -/
theorem and_place_allOnes (w : Word) (p n : Nat) :
    w &&& place p (BitVec.allOnes n) = place p (w.extractLsb' p n) := by
  refine BitVec.eq_of_getLsbD_eq fun k hk => ?_
  rw [BitVec.getLsbD_and, getLsbD_place p _ k hk, getLsbD_place p _ k hk, BitVec.getLsbD_allOnes,
    BitVec.getLsbD_extractLsb']
  by_cases hp : p ≤ k
  · have hsum : p + (k - p) = k := by omega
    simp [hp, hsum, Bool.and_comm]
  · simp [hp]

/-- Masking a word with one bit keeps that bit. -/
theorem and_placeBit (w : Word) (p : Nat) (b : Bool) : w &&& placeBit p b = placeBit p (b && w.getLsbD p) := by
  refine BitVec.eq_of_getLsbD_eq fun k hk => ?_
  rw [BitVec.getLsbD_and, getLsbD_placeBit p _ k hk, getLsbD_placeBit p _ k hk]
  by_cases hp : k = p
  · subst hp
    simp [Bool.and_comm]
  · simp [hp]

/-- Masking a word keeps its permitted fields. -/
theorem and_fieldMask (w : Word) (v s l m : Bool) : w &&& fieldMask v s l m = ((fieldsOf w).keep v s l m).word := by
  have hl : w &&& LayerSet.word ⟨l, l, l, l⟩ = LayerSet.word (if l then lField w else noLayers) := by
    simp only [LayerSet.word, BitVec.and_or_distrib_left, and_placeBit]
    cases l <;> rfl
  have hm : w &&& place 16 (if m then BitVec.allOnes 4 else 0) = place 16 (if m then mField w else 0) := by
    cases m with
    | false => simp
    | true => exact and_place_allOnes w 16 4
  simp only [fieldMask, CommandFields.word, BitVec.and_or_distrib_left, and_place_allOnes, and_placeBit, hl, hm]
  rfl

/-- A word has no bit outside a mask exactly when masking leaves it. -/
theorem and_not_eq_zero_iff (w p : Word) : w &&& ~~~p = 0#32 ↔ w &&& p = w := by
  have hsplit : (w &&& p) ||| (w &&& ~~~p) = w := by
    rw [← BitVec.and_or_distrib_left, BitVec.or_not_self, BitVec.and_allOnes]
  constructor
  · intro h
    rwa [h, BitVec.or_zero] at hsplit
  · intro h
    rw [← h, BitVec.and_assoc, BitVec.and_not_self]
    exact BitVec.and_zero

/-- The mask check of R113 passes exactly when the word is made of its permitted fields. -/
theorem fits_iff (w : Word) (v s l m : Bool) :
    w &&& ~~~fieldMask v s l m = 0#32 ↔ ((fieldsOf w).keep v s l m).word = w := by
  rw [and_not_eq_zero_iff, and_fieldMask]

end Sys2Proof.Machine
end

section
/-! The decoder and the encoder are inverse to each other, and the words the decoder refuses are those of R113 and
R114. -/

namespace Sys2Proof.Machine

/-! ### Decoding a command's word -/

@[simp] theorem fieldsOf_encode (i : Instr) : fieldsOf (encode i) = commandFields i := by
  rw [encode_eq, fieldsOf_word]

/-- A command's word passes the mask check of the fields it uses. -/
theorem encode_fits (i : Instr) (v s l m : Bool) (h : (commandFields i).keep v s l m = commandFields i) :
    encode i &&& ~~~fieldMask v s l m = 0#32 := by
  rw [fits_iff, fieldsOf_encode, h, encode_eq]

theorem onlyBits_encode (i j : Instr) (v s l m : Bool) (h : (commandFields i).keep v s l m = commandFields i) :
    onlyBits (fieldMask v s l m) (encode i) j = .ok j :=
  if_pos (encode_fits i v s l m h)

/-- Settles O2: the opcode selects the row of the command, its word passes the mask check of that row, and the fields
read back are those that were encoded. -/
theorem decodeInvertsEncode : Obligations.DecodeInvertsEncode := by
  intro i hwf
  have hfields := fieldsOf_encode i
  have hop : opField (encode i) = (commandFields i).op := congrArg CommandFields.op hfields
  have hv : vField (encode i) = (commandFields i).v := congrArg CommandFields.v hfields
  have hs : sField (encode i) = (commandFields i).s := congrArg CommandFields.s hfields
  have hl : lField (encode i) = (commandFields i).l := congrArg CommandFields.l hfields
  have hm : mField (encode i) = (commandFields i).m := congrArg CommandFields.m hfields
  cases i with
  | ccmEnc m =>
    simp only [decode, hop, hm, commandFields]
    exact onlyBits_encode (.ccmEnc m) _ false false false true rfl
  | ccmDec v m =>
    simp only [decode, hop, hv, hm, commandFields]
    exact onlyBits_encode (.ccmDec v m) _ true false false true rfl
  | macEnc aseq =>
    simp only [decode, hop, hs, commandFields]
    exact onlyBits_encode (.macEnc aseq) _ false true false false rfl
  | compose layers aseq =>
    obtain ⟨hlegal, haseq⟩ : layers.legal = true ∧ (!aseq || layers.mac) = true := by
      simpa only [Instr.wellFormed, Bool.and_eq_true] using hwf
    have hfit : encode (.compose layers aseq) &&& ~~~0xF2FF#32 = 0#32 :=
      encode_fits (.compose layers aseq) false true true false rfl
    simp only [decode, hop, decodeCompose, hfit, hs, hl, commandFields, hlegal]
    cases aseq <;> simp_all
  | _ => rfl

/-! ### Encoding what a word decodes to -/

/-- A word whose mask check passes is the word of the command made of OP and the permitted fields. -/
theorem encode_of_fits (w : Word) (i : Instr) (v s l m : Bool) (hfit : w &&& ~~~fieldMask v s l m = 0#32)
    (h : commandFields i = (fieldsOf w).keep v s l m) : encode i = w := by
  rw [encode_eq, h, (fits_iff w v s l m).1 hfit]

/-- A row decided by its mask check alone answers only to the word of its command. -/
theorem encode_of_row (w : Word) (i j : Instr) (v s l m : Bool) (hj : j.wellFormed = true)
    (h : onlyBits (fieldMask v s l m) w j = .ok i) (hop : (opField w).toNat = (commandFields j).op.toNat)
    (hfields : commandFields j = { (fieldsOf w).keep v s l m with op := (commandFields j).op }) :
    i.wellFormed = true ∧ encode i = w := by
  obtain ⟨hfit, rfl⟩ := onlyBits_ok _ _ _ _ h
  refine ⟨hj, encode_of_fits w j v s l m hfit ?_⟩
  rw [hfields, ← BitVec.eq_of_toNat_eq hop]
  rfl

/-- Settles O3: in each row the mask check says that the word is made of OP and the row's fields, and these are the
fields of the command it decodes to. -/
theorem encodeInvertsDecode : Obligations.EncodeInvertsDecode := by
  intro w i h
  unfold decode at h
  split at h
  case h_4 hop => exact encode_of_row w i _ false false false true rfl h hop rfl
  case h_5 hop => exact encode_of_row w i _ true false false true rfl h hop rfl
  case h_7 hop => exact encode_of_row w i _ false true false false rfl h hop rfl
  case h_15 hop =>
    obtain ⟨hfit, hlegal, hmac, rfl⟩ := decodeCompose_ok w i h
    refine ⟨?_, encode_of_fits w _ false true true false hfit ?_⟩
    · cases hs : sField w <;> simp_all [Instr.wellFormed]
    · rw [CommandFields.keep, show (fieldsOf w).op = 0x61#8 from BitVec.eq_of_toNat_eq hop]
      rfl
  case h_16 => cases h
  all_goals next hop => exact encode_of_row w i _ false false false false rfl h hop rfl

/-! ### The words that are refused -/

/-- A row of the opcode map but COMPOSE's decodes by its mask check alone (30_encoding.md R112, R113). -/
theorem decode_row (w : Word) (row : Nat × Word) (hrow : row ∈ opcodeMap) (hop : row.1 = (opField w).toNat)
    (hc : row.1 ≠ 0x61) : ∃ i, decode w = onlyBits (row.2 ||| 0xFF) w i := by
  simp only [opcodeMap, List.mem_cons, List.not_mem_nil, or_false] at hrow
  rcases hrow with rfl | rfl | rfl | rfl | rfl | rfl | rfl | rfl | rfl | rfl | rfl | rfl | rfl | rfl | rfl
  on_goal 15 => exact absurd rfl hc
  all_goals
    simp only [decode, ← hop]
    exact ⟨_, rfl⟩

theorem decode_compose (w : Word) (hop : opField w = 0x61) : decode w = decodeCompose w := by
  simp [decode, hop]

/-- An opcode outside the map is reserved (30_encoding.md R112, R116). -/
theorem decode_reserved (w : Word) (hop : ∀ row ∈ opcodeMap, row.1 ≠ (opField w).toNat) :
    decode w = .error (.reservedOpcode (opField w)) := by
  have hout (n : Nat) (hn : n ∈ opcodeMap.map Prod.fst) : (opField w).toNat ≠ n := by
    obtain ⟨row, hrow, rfl⟩ := List.mem_map.1 hn
    exact (hop row hrow).symm
  unfold decode
  split
  case h_16 => rfl
  all_goals next heq => exact absurd heq (hout _ (by decide))

theorem onlyBits_error_iff (p w : Word) (i : Instr) : (∃ e, onlyBits p w i = .error e) ↔ w &&& ~~~p ≠ 0 := by
  unfold onlyBits
  split <;> simp_all

/-- The L field is one of the ten legal layer sets (30_encoding.md R114). -/
theorem lField_legal_iff (w : Word) : (lField w).legal = true ↔ w.extractLsb' 12 4 ∈ legalLayerSets := by
  have nibble : ∀ v : BitVec 4, (LayerSet.mk (v.getLsbD 0) (v.getLsbD 1) (v.getLsbD 2) (v.getLsbD 3)).legal = true ↔
      v ∈ legalLayerSets := by decide
  rw [← nibble]
  simp [lField]

theorem decodeCompose_error_iff (w : Word) :
    (∃ e, decodeCompose w = .error e) ↔
      w &&& ~~~0xF2FF#32 ≠ 0 ∨ w.extractLsb' 12 4 ∉ legalLayerSets ∨ (w.getLsbD 9 = true ∧ w.getLsbD 12 = false) := by
  have hs : sField w = w.getLsbD 9 := rfl
  have hmac : (lField w).mac = w.getLsbD 12 := rfl
  rw [← lField_legal_iff]
  unfold decodeCompose
  split
  · simp_all
  split
  · simp_all
  split
  · simp_all
  · simp_all

/-- A word whose opcode is in the map is illegal by its row's mask, or by COMPOSE's own rules (30_encoding.md R113,
R114). -/
theorem illegalWord_iff (w : Word) (row : Nat × Word) (hrow : row ∈ opcodeMap) (hop : row.1 = (opField w).toNat) :
    illegalWord w ↔
      w &&& ~~~(row.2 ||| 0xFF) ≠ 0 ∨
        (opField w = 0x61 ∧
          (w.extractLsb' 12 4 ∉ legalLayerSets ∨ (w.getLsbD 9 = true ∧ w.getLsbD 12 = false))) := by
  have hunique : ∀ q ∈ opcodeMap, ∀ r ∈ opcodeMap, q.1 = r.1 → q = r := by decide
  have hknown : ¬ ∀ q ∈ opcodeMap, q.1 ≠ (opField w).toNat := fun h => h row hrow hop
  have hmask : (∃ q ∈ opcodeMap, q.1 = (opField w).toNat ∧ w &&& ~~~(q.2 ||| 0xFF) ≠ 0) ↔
      w &&& ~~~(row.2 ||| 0xFF) ≠ 0 := by
    constructor
    · rintro ⟨q, hq, hqop, hstray⟩
      rwa [hunique q hq row hrow (hqop.trans hop.symm)] at hstray
    · exact fun hstray => ⟨row, hrow, hop, hstray⟩
  exact (or_iff_right hknown).trans (or_congr_left hmask)

/-- Settles O4: a reserved opcode, COMPOSE with its own rules, and the rows that their mask decides alone. -/
theorem decodeRefusesIllegalWords : Obligations.DecodeRefusesIllegalWords := by
  intro w
  by_cases hreserved : ∀ row ∈ opcodeMap, row.1 ≠ (opField w).toNat
  · exact iff_of_true ⟨_, decode_reserved w hreserved⟩ (.inl hreserved)
  obtain ⟨row, hrow, hop⟩ : ∃ row ∈ opcodeMap, row.1 = (opField w).toNat := by
    simpa only [not_forall, not_not, exists_prop] using hreserved
  rw [illegalWord_iff w row hrow hop]
  by_cases hcompose : row.1 = 0x61
  · have h61 : opField w = 0x61 := BitVec.eq_of_toNat_eq (hop.symm.trans hcompose)
    have hrow61 : ∀ q ∈ opcodeMap, q.1 = 0x61 → q.2 ||| 0xFF = 0xF2FF#32 := by decide
    rw [decode_compose w h61, decodeCompose_error_iff, hrow61 row hrow hcompose, and_iff_right h61]
  · have h61 : opField w ≠ 0x61 := fun h => hcompose (by rw [hop, h]; rfl)
    obtain ⟨i, hi⟩ := decode_row w row hrow hop hcompose
    rw [hi, onlyBits_error_iff, or_iff_left fun h => h61 h.1]

/-- Settles O1: each word is the encoder's for its command. -/
theorem decodesSpecWords : Obligations.DecodesSpecWords :=
  ⟨decodeInvertsEncode .nop rfl, decodeInvertsEncode .aesEnc rfl, decodeInvertsEncode (.ccmEnc 4) rfl,
    decodeInvertsEncode (.ccmDec true 4) rfl, decodeInvertsEncode (.ccmDec false 4) rfl,
    decodeInvertsEncode (.macEnc true) rfl, decodeInvertsEncode .nwkDec rfl, decodeInvertsEncode .apsEnc rfl,
    decodeInvertsEncode .zclDec rfl, decodeInvertsEncode .parse rfl,
    decodeInvertsEncode (.compose ⟨true, true, true, true⟩ true) rfl⟩

/-- Settles O5: the decoder refuses an illegal word (O4), and the step then raises ILLEGAL_CMD. -/
theorem illegalWordCompletes : Obligations.IllegalWordCompletes := by
  intro s hbusy hwait hillegal
  obtain ⟨e, he⟩ := (decodeRefusesIllegalWords s.cur).2 hillegal
  exact step_of_decode_error s e ((completing_iff s).2 ⟨hbusy, hwait⟩) he

end Sys2Proof.Machine
end

section
/-! The region checks of a command (30_encoding.md R124, R125): what each raises when it is the first to fail, and, read
backwards, which check a completed command failed. -/

namespace Sys2Proof.Machine

/-- The first region that leaves DMEM raises RANGE with its operand code (30_encoding.md R124). -/
theorem exec_range (i : Instr) (s : State) (before after : List Region) (x : Region) (hp : s.paramOk i)
    (hsplit : regionsOf i = before ++ x :: after) (hbefore : ∀ y ∈ before, s.inDmem y) (hx : ¬ s.inDmem x) :
    exec i s = .next (s.raised .range .none x.code) := by
  rw [exec_eq, checks_eq, (paramCheck_eq i s).1 hp, ok_bind, hsplit, rangeCheck_first s.regions _ _ x hbefore hx]
  rfl

/-- Regions that lie in DMEM and overlap raise OVERLAP with the operand code of the first (30_encoding.md R125). -/
theorem exec_overlap (i : Instr) (s : State) (x y : Region) (hp : s.paramOk i) (hr : ∀ z ∈ regionsOf i, s.inDmem z)
    (hpair : pairOf i = some (x, y)) (ho : s.overlapping x y) :
    exec i s = .next (s.raised .overlap .none x.code) := by
  have hover : overlapOf i s = raise .overlap .none x.code := by
    simp only [overlapOf, hpair, overlapCheck_eq]
    exact if_pos ((overlap_iff s.regions x y).2 ho)
  rw [exec_eq, checks_eq, (paramCheck_eq i s).1 hp, ok_bind, (rangeCheck_ok_iff _ _).2 hr, ok_bind, hover]
  rfl

/-- Some region of a list is the first that leaves DMEM, if one does. -/
theorem exists_first_outside (s : State) (xs : List Region) (h : ¬ ∀ x ∈ xs, s.inDmem x) :
    ∃ before x after, xs = before ++ x :: after ∧ (∀ y ∈ before, s.inDmem y) ∧ ¬ s.inDmem x := by
  induction xs with
  | nil => exact absurd (fun x hx => absurd hx List.not_mem_nil) h
  | cons x xs ih =>
    by_cases hx : s.inDmem x
    · obtain ⟨before, y, after, rfl, hbefore, hy⟩ := ih fun hxs => h (List.forall_mem_cons.2 ⟨hx, hxs⟩)
      exact ⟨x :: before, y, after, rfl, List.forall_mem_cons.2 ⟨hx, hbefore⟩, hy⟩
    · exact ⟨[], x, xs, rfl, fun y hy => absurd hy List.not_mem_nil, hx⟩

/-- Past its checks a command raises neither RANGE nor OVERLAP. -/
theorem exec_ready_err (i : Instr) (s t : State) (hr : s.Ready i) (h : exec i s = .next t) :
    t.status.err ≠ .range ∧ t.status.err ≠ .overlap := by
  rw [exec_ready i s hr] at h
  cases hc : coreOf i s with
  | ok p =>
    rw [hc] at h
    obtain rfl := Host.Outcome.next.inj h
    have herr := (didCore_report i s p.1 p.2 (coreOf_ok i s p.1 p.2 hc)).1
    simp [Status.completed, herr]
  | error e =>
    obtain ⟨c, l, o, rfl, ⟨-, hrange, hoverlap⟩, -⟩ := coreOf_error i s e hc
    rw [hc] at h
    obtain rfl := Host.Outcome.next.inj h
    exact ⟨hrange, hoverlap⟩

/-- What a completed command says about its checks: the first that failed is the error it reports. -/
theorem exec_err_cases (i : Instr) (s t : State) (h : exec i s = .next t) :
    (¬ s.paramOk i ∧ t.status.err = .param) ∨
      (¬ (∀ x ∈ regionsOf i, s.inDmem x) ∧ t.status.err = .range) ∨
      (¬ s.pairOk i ∧ t.status.err = .overlap) ∨
      (s.Ready i ∧ t.status.err ≠ .range ∧ t.status.err ≠ .overlap) := by
  have err_of {c : ErrCode} {o : Nat} (hraised : exec i s = .next (s.raised c .none o)) : t.status.err = c := by
    obtain rfl := Host.Outcome.next.inj (hraised.symm.trans h)
    rfl
  by_cases hp : s.paramOk i
  swap
  · refine .inl ⟨hp, err_of (o := if i = .aesEnc ∨ i = .aesDec then 1 else 0) ?_⟩
    rw [exec_eq, checks_eq, (paramCheck_eq i s).2 hp]
    rfl
  by_cases hr : ∀ x ∈ regionsOf i, s.inDmem x
  swap
  · obtain ⟨before, x, after, hsplit, hbefore, hx⟩ := exists_first_outside s _ hr
    exact .inr (.inl ⟨hr, err_of (exec_range i s before after x hp hsplit hbefore hx)⟩)
  by_cases ha : s.pairOk i
  · exact .inr (.inr (.inr ⟨⟨hp, hr, ha⟩, exec_ready_err i s t ⟨hp, hr, ha⟩ h⟩))
  · obtain ⟨x, y, hpair, ho⟩ : ∃ x y, pairOf i = some (x, y) ∧ s.overlapping x y := by
      unfold State.pairOk at ha
      split at ha
      · exact absurd trivial ha
      · next x y hpair => exact ⟨x, y, hpair, not_not.1 ha⟩
    exact .inr (.inr (.inl ⟨ha, err_of (exec_overlap i s x y hp hr hpair ho)⟩))

/-- Settles O13: the range check stops at its first failure, and RANGE tells of a region outside DMEM. -/
theorem regionOutOfDmemRaises : Obligations.RegionOutOfDmemRaises := by
  refine ⟨fun i s before after x hp hsplit hbefore hx => ?_, fun i s t hr h herr => ?_⟩
  · rw [exec_range i s before after x hp hsplit hbefore hx]
    cases x <;> rfl
  · obtain ⟨-, he⟩ | ⟨hout, -⟩ | ⟨-, he⟩ | ⟨-, hne, -⟩ := exec_err_cases i s t h
    · cases he.symm.trans herr
    · exact hout hr
    · cases he.symm.trans herr
    · exact hne herr

/-- Settles O14: the overlap check raises after the range check, and OVERLAP tells of a pair that overlaps. -/
theorem overlapRaises : Obligations.OverlapRaises := by
  refine ⟨fun i s x y hp hr hpair ho => ?_, fun i s t ha h herr => ?_⟩
  · rw [exec_overlap i s x y hp hr hpair ho]
    cases x <;> rfl
  · obtain ⟨-, he⟩ | ⟨-, he⟩ | ⟨hover, -⟩ | ⟨-, -, hne⟩ := exec_err_cases i s t h
    · cases he.symm.trans herr
    · cases he.symm.trans herr
    · exact hover ha
    · exact hne herr

end Sys2Proof.Machine
end

section
/-! The output of a command (30_encoding.md R126): its core checks the output against O_CAP and writes it, and a
write-back before that does not reach O. -/

namespace Sys2Proof.Machine

/-- `u` is what a command's core makes of `s` before it writes its output: the region registers and the O region of
DMEM are still those of `s`. -/
structure KeepsOutputRegion (s u : State) : Prop where
  regions : u.regions = s.regions
  dmem : ∀ a, s.covers .o a → u.dmem.read a = s.dmem.read a

/-- Register updates leave the O region. -/
theorem KeepsOutputRegion.of_eq {s u : State} (hregions : u.regions = s.regions) (hdmem : u.dmem = s.dmem) :
    KeepsOutputRegion s u := ⟨hregions, fun _ _ => by rw [hdmem]⟩

/-- A byte written back into I is not in O when the two do not overlap (42_nwk.md R234, 30_encoding.md R125). -/
theorem KeepsOutputRegion.wroteBack {s u : State} {wb : Option (Nat × Byte)} (h : KeepsOutputRegion s u)
    (hin : ∀ off v, wb = some (off, v) → off < (s.bytesOf .i).length) (hapart : ¬ s.overlapping .i .o) :
    KeepsOutputRegion s (wroteBack u wb) := by
  refine ⟨by rw [wroteBack_regions, h.regions], fun a ha => ?_⟩
  by_contra hne
  rw [← h.dmem a ha] at hne
  have hat := wroteBack_changes u wb a hne
  rw [h.regions] at hat
  obtain ⟨off, hoff, rfl⟩ := Option.map_eq_some_iff.1 hat
  obtain ⟨⟨off, v⟩, hwb, rfl⟩ := Option.map_eq_some_iff.1 hoff
  have hlen := hin off v hwb
  rw [bytesOf_length] at hlen
  obtain ⟨hlow, hhigh⟩ := ha
  exact hapart ⟨by omega, by omega, by omega, by omega⟩

theorem toOption_map_eq_some {ε α β : Type} (x : Except ε α) (f : α → β) (b : β) (h : x.toOption.map f = some b) :
    ∃ a, x = .ok a ∧ f a = b := by
  cases x with
  | error e => cases h
  | ok a => exact ⟨a, rfl, Option.some.inj h⟩

/-- The core of a command that has an output emits it, over registers and a write-back that leave O. -/
theorem coreOf_output (i : Instr) (s : State) (out : Bytes) (hr : s.Ready i) (h : s.output i = some out) :
    ∃ u r, coreOf i s = emit u out r ∧ KeepsOutputRegion s u ∧ r.err = .none := by
  have hapart := hr.apart
  cases i <;> simp only [State.output] at h
  case nop | ccmEnc | ccmDec => cases h
  case aesEnc =>
    obtain ⟨hk, hout⟩ := Option.ite_none_right_eq_some.1 h
    exact ⟨s, {}, by rw [coreOf, if_pos hk, Option.some.inj hout], .of_eq rfl rfl, rfl⟩
  case aesDec =>
    obtain ⟨hk, hout⟩ := Option.ite_none_right_eq_some.1 h
    exact ⟨s, {}, by rw [coreOf, if_pos hk, Option.some.inj hout], .of_eq rfl rfl, rfl⟩
  case macDec =>
    obtain ⟨⟨f, p⟩, hd, rfl⟩ := toOption_map_eq_some _ _ _ h
    exact ⟨{ s with mac := f }, {}, by simp only [coreOf, hd], .of_eq rfl rfl, rfl⟩
  case macEnc aseq =>
    obtain ⟨⟨b, panc⟩, hd, rfl⟩ := Option.map_eq_some_iff.1 h
    exact ⟨putMacEncoded s aseq panc, {}, by simp only [coreOf, hd], .of_eq (by simp) (by simp), rfl⟩
  case nwkDec =>
    obtain rfl := Option.some.inj h
    have hin := (nwkDecode_bounds s.cipher s.keySet (s.bytesOf .i)).1
    exact ⟨_, _, rfl, KeepsOutputRegion.wroteBack (.of_eq (by simp) (by simp)) hin hapart, rfl⟩
  case nwkEnc =>
    obtain ⟨⟨b, u⟩, hd, rfl⟩ := toOption_map_eq_some _ _ _ h
    exact ⟨putNwkUpdate s u, {}, by simp only [coreOf, State.cipher, hd], .of_eq (by simp) (by simp), rfl⟩
  case apsDec =>
    obtain ⟨⟨f, p⟩, hd, rfl⟩ := toOption_map_eq_some _ _ _ h
    exact ⟨{ s with aps := f }, {}, by simp only [coreOf, hd], .of_eq rfl rfl, rfl⟩
  case apsEnc => exact ⟨s, {}, by rw [coreOf, Option.some.inj h], .of_eq rfl rfl, rfl⟩
  case zclDec =>
    obtain ⟨⟨f, p⟩, hd, rfl⟩ := toOption_map_eq_some _ _ _ h
    exact ⟨{ s with zcl := f }, {}, by simp only [coreOf, hd], .of_eq rfl rfl, rfl⟩
  case zclEnc => exact ⟨s, {}, by rw [coreOf, Option.some.inj h], .of_eq rfl rfl, rfl⟩
  case parse =>
    obtain ⟨r, hd, rfl⟩ := toOption_map_eq_some _ _ _ h
    have hin := parseFn_wb s.cipher s.keySet (s.bytesOf .i) r hd
    exact ⟨wroteBack (putParsed s r) r.wb, r.report, by simp only [coreOf, State.cipher, hd],
      KeepsOutputRegion.wroteBack (.of_eq (by simp) (by simp)) hin hapart, rfl⟩
  case compose l aseq =>
    obtain ⟨_, hc, rfl⟩ := toOption_map_eq_some _ _ _ h
    exact ⟨_, {}, by rw [coreOf, hc]; rfl, .of_eq (by simp) (by simp), rfl⟩

/-- A command with an output has an O region that lies in DMEM, once it is ready (30_encoding.md R124). -/
theorem output_inDmem (i : Instr) (s : State) (out : Bytes) (hr : s.Ready i) (h : s.output i = some out) :
    s.inDmem .o := by
  refine hr.range .o ?_
  cases i with
  | nop | ccmEnc | ccmDec => cases h
  | _ => simp [regionsOf]

/-- Settles O19: the command emits its output, which is stored at O_PTR if it fits and raises OVERFLOW if not. -/
theorem outputIsCheckedAndWritten : Obligations.OutputIsCheckedAndWritten := by
  intro i s out hr hout
  obtain ⟨u, r, hcore, hkeeps, herr⟩ := coreOf_output i s out hr hout
  rw [exec_ready i s hr, hcore]
  have hcap : u.regions.len .o = s.regions.oCap.toNat := by rw [hkeeps.regions]; rfl
  have hptr : u.regions.ptr .o = s.regions.oPtr.toNat := by rw [hkeeps.regions]; rfl
  refine ⟨fun hfit => ?_, fun hlong => finish_emit_overflow s u out r (by omega)⟩
  have hdmem : s.regions.oPtr.toNat + s.regions.oCap.toNat ≤ 512 := output_inDmem i s out hr hout
  refine ⟨_, finish_emit s u out r (by omega), herr, ?_, fun k hk => ?_, fun a hlow hhigh => ?_⟩
  · rw [complete_oLen, BitVec.toNat_ofNat, Nat.mod_eq_of_lt (by omega)]
  · rw [complete_dmem, hptr, read_writeBytes, if_pos ⟨by omega, by omega⟩, Nat.add_sub_cancel_left]
  · rw [complete_dmem, hptr, read_writeBytes, if_neg (by omega)]
    exact hkeeps.dmem a ⟨show s.regions.oPtr.toNat ≤ a by omega, hhigh⟩

end Sys2Proof.Machine
end

section
/-! The CCM* functions (40_aes_ccm.md R166 to R169), for any cipher that gives 16-byte blocks: unsealing inverts
sealing, and the counter pass byte by byte. -/

namespace Sys2Proof.Machine

/-! ### Unsealing and sealing -/

/-- A MIC unmasks to a given tag exactly when it is that tag masked (40_aes_ccm.md R165). -/
theorem maskTag_eq_iff (enc : Bytes → Bytes) (he : ∀ b, (enc b).length = 16) (n t u : Bytes) (ht : t.length = 4)
    (hu : u.length = 4) : t = maskTag enc n u ↔ u = maskTag enc n t := by
  constructor
  · rintro rfl
    exact (maskTag_maskTag enc he n u hu).symm
  · rintro rfl
    exact (maskTag_maskTag enc he n t ht).symm

/-- A validated decryption passes when the tag over the recovered message is the unmasked MIC (40_aes_ccm.md R168). -/
theorem ccmDecrypt_pass (enc : Bytes → Bytes) (n a c u : Bytes)
    (h : cbcTag enc n a (ctr enc n c).1 = maskTag enc n u) :
    ccmDecrypt enc n a c u true = { m := (ctr enc n c).1, auth := .pass, nonce := (ctr enc n c).2 } := by
  simp [ccmDecrypt, h]

/-- A validated decryption fails when the tag over the recovered message is not the unmasked MIC; the message and the
nonce are given all the same (40_aes_ccm.md R168). -/
theorem ccmDecrypt_fail (enc : Bytes → Bytes) (n a c u : Bytes)
    (h : cbcTag enc n a (ctr enc n c).1 ≠ maskTag enc n u) :
    ccmDecrypt enc n a c u true = { m := (ctr enc n c).1, auth := .fail, nonce := (ctr enc n c).2 } := by
  simp [ccmDecrypt, h]

/-- On a sealed message, and with any 4-byte MIC, a validated decryption recovers the message, and its tag matches
exactly for the MIC that was sealed (40_aes_ccm.md R169). -/
theorem ccmEncrypt_opens (enc : Bytes → Bytes) (he : ∀ b, (enc b).length = 16) (n a m u : Bytes) (hu : u.length = 4) :
    let r := ccmEncrypt enc n a m
    ctr enc n r.c = (m, r.nonce) ∧ (cbcTag enc n a (ctr enc n r.c).1 = maskTag enc n u ↔ u = r.u) := by
  have hctr : ctr enc n (ccmEncrypt enc n a m).c = (m, (ccmEncrypt enc n a m).nonce) := ctr_ctr enc he n m
  refine ⟨hctr, ?_⟩
  rw [hctr]
  exact maskTag_eq_iff enc he n _ u (cbcTag_length enc he n a m) hu

/-- The masked MIC is 4 bytes (40_aes_ccm.md R167). -/
theorem ccmEncrypt_u_length (enc : Bytes → Bytes) (he : ∀ b, (enc b).length = 16) (n a m : Bytes) :
    (ccmEncrypt enc n a m).u.length = 4 :=
  maskTag_length enc he n _ (cbcTag_length enc he n a m)

/-- Settles O38: the counter pass is its own inverse, so the tag is recomputed over the sealed message, and masking is
its own inverse too. -/
theorem ccmDecryptInvertsEncrypt : Obligations.CcmDecryptInvertsEncrypt := by
  intro k n a e
  have he : ∀ b, (e b).length = 16 := aesEnc_length k
  refine ⟨fun m => ⟨?_, fun u hu hne => ?_⟩, fun c u => ⟨rfl, ccmDecrypt_pass e n a c u, ccmDecrypt_fail e n a c u⟩⟩
  · obtain ⟨hctr, htag⟩ := ccmEncrypt_opens e he n a m _ (ccmEncrypt_u_length e he n a m)
    rw [ccmDecrypt_pass e n a _ _ (htag.2 rfl), hctr]
  · obtain ⟨hctr, htag⟩ := ccmEncrypt_opens e he n a m u hu
    rw [ccmDecrypt_fail e n a _ _ (mt htag.1 hne), hctr]

/-! ### The counter pass byte by byte -/

/-- Byte `j` of an exclusive or of strings that both reach it. -/
theorem xorBytes_getD (a b : Bytes) (j : Nat) (ha : j < a.length) (hb : j < b.length) :
    (xorBytes a b).getD j 0 = a.getD j 0 ^^^ b.getD j 0 := by
  simp [xorBytes, List.getD, ha, hb]

theorem byte_xor_xor_same (x y z : Byte) : (x ^^^ z) ^^^ (y ^^^ z) = x ^^^ y := by
  rw [BitVec.xor_comm y z, BitVec.xor_assoc, ← BitVec.xor_assoc z, BitVec.xor_self, BitVec.zero_xor]

/-- The keystream drops out of the exclusive or of two strings under it (40_aes_ccm.md R169 (c)). -/
theorem xorBytes_xorBytes_same (a b k : Bytes) (ha : a.length ≤ k.length) (hb : b.length ≤ k.length) :
    xorBytes (xorBytes a k) (xorBytes b k) = xorBytes a b := by
  apply List.ext_getElem
  · simp only [xorBytes_length]
    omega
  · intro j _ _
    simp only [xorBytes, List.getElem_zipWith, byte_xor_xor_same]

/-- Byte `j` of the keystream is byte `j mod 16` of the block of its counter (40_aes_ccm.md R166). -/
theorem keystream_getD (enc : Bytes → Bytes) (he : ∀ b, (enc b).length = 16) (k : Nat) (n : Bytes) (j : Nat)
    (hj : j < 16 * k) : (keystream enc k n).getD j 0 = (enc (bumped (j / 16 + 1) n)).getD (j % 16) 0 := by
  induction k generalizing n j with
  | zero => omega
  | succ k ih =>
    have hblock : (enc (bumpNonce n)).length = 16 := he _
    by_cases h : j < 16
    · have hdiv : j / 16 = 0 := by omega
      have hmod : j % 16 = j := by omega
      rw [keystream, List.getD_append _ _ _ _ (by omega), hdiv, hmod]
      rfl
    · have hdiv : j / 16 = (j - 16) / 16 + 1 := by omega
      have hmod : j % 16 = (j - 16) % 16 := by omega
      rw [keystream, List.getD_append_right _ _ _ _ (by omega), hblock, ih _ _ (by omega), hdiv, hmod]
      rfl

/-- The blocks of a string hold it. -/
theorem le_blockCount (n : Nat) : n ≤ 16 * blockCount n := by
  unfold blockCount
  omega

/-- Settles O40: the pass is the exclusive or with the keystream, each block of which is the cipher of the nonce that
many steps on. -/
theorem counterPassLaws : Obligations.CounterPassLaws := by
  intro k n c d hn r
  have he : ∀ b, (aesEnc k b).length = 16 := aesEnc_length k
  have hr : r = (xorBytes d (keystream (aesEnc k) (blockCount d.length) n), bumped (blockCount d.length) n) :=
    ctr_eq _ he n d
  have hlen : d.length ≤ (keystream (aesEnc k) (blockCount d.length) n).length := by
    rw [keystream_length _ he]
    exact le_blockCount _
  refine ⟨fun j hj => ?_, fun hcd => ?_, ctr_length _ he n d, by rw [hr, bumped_length, hn], fun j hj => ?_, ?_⟩
  · have hj16 : j < 16 * blockCount d.length := hj.trans_le (le_blockCount _)
    rw [hr, xorBytes_getD _ _ _ hj (hj.trans_le hlen), keystream_getD _ he _ _ _ hj16, bumped_eq _ _ hn]
  · rw [hr, ctr_eq _ he n c, hcd]
    exact xorBytes_xorBytes_same _ _ _ (hcd ▸ hlen) hlen
  · rw [hr, bumped_eq _ _ hn, List.getD, List.getElem?_set_ne (by omega)]
    rfl
  · rw [hr, bumped_eq _ _ hn, List.getD, List.getElem?_set_self (by omega)]
    simp [blockCount]

end Sys2Proof.Machine
end

section
/-! The AES and CCM commands past their checks (40_aes_ccm.md R173 to R178): what each completes with. -/

namespace Sys2Proof.Machine

/-- The inverse cipher undoes the forward one on blocks (00_scope.md R13). -/
theorem aesDec_aesEnc (k b : Bytes) (hb : b.length = 16) : aesDec k (aesEnc k b) = b := by
  have hblock : rdLe b < 2 ^ 128 := by simpa [hb] using rdLe_lt b
  have hread (v : BitVec 128) : BitVec.ofNat 128 (rdLe (le 16 v.toNat)) = v := ofNat_rdLe_leOf rfl v
  rw [aesDec, aesEnc, hread, Equiv.symm_apply_apply, BitVec.toNat_ofNat, Nat.mod_eq_of_lt hblock, ← hb, le_rdLe]

/-- A command whose core emits a string that fits O, over the registers as they are, stores it at O_PTR and writes
O_LEN and the completion fields alone (30_encoding.md R126). -/
theorem exec_emits (i : Instr) (s : State) (out : Bytes) (n : Nat) (hr : s.Ready i) (hcore : coreOf i s = emit s out {})
    (hlen : out.length = n) (hfit : n ≤ s.regions.oCap.toNat) :
    ∃ m, exec i s = .next { s.succeeded .notChecked with dmem := m, oLen := BitVec.ofNat 16 n } ∧
      stored s.dmem m s.regions.oPtr.toNat out := by
  subst hlen
  refine ⟨_, ?_, stored_writeBytes _ _ _⟩
  rw [exec_ready i s hr, hcore, finish_emit s s out {} hfit]
  rfl

/-- Settles O21: the cores emit the block, and the cipher under a key is a permutation of blocks. -/
theorem aesCommandsWriteTheirBlock : Obligations.AesCommandsWriteTheirBlock := by
  intro s hk hcap
  refine ⟨fun hr => ?_, fun hr => ?_, fun b hb => ⟨aesDec_aesEnc _ b hb, aesEnc_length _ b⟩⟩
  · exact exec_emits .aesEnc s _ 16 hr (if_pos hk) (aesEnc_length _ _) hcap
  · exact exec_emits .aesDec s _ 16 hr (if_pos hk) (aesDec_length _ _) hcap

/-- A field that fills a string is the value of the string (20_memory.md R84). -/
theorem fieldAt_zero (w : Nat) (b : Bytes) (h : b.length = w / 8) : fieldAt w b 0 = BitVec.ofNat w (rdLe b) := by
  rw [fieldAt, slice, List.drop_zero, List.take_of_length_le h.le]

/-- CCM_ENC past its checks and with a key (40_aes_ccm.md R177). -/
theorem exec_ccmEnc (len : BitVec 4) (s : State) (hr : s.Ready (.ccmEnc len)) (hk : s.keySet = true) :
    let r := ccmEncrypt s.cipher s.nonce.bytes (s.bytesOf .a) (s.bytesOf .m)
    exec (.ccmEnc len) s =
      .next { s.succeeded .notChecked with
        dmem := s.dmem.writeBytes s.regions.mPtr.toNat r.c, mic := fieldAt 32 r.u 0, nonce := .ofBytes r.nonce } := by
  rw [exec_ready _ s hr, coreOf, if_pos hk]
  rfl

/-- CCM_DEC past its checks and with a key (40_aes_ccm.md R178). -/
theorem exec_ccmDec (v : Bool) (len : BitVec 4) (s : State) (hr : s.Ready (.ccmDec v len)) (hk : s.keySet = true) :
    let r := ccmDecrypt s.cipher s.nonce.bytes (s.bytesOf .a) (s.bytesOf .m) (leOf s.mic) v
    exec (.ccmDec v len) s =
      .next { s.succeeded r.auth with
        dmem := s.dmem.writeBytes s.regions.mPtr.toNat r.m, nonce := .ofBytes r.nonce } := by
  rw [exec_ready _ s hr, coreOf, if_pos hk]
  rfl

/-- Settles O22: the core writes the ciphertext, the 4-byte MIC and the advanced nonce. -/
theorem ccmEncSealsMessage : Obligations.CcmEncSealsMessage := by
  intro len s hr hk r
  have hu : r.u.length = 4 := ccmEncrypt_u_length _ (cipher_length s) _ _ _
  refine ⟨_, ?_, hu, ccmMessage_length s, stored_writeBytes _ _ _⟩
  rw [← fieldAt_zero 32 r.u hu]
  exact exec_ccmEnc len s hr hk

/-- A decryption leaves its check undone exactly when it does not validate (40_aes_ccm.md R168). -/
theorem ccmDecrypt_auth_notChecked_iff (enc : Bytes → Bytes) (n a c u : Bytes) (v : Bool) :
    (ccmDecrypt enc n a c u v).auth = .notChecked ↔ v = false := by
  cases v with
  | false => simp [ccmDecrypt]
  | true =>
    by_cases h : cbcTag enc n a (ctr enc n c).1 = maskTag enc n u <;> simp [ccmDecrypt, h]

/-- Settles O23: the core writes the message and the advanced nonce whatever the check gives. -/
theorem ccmDecOpensMessage : Obligations.CcmDecOpensMessage := by
  intro v len s hr hk r
  exact ⟨_, exec_ccmDec v len s hr hk, ccmDecrypt_auth_notChecked_iff _ _ _ _ _ _, ccmMessage_length s,
    stored_writeBytes _ _ _⟩

end Sys2Proof.Machine
end

section
/-! The MIC of CCM* (40_aes_ccm.md R161 to R165): the chain over the blocks of the model is the chain over the string
that CCM* authenticates, cut into 16-byte blocks. -/

namespace Sys2Proof.Machine

/-! ### Cutting a string into blocks -/

/-- The last of `k + 1` blocks starts at byte `16 * k`. -/
theorem takeBlocks_succ (k : Nat) (w : Bytes) :
    takeBlocks (k + 1) w = takeBlocks k w ++ [(w.drop (16 * k)).take 16] := by
  induction k generalizing w with
  | zero => simp [takeBlocks]
  | succ k ih =>
    rw [takeBlocks, ih, takeBlocks, List.cons_append, List.drop_drop]
    congr 5
    omega

/-- A string of whole blocks before another one is cut first. -/
theorem takeBlocks_append (k l : Nat) (a b : Bytes) (ha : a.length = 16 * k) :
    takeBlocks (k + l) (a ++ b) = takeBlocks k a ++ takeBlocks l b := by
  induction k generalizing a with
  | zero =>
    have hnil : a = [] := List.eq_nil_of_length_eq_zero ha
    simp [hnil, takeBlocks]
  | succ k ih =>
    have hk : k + 1 + l = (k + l) + 1 := by omega
    rw [hk, takeBlocks, List.take_append_of_le_length (by omega), List.drop_append_of_le_length (by omega),
      ih _ (by rw [List.length_drop]; omega)]
    rfl

/-- The chain block by block over a string is the chain over its list of blocks (40_aes_ccm.md R164). -/
theorem ccmChained_eq (enc : Bytes → Bytes) (w : Bytes) (k : Nat) :
    ccmChained enc w k = cbcChain enc (zeros 16) (takeBlocks k w) := by
  induction k with
  | zero => rfl
  | succ k ih => rw [ccmChained, ih, takeBlocks_succ, cbcChain, cbcChain, List.foldl_append]; rfl

/-- A padded string fills its blocks. -/
theorem pad16_length (b : Bytes) : (pad16 b).length = 16 * blockCount b.length := by
  simp only [pad16, blockCount, List.length_append, zeros_length]
  omega

/-- A string of 1 to 16 bytes is one block, filled with zeros (00_scope.md R12). -/
theorem blocks16_of_one_block (b : Bytes) (h0 : 0 < b.length) (h16 : b.length ≤ 16) :
    blocks16 b = [b ++ zeros (16 - b.length)] := by
  have hcount : blockCount b.length = 1 := by unfold blockCount; omega
  have hpad : (16 - b.length % 16) % 16 = 16 - b.length := by omega
  have hlen : (pad16 b).length ≤ 16 := by rw [pad16_length, hcount]
  rw [blocks16, hcount, takeBlocks, takeBlocks, List.take_of_length_le hlen, pad16, hpad]

/-! ### The blocks of the MAC input -/

/-- The auth part of the MAC input, none without auth data (40_aes_ccm.md R162). -/
def authPart (a : Bytes) : Bytes := if a = [] then [] else pad16 (be16 a.length ++ a)

/-- The number of blocks of the auth part. -/
def authCount (a : Bytes) : Nat := if a = [] then 0 else blockCount (a.length + 2)

theorem authPart_length (a : Bytes) : (authPart a).length = 16 * authCount a := by
  unfold authPart authCount
  split
  · rfl
  · rw [pad16_length, List.length_append, be16_length, Nat.add_comm]

/-- The auth blocks are those of the auth part. -/
theorem authBlocks_eq (a : Bytes) : authBlocks a = takeBlocks (authCount a) (authPart a) := by
  unfold authBlocks authPart authCount
  by_cases h : a = []
  · simp [h, takeBlocks]
  · rw [if_neg (by simpa using h), if_neg h, if_neg h, blocks16, List.length_append, be16_length, Nat.add_comm]

/-- The flags byte depends on whether there is auth data (40_aes_ccm.md R161). -/
theorem ccmFlags_eq (a : Bytes) : ccmFlags a = if a = [] then 0x09#8 else 0x49#8 := by
  simp [ccmFlags]

theorem ccmB0_length (n a m : Bytes) (hn : n.length = 16) : (ccmB0 n a m).length = 16 := by
  simp [ccmB0, hn]

/-- The string that CCM* authenticates is B0, the auth part and the padded message (40_aes_ccm.md R161 to R163). -/
theorem ccmMacInput_eq (n a m : Bytes) : ccmMacInput n a m = ccmB0 n a m ++ (authPart a ++ pad16 m) := by
  simp only [ccmMacInput, ccmB0, ccmFlags_eq, authPart, pad16, zeros, be16, slice, List.append_assoc,
    List.cons_append, List.nil_append, List.length_cons]

/-- It is made of whole blocks. -/
theorem ccmMacInput_length (n a m : Bytes) (hn : n.length = 16) :
    (ccmMacInput n a m).length = 16 * (1 + (authCount a + blockCount m.length)) := by
  rw [ccmMacInput_eq, List.length_append, List.length_append, ccmB0_length n a m hn, authPart_length, pad16_length]
  omega

/-- Cut into blocks, it is B0, the auth blocks and the message blocks (40_aes_ccm.md R164). -/
theorem takeBlocks_ccmMacInput (n a m : Bytes) (hn : n.length = 16) :
    takeBlocks (1 + (authCount a + blockCount m.length)) (ccmMacInput n a m) =
      ccmB0 n a m :: (authBlocks a ++ blocks16 m) := by
  have hb0 := ccmB0_length n a m hn
  rw [ccmMacInput_eq, takeBlocks_append _ _ _ _ hb0, takeBlocks_append _ _ _ _ (authPart_length a), ← authBlocks_eq,
    takeBlocks, takeBlocks, List.take_of_length_le hb0.le]
  rfl

/-- The cleartext MIC is the chain over the blocks of that string (40_aes_ccm.md R164). -/
theorem cbcTag_eq_ccmChained (enc : Bytes → Bytes) (n a m : Bytes) (hn : n.length = 16) :
    cbcTag enc n a m = (ccmChained enc (ccmMacInput n a m) ((ccmMacInput n a m).length / 16)).take 4 := by
  have hcount : (ccmMacInput n a m).length / 16 = 1 + (authCount a + blockCount m.length) := by
    rw [ccmMacInput_length n a m hn]
    omega
  rw [hcount, ccmChained_eq, takeBlocks_ccmMacInput n a m hn, cbcTag]

/-! ### The chain written out -/

/-- Exclusive or with zeros changes nothing. -/
theorem xorBytes_zeros (b : Bytes) (n : Nat) (h : b.length = n) : xorBytes (zeros n) b = b := by
  apply List.ext_getElem
  · simp [h]
  · simp [xorBytes, zeros]

/-- The chain starts with the cipher of B0 itself (40_aes_ccm.md R164). -/
theorem cbcTag_eq (enc : Bytes → Bytes) (n a m : Bytes) (hn : n.length = 16) :
    cbcTag enc n a m = (cbcChain enc (enc (ccmB0 n a m)) (authBlocks a ++ blocks16 m)).take 4 := by
  rw [cbcTag, cbcChain, List.foldl_cons, xorBytes_zeros _ 16 (ccmB0_length n a m hn)]
  rfl

/-- A length that fits a byte, most significant byte first. -/
theorem be16_of_byte (v : Nat) (h : v < 256) : be16 v = [0x00#8, BitVec.ofNat 8 v] := by
  rw [be16, Nat.div_eq_of_lt h]

/-- Auth data of 1 to 14 bytes is one block behind its length (40_aes_ccm.md R162). -/
theorem authBlocks_of_one_block (a : Bytes) (h0 : 0 < a.length) (h14 : a.length ≤ 14) :
    authBlocks a = [[0x00#8, BitVec.ofNat 8 a.length] ++ a ++ zeros (14 - a.length)] := by
  have hlen : (be16 a.length ++ a).length = a.length + 2 := by rw [List.length_append, be16_length, Nat.add_comm]
  have hpad : 16 - (a.length + 2) = 14 - a.length := by omega
  rw [authBlocks, if_neg (by omega), blocks16_of_one_block _ (by omega) (by omega), hlen, hpad,
    be16_of_byte _ (by omega)]

/-- B0 with auth data and a message of less than 256 bytes (40_aes_ccm.md R161). -/
theorem ccmB0_of_auth (n a m : Bytes) (ha : 0 < a.length) (hm : m.length < 256) :
    ccmB0 n a m = [0x49#8] ++ (n.drop 1).take 13 ++ [0x00#8, BitVec.ofNat 8 m.length] := by
  rw [ccmB0, ccmFlags, if_neg (by omega), be16_of_byte _ hm]
  rfl

/-- Settles O39: the chain over the model's blocks is the chain over the authenticated string, and for short strings
the blocks are written out. -/
theorem micOfOneBlockEach : Obligations.MicOfOneBlockEach := by
  intro k n a m hn e u mask
  have hu : u = xorBytes (cbcTag e n a m) mask := rfl
  refine ⟨fun ha0 ha14 hm0 hm16 => ?_, fun ha hm => ?_, ?_, ?_⟩
  · rw [hu, cbcTag_eq e n a m hn, ccmB0_of_auth n a m ha0 (by omega), authBlocks_of_one_block a ha0 ha14,
      blocks16_of_one_block m hm0 hm16]
    rfl
  · subst ha hm
    rw [hu, cbcTag_eq e n [] [] hn]
    rfl
  · rw [ccmMacInput_length n a m hn, Nat.mul_mod_right]
  · rw [hu, cbcTag_eq_ccmChained e n a m hn]

end Sys2Proof.Machine
end

section
/-! A run of little-endian fields of given widths in a string: written, read back, and refused at the first field that
the string cuts (00_scope.md R12, 41_mac.md R201, R207). A field of width 0 is an absent one. -/

namespace Sys2Proof.Machine

/-- The fields `vs` written one after the other, each little-endian in its width. -/
def writeFields (ws vs : List Nat) : Bytes := (List.zipWith le ws vs).flatten

/-- The fields of `b` that stand from `p` one after the other. -/
def readFields (b : Bytes) : Nat → List Nat → List Nat
  | _, [] => []
  | p, w :: ws => leAt b p w :: readFields b (p + w) ws

/-- `Malformed(off)` where an offset is given, else a result (41_mac.md R200). -/
def refuseAt {α : Type} (off : Option Nat) (y : α) : Except Nat α :=
  match off with
  | some off => .error off
  | none => .ok y

theorem refuseAt_error_iff {α : Type} (o : Option Nat) (y : α) (off : Nat) :
    refuseAt o y = .error off ↔ o = some off := by
  cases o <;> simp [refuseAt]

theorem refuseAt_ok_iff {α : Type} (o : Option Nat) (y z : α) : refuseAt o y = .ok z ↔ o = none ∧ y = z := by
  cases o <;> simp [refuseAt]

/-! ### Reading -/

@[simp] theorem leAt_zero (b : Bytes) (p : Nat) : leAt b p 0 = 0 := rfl

/-- A conditional field, then the rest: refused where the field is cut, else read (41_mac.md R202, R207). -/
theorem takeIf_bind {α : Type} {c : Bool} {b : Bytes} {p n w : Nat} {ws : List Nat}
    {k : Nat × Nat → Except Nat α} {y : α} (hn : c = true → n ≠ 0) (hw : w = if c then n else 0)
    (hk : k (leAt b p w, p + w) = refuseAt (firstCut b.length (p + w) ws) y) :
    (takeIf c b p n >>= k) = refuseAt (firstCut b.length p (w :: ws)) y := by
  have hval : (if c then rdLe (slice b p n) else 0) = leAt b p w := by subst hw; cases c <;> rfl
  rw [takeIf_eq c b p n w hn hw, hval, firstCut]
  by_cases hcut : p + w > b.length ∧ w ≠ 0
  · rw [if_pos hcut, if_pos hcut]
    rfl
  · rw [if_neg hcut, if_neg hcut]
    exact hk

/-- A field that is always present, then the rest. -/
theorem takeField_bind {α : Type} {b : Bytes} {p w : Nat} {ws : List Nat} {k : Nat × Nat → Except Nat α} {y : α}
    (hw : w ≠ 0) (hk : k (leAt b p w, p + w) = refuseAt (firstCut b.length (p + w) ws) y) :
    (takeField b p w >>= k) = refuseAt (firstCut b.length p (w :: ws)) y :=
  takeIf_bind (c := true) (fun _ => hw) rfl hk

/-- Field `k` stands behind the widths of those before it. -/
theorem readFields_getD (b : Bytes) (p : Nat) (ws : List Nat) (k : Nat) :
    (readFields b p ws).getD k 0 = leAt b (p + (ws.take k).sum) (ws.getD k 0) := by
  induction ws generalizing p k with
  | nil => simp [readFields]
  | cons w ws ih =>
    cases k with
    | zero => rfl
    | succ k => simpa [readFields, Nat.add_assoc] using ih (p + w) k

/-! ### Writing -/

/-- Only the bytes of a value that fit are written. -/
theorem le_mod (n v : Nat) : le n (v % 256 ^ n) = le n v := by
  have hread := le_rdLe (le n v)
  rwa [le_length, rdLe_le] at hread

/-- A register at least as wide as the field writes the value put into it. -/
theorem le_toNat_ofNat (n w v : Nat) (h : 8 * n ≤ w) : le n (BitVec.ofNat w v).toNat = le n v := by
  have hdvd : 256 ^ n ∣ 2 ^ w := by
    rw [show 256 = 2 ^ 8 from rfl, ← Nat.pow_mul]
    exact Nat.pow_dvd_pow 2 h
  rw [BitVec.toNat_ofNat, ← le_mod n (v % 2 ^ w), Nat.mod_mod_of_dvd v hdvd, le_mod]

/-- Writing back a field that was read gives its bytes. -/
theorem le_leAt (b : Bytes) (p n : Nat) (h : p + n ≤ b.length) : le n (leAt b p n) = slice b p n := by
  have hlen : (slice b p n).length = n := by rw [slice_length]; omega
  have hread := le_rdLe (slice b p n)
  rwa [hlen] at hread

@[simp] theorem writeFields_cons (w v : Nat) (ws vs : List Nat) :
    writeFields (w :: ws) (v :: vs) = le w v ++ writeFields ws vs := rfl

theorem writeFields_length (ws vs : List Nat) (h : ws.length = vs.length) : (writeFields ws vs).length = ws.sum := by
  induction ws generalizing vs with
  | nil => rfl
  | cons w ws ih =>
    cases vs with
    | nil => cases h
    | cons v vs => rw [writeFields_cons, List.length_append, le_length, ih vs (Nat.succ.inj h), List.sum_cons]

/-- The bytes of the fields that were read, then what follows them, are the string from where they begin. -/
theorem writeFields_readFields (b : Bytes) (p : Nat) (ws : List Nat) (h : p + ws.sum ≤ b.length) :
    writeFields ws (readFields b p ws) ++ b.drop (p + ws.sum) = b.drop p := by
  induction ws generalizing p with
  | nil => rfl
  | cons w ws ih =>
    rw [List.sum_cons] at h
    rw [readFields, writeFields_cons, List.append_assoc, List.sum_cons, ← Nat.add_assoc, ih (p + w) (by omega),
      le_leAt b p w (by omega), slice, ← List.drop_drop, List.take_append_drop]

/-- Fields that were written are read back, cut to their widths. -/
theorem readFields_writeFields (pre rest : Bytes) (ws vs : List Nat) (h : ws.length = vs.length) :
    readFields (pre ++ (writeFields ws vs ++ rest)) pre.length ws = List.zipWith (fun w v => v % 256 ^ w) ws vs := by
  induction ws generalizing pre vs with
  | nil => rfl
  | cons w ws ih =>
    cases vs with
    | nil => cases h
    | cons v vs =>
      have hfirst : leAt (pre ++ (le w v ++ (writeFields ws vs ++ rest))) pre.length w = v % 256 ^ w := by
        rw [← List.append_assoc, ← rdLe_le]
        exact congrArg rdLe (slice_append pre (le w v) _ _ w rfl (le_length w v).symm)
      have hrest := ih (pre ++ le w v) vs (Nat.succ.inj h)
      rw [List.length_append, le_length, List.append_assoc] at hrest
      rw [writeFields_cons, List.append_assoc, readFields, hfirst, hrest, List.zipWith_cons_cons]

end Sys2Proof.Machine
end

section
/-! The MAC decoder on every string: it refuses exactly the malformed frames and reads the fields of every other one
(41_mac.md R201 to R203, R207). -/

namespace Sys2Proof.Machine

/-- The record of a MAC frame from its frame control, its sequence number and the values of its conditional fields, an
absent one 0; a compressed source PAN is the destination PAN (41_mac.md R202, R203). -/
def macRecord (fc : Half) (seq : Byte) (vs : List Nat) : MacFields :=
  { fc := fc
    spanp := macSmode fc ≠ 0 ∧ (macPanc fc = false ∨ macDmode fc ≠ 0)
    seq := seq
    cmd := BitVec.ofNat 8 (vs.getD 4 0)
    dpan := BitVec.ofNat 16 (vs.getD 0 0)
    span := BitVec.ofNat 16 (if macSmode fc ≠ 0 ∧ macPanc fc = true then vs.getD 0 0 else vs.getD 2 0)
    daddr := BitVec.ofNat 64 (vs.getD 1 0)
    saddr := BitVec.ofNat 64 (vs.getD 3 0) }

theorem mode_toNat_eq_zero : ∀ v : BitVec 2, v.toNat = 0 ↔ v = 0 := by decide

theorem macDmode_eq_zero (fc : Half) : macDmode fc = 0 ↔ fc.extractLsb' 10 2 = 0 := mode_toNat_eq_zero _

theorem macSmode_eq_zero (fc : Half) : macSmode fc = 0 ↔ fc.extractLsb' 14 2 = 0 := mode_toNat_eq_zero _

/-- The fields of a well-formed frame are the record of those that stand behind its sequence number. -/
theorem macFieldsOf_eq (b : Bytes) :
    macFieldsOf b =
      macRecord (b.getD 1 0 ++ b.getD 0 0) (b.getD 2 0)
        (readFields b 3 (macFieldWidths (b.getD 1 0 ++ b.getD 0 0))) := by
  simp only [macFieldsOf, macRecord, readFields_getD, ne_eq, macDmode_eq_zero, macSmode_eq_zero, macPanc]

theorem alen_ne_zero (mode : Nat) : alen mode ≠ 0 := by
  unfold alen
  split <;> decide

/-- The fields behind the sequence number of a MAC frame: refused at the first that is cut, else the record. -/
theorem macDecodeFields_eq (b : Bytes) (fc : Half) :
    macDecodeFields b fc =
      refuseAt (firstCut b.length 3 (macFieldWidths fc))
        (macRecord fc (b.getD 2 0) (readFields b 3 (macFieldWidths fc)), b.drop (3 + (macFieldWidths fc).sum)) := by
  simp only [macFieldWidths_eq]
  unfold macDecodeFields
  refine takeIf_bind (by simp) (by simp) ?_
  refine takeIf_bind (fun _ => alen_ne_zero _) (by simp) ?_
  refine takeIf_bind (by simp) (by simp) ?_
  refine takeIf_bind (fun _ => alen_ne_zero _) (by simp) ?_
  refine takeIf_bind (by simp) (by simp) ?_
  refine congrArg Except.ok (Prod.ext ?_ ?_)
  -- The source PAN is absent, read, or taken over from the destination PAN where there is one (R203).
  · by_cases hs : macSmode fc = 0
    · simp [macRecord, readFields, hs]
    cases hp : macPanc fc with
    | false => simp [macRecord, readFields, hs, hp]
    | true => by_cases hd : macDmode fc = 0 <;> simp [macRecord, readFields, hs, hp, hd]
  · simp [Nat.add_assoc]

theorem mode_toNat_eq_one : ∀ v : BitVec 2, v.toNat = 1 ↔ v = 1 := by decide

/-- MAC_DECODE refuses a malformed frame at its offset, and reads the fields and the payload of any other
(41_mac.md R200, R201, R207). -/
theorem macDecode_eq (b : Bytes) :
    macDecode b = refuseAt (macMalformedAt b) (macFieldsOf b, b.drop (macHeaderLen b)) := by
  simp only [macDecode, macMalformedAt, fieldAt_16, macDmode, macSmode, mode_toNat_eq_one]
  split
  · rfl
  split
  · rfl
  split
  · rfl
  rw [macDecodeFields_eq, macFieldsOf_eq, macHeaderLen]

end Sys2Proof.Machine
end

section
/-! The APS decoder in the same form (43_aps_zcl.md R270 to R272), and what the commands do with a decoder's answer. -/

namespace Sys2Proof.Machine

/-! ### The APS decoder -/

/-- The widths of the fields behind the frame control of an APS frame, in wire order: destination, cluster, profile,
source endpoint, counter (43_aps_zcl.md R270, R271). -/
def apsFieldWidths (fc : Byte) : List Nat := [apsDstLen fc, 2, 2, 1, 1]

/-- The record of an APS frame from its frame control and the values of the fields behind it (43_aps_zcl.md R270). -/
def apsRecord (fc : Byte) (vs : List Nat) : ApsFields :=
  { fc := fc
    dst := BitVec.ofNat 16 (vs.getD 0 0)
    cluster := BitVec.ofNat 16 (vs.getD 1 0)
    profile := BitVec.ofNat 16 (vs.getD 2 0)
    srcep := BitVec.ofNat 8 (vs.getD 3 0)
    ctr := BitVec.ofNat 8 (vs.getD 4 0) }

theorem apsDstLen_ne_zero (fc : Byte) : apsDstLen fc ≠ 0 := by
  unfold apsDstLen
  split <;> decide

/-- The fields behind the frame control of an APS frame: refused at the first that is cut, else the record. -/
theorem apsDecodeFields_eq (b : Bytes) (fc : Byte) :
    apsDecodeFields b fc =
      refuseAt (firstCut b.length 1 (apsFieldWidths fc))
        (apsRecord fc (readFields b 1 (apsFieldWidths fc)), b.drop (1 + (apsFieldWidths fc).sum)) := by
  unfold apsDecodeFields
  refine takeField_bind (apsDstLen_ne_zero fc) ?_
  refine takeField_bind two_ne_zero ?_
  refine takeField_bind two_ne_zero ?_
  refine takeField_bind one_ne_zero ?_
  refine takeField_bind one_ne_zero ?_
  refine congrArg Except.ok (Prod.ext rfl ?_)
  simp [apsFieldWidths, Nat.add_assoc]

/-- The listed offsets of a malformed APS frame are the places of its fields (43_aps_zcl.md R272). -/
theorem apsMalformedAt_eq (b : Bytes) :
    apsMalformedAt b =
      if b.length < 1 then some 0 else firstCut b.length 1 (apsFieldWidths (b.getD 0 0)) := by
  have hgroup : ∀ v : BitVec 2, v.toNat = 3 ↔ v = 3 := by decide
  have hdst : (if (b.getD 0 0).extractLsb' 2 2 = 3 then 2 else 1) = apsDstLen (b.getD 0 0) := by
    simp only [apsDstLen, apsDmode, hgroup]
  have hpos := apsDstLen_ne_zero (b.getD 0 0)
  simp only [apsMalformedAt, hdst, apsFieldWidths, firstCut]
  generalize apsDstLen (b.getD 0 0) = n at hpos
  -- Both sides compare the length with the ends of the same five fields, one after the other.
  grind

/-- APS_DECODE refuses a malformed frame at its offset, and reads the fields and the payload of any other
(43_aps_zcl.md R270, R272). -/
theorem apsDecode_eq (b : Bytes) :
    apsDecode b =
      refuseAt (apsMalformedAt b)
        (apsRecord (b.getD 0 0) (readFields b 1 (apsFieldWidths (b.getD 0 0))),
          b.drop (1 + (apsFieldWidths (b.getD 0 0)).sum)) := by
  rw [apsDecode, apsMalformedAt_eq, apsDecodeFields_eq]
  split <;> rfl

/-! ### Malformed inputs -/

/-- Settles O33: both decoders refuse at the offset of the first unreadable field, and else read every field. -/
theorem decodersFailExactly : Obligations.DecodersFailExactly := by
  intro b off
  rw [macDecode_eq, apsDecode_eq, refuseAt_error_iff, refuseAt_error_iff]
  exact ⟨Iff.rfl, Iff.rfl⟩

/-- The core of a decoding command raises MALFORMED on a malformed input (60_exceptions.md R332). -/
theorem coreOf_malformed (i : Instr) (s : State) (layer : Layer) (off : Nat)
    (h : s.malformed i = some (layer, off)) : coreOf i s = raise .malformed layer off := by
  have hmac {o : Nat} := (decodersFailExactly (s.bytesOf .i) o).1
  have haps {o : Nat} := (decodersFailExactly (s.bytesOf .i) o).2
  cases i <;> simp only [State.malformed, reduceCtorEq, Option.map_eq_some_iff] at h
  case macDec =>
    obtain ⟨o, ho, he⟩ := h
    cases he
    simp only [coreOf, hmac.2 ho]
  case apsDec =>
    obtain ⟨o, ho, he⟩ := h
    cases he
    simp only [coreOf, haps.2 ho]
  case zclDec =>
    obtain ⟨hshort, he⟩ := Option.ite_none_right_eq_some.1 h
    cases he
    simp only [coreOf, zclDecode, if_pos hshort]
  case parse =>
    obtain ⟨o, ho, he⟩ := h
    cases he
    simp only [coreOf, parseFn, hmac.2 ho]

/-- Settles O18: the core of a ready command raises MALFORMED, and the completion is the error's. -/
theorem malformedInputRaises : Obligations.MalformedInputRaises := by
  intro i s layer off hr h
  rw [exec_ready i s hr, coreOf_malformed i s layer off h]
  rfl

/-! ### MAC_DEC -/

/-- Settles O24: MAC_DEC emits the payload over the decoded fields, which are those of the wire. -/
theorem macDecWritesFieldsAndPayload : Obligations.MacDecWritesFieldsAndPayload := by
  refine ⟨fun s f p hr hdec hfit => ?_, fun b hb => ?_⟩
  · have hcore : coreOf .macDec s = emit { s with mac := f } p {} := by simp only [coreOf, hdec]
    refine ⟨_, ?_, stored_writeBytes _ _ _⟩
    rw [exec_ready _ s hr, hcore, finish_emit s { s with mac := f } p {} hfit]
    rfl
  · rw [macDecode_eq, hb]
    rfl

end Sys2Proof.Machine
end

section
/-! The MAC encoder against the decoder (41_mac.md R206, R212, R213): a frame whose PANC is the derived one is the frame
control, the sequence number and a run of fields, which the two read and write alike. -/

namespace Sys2Proof.Machine

/-- The values of the conditional fields of a record, in wire order (30_encoding.md R133). -/
def macValues (f : MacFields) : List Nat :=
  [f.dpan.toNat, f.daddr.toNat, f.span.toNat, f.saddr.toNat, f.cmd.toNat]

theorem macFieldWidths_length (fc : Half) (f : MacFields) : (macFieldWidths fc).length = (macValues f).length := rfl

/-- A frame control keeps a PANC that it already has. -/
theorem withPanc_same (fc : Half) : withPanc fc (macPanc fc) = fc := by
  have hkept : ∀ k < 16, (~~~0x0040#16).getLsbD k = decide (k ≠ 6) := by decide
  apply BitVec.eq_of_getLsbD_eq
  intro k hk
  rw [withPanc, macPanc, BitVec.getLsbD_or, BitVec.getLsbD_and, hkept k hk]
  by_cases h6 : k = 6
  · subst h6
    simp
  · have hpast : decide (k < 6) = true ∨ decide (k - 6 = 0) = false := by
      by_cases hlow : k < 6
      · exact .inl (decide_eq_true hlow)
      · exact .inr (decide_eq_false (by omega))
    rcases hpast with hpast | hpast <;> simp [h6, hpast]

/-- An absent field, of width 0, is written as no byte. -/
theorem le_ite (c : Prop) [Decidable c] (n v : Nat) : le (if c then n else 0) v = if c then le n v else [] := by
  split <;> rfl

/-- The frame of a record with the derived PANC: frame control, sequence number, its run of fields, payload. -/
theorem macFrame_eq_fields (f : MacFields) (pl : Bytes) (h : f.fc.getLsbD 6 = f.derivedPanc) :
    macFrame f pl = (leOf f.fc ++ [f.seq]) ++ (writeFields (macFieldWidths f.fc) (macValues f) ++ pl) := by
  have hpanc : macPanc f.fc = pancOf f := h.trans (derivedPanc_eq f)
  have hcmd : [f.cmd] = le 1 f.cmd.toNat := by simp [le]
  have hdst (c : Prop) [Decidable c] (x y : Bytes) :
      (if c then x ++ y else []) = (if c then x else []) ++ (if c then y else []) := by split <;> rfl
  have hspan (c : Prop) [Decidable c] (p : Bool) (x : Bytes) :
      (if c then if p then [] else x else []) = if c ∧ p = false then x else [] := by
    cases p <;> simp
  rw [macFrame, ← hpanc, withPanc_same, macFieldWidths_eq]
  simp only [macValues, writeFields_cons, le_ite, hdst, hspan, hcmd, List.append_assoc]
  rfl

/-- The modes of a record that the encoder takes are not reserved (41_mac.md R211). -/
theorem macEncode_eq_some_iff (f : MacFields) (pl b : Bytes) (panc : Bool) :
    macEncode f pl = some (b, panc) ↔ ¬ f.reservedMode ∧ macFrame f pl = b ∧ pancOf f = panc := by
  rw [macEncode, ← macBadModes_iff]
  split <;> simp [*]

/-! ### Decoding an encoded frame -/

/-- A register whose value fits its field is read back from it. -/
theorem ofNat_mod_width {w : Nat} (v : BitVec w) (n : Nat) (h : v.toNat < 256 ^ n) :
    BitVec.ofNat w (v.toNat % 256 ^ n) = v := by
  rw [Nat.mod_eq_of_lt h, BitVec.ofNat_toNat, BitVec.setWidth_eq]

/-- A value fits a field that is present at its full width, and one that is absent if it is 0. -/
theorem present_fits {w : Nat} (c : Prop) [Decidable c] (v : BitVec w) (n : Nat) (hw : w = 8 * n) (h : ¬ c → v = 0) :
    v.toNat < 256 ^ (if c then n else 0) := by
  split
  · rw [show 256 = 2 ^ 8 from rfl, ← Nat.pow_mul, ← hw]
    exact v.isLt
  · next hc => simp [h hc]

/-- A canonical address fits the field that its mode gives it (30_encoding.md R132, R146). -/
theorem address_fits (mode : BitVec 2) (a : Addr64) (habsent : mode = 0 → a = 0) (hreserved : mode ≠ 1)
    (hshort : mode = 2 → a.extractLsb' 16 48 = 0) :
    a.toNat < 256 ^ (if mode.toNat ≠ 0 then alen mode.toNat else 0) := by
  have hmodes : ∀ m : BitVec 2, m = 0 ∨ m = 1 ∨ m = 2 ∨ m = 3 := by decide
  obtain rfl | rfl | rfl | rfl := hmodes mode
  · rw [habsent rfl]
    decide
  · exact absurd rfl hreserved
  · have hhigh := congrArg BitVec.toNat (hshort rfl)
    rw [BitVec.extractLsb'_toNat, Nat.shiftRight_eq_div_pow] at hhigh
    have ha := a.isLt
    show a.toNat < 256 ^ 2
    simp at hhigh
    omega
  · exact a.isLt

/-- The source PAN of a canonical record is the destination PAN where PANC compresses it; where the frame carries it or
a destination stands before it, it is present (41_mac.md R203, R212). -/
theorem canonical_source (f : MacFields) (h : f.Canonical) :
    decide (macSmode f.fc ≠ 0 ∧ (macPanc f.fc = false ∨ macDmode f.fc ≠ 0)) = f.spanp ∧
      (macSmode f.fc ≠ 0 ∧ macPanc f.fc = true → f.dpan = f.span) := by
  obtain ⟨hpanc, hnone, hboth, hspan, hdest, -⟩ := h
  simp only [MacFields.derivedPanc, ne_eq, ← macDmode_eq_zero, ← macSmode_eq_zero] at hpanc hnone hboth hdest
  rw [macPanc, hpanc]
  by_cases hs : macSmode f.fc = 0
  · simp [hs, hnone hs]
  by_cases hd : macDmode f.fc = 0
  · cases hp : f.spanp with
    | false => simp [hs, hd, hspan hp, hdest hd]
    | true => simp [hs, hd]
  · simp [hs, hd, hboth hs hd, eq_comm]

/-- A canonical record is the one its fields, cut to their widths, make (30_encoding.md R146). -/
theorem macRecord_canonical (f : MacFields) (h : f.Canonical) (hm : ¬ f.reservedMode) :
    macRecord f.fc f.seq (List.zipWith (fun w v => v % 256 ^ w) (macFieldWidths f.fc) (macValues f)) = f := by
  obtain ⟨hsource, hcompressed⟩ := canonical_source f h
  obtain ⟨hdm, hsm⟩ := not_or.1 hm
  have hdpan := present_fits (macDmode f.fc ≠ 0) f.dpan 2 rfl fun hd =>
    (h.noDest ((macDmode_eq_zero _).1 (not_not.1 hd))).1
  have hdaddr : f.daddr.toNat < 256 ^ (if macDmode f.fc ≠ 0 then alen (macDmode f.fc) else 0) :=
    address_fits _ f.daddr (fun hd => (h.noDest hd).2) hdm h.shortDest
  have hsaddr : f.saddr.toNat < 256 ^ (if macSmode f.fc ≠ 0 then alen (macSmode f.fc) else 0) :=
    address_fits _ f.saddr h.noSaddr hsm h.shortSource
  have hcmd := present_fits (macType f.fc = 3) f.cmd 1 rfl fun ht => h.noCmd fun h3 => ht (congrArg BitVec.toNat h3)
  have hplain (hc : ¬ (macSmode f.fc ≠ 0 ∧ macPanc f.fc = true)) :
      f.span.toNat < 256 ^ (if macSmode f.fc ≠ 0 ∧ macPanc f.fc = false then 2 else 0) := by
    refine present_fits _ f.span 2 rfl fun habsent => (h.noSource ((macSmode_eq_zero _).1 ?_)).2
    by_contra hs
    cases hp : macPanc f.fc with
    | false => exact habsent ⟨hs, hp⟩
    | true => exact hc ⟨hs, hp⟩
  have hspan :
      BitVec.ofNat 16 (if macSmode f.fc ≠ 0 ∧ macPanc f.fc = true then
          f.dpan.toNat % 256 ^ (if macDmode f.fc ≠ 0 then 2 else 0)
        else f.span.toNat % 256 ^ (if macSmode f.fc ≠ 0 ∧ macPanc f.fc = false then 2 else 0)) = f.span := by
    split
    · next hc => rw [ofNat_mod_width _ _ hdpan, hcompressed hc]
    · next hc => exact ofNat_mod_width _ _ (hplain hc)
  simp only [macRecord, macFieldWidths_eq, macValues, List.zipWith_cons_cons, List.getD_cons_zero, List.getD_cons_succ]
  rw [ofNat_mod_width _ _ hdpan, ofNat_mod_width _ _ hcmd, ofNat_mod_width _ _ hdaddr, ofNat_mod_width _ _ hsaddr,
    hspan, hsource]

/-- The decoder gives a canonical record and the payload back from its frame. -/
theorem macDecode_macFrame (f : MacFields) (pl : Bytes) (h : f.Canonical) (hm : ¬ f.reservedMode) :
    macDecode (macFrame f pl) = .ok (f, pl) := by
  have hframe := macFrame_eq_fields f pl h.panc
  have hrun := writeFields_length _ _ (macFieldWidths_length f.fc f)
  have hread := readFields_writeFields (leOf f.fc ++ [f.seq]) pl _ _ (macFieldWidths_length f.fc f)
  rw [← hframe] at hread
  have hfc : (macFrame f pl).getD 1 0 ++ (macFrame f pl).getD 0 0 = f.fc := by
    rw [← fieldAt_16, hframe, List.append_assoc]
    exact fieldAt_append [] _ f.fc 0 rfl rfl
  have hlen : (macFrame f pl).length = 3 + (macFieldWidths f.fc).sum + pl.length := by
    rw [hframe]
    simp only [List.length_append, hrun, leOf_length, List.length_singleton]
    omega
  have hwf : macMalformedAt (macFrame f pl) = none := by
    simp only [macMalformedAt, hfc]
    rw [if_neg (by omega), if_neg (show ¬ (_ ∨ _) from hm), if_neg (by omega)]
    exact firstCut_of_fits _ _ _ (by omega)
  have hfields : macFieldsOf (macFrame f pl) = f := by
    rw [macFieldsOf_eq, hfc]
    conv => rhs; rw [← macRecord_canonical f h hm, ← hread]
    rfl
  have hpayload : (macFrame f pl).drop (macHeaderLen (macFrame f pl)) = pl := by
    rw [macHeaderLen, hfc, hframe, ← List.append_assoc]
    exact List.drop_left' (by simp only [List.length_append, hrun, leOf_length, List.length_singleton])
  rw [macDecode_eq, hwf, hfields, hpayload]
  rfl

/-! ### Encoding a decoded frame -/

/-- A frame that MAC_DECODE accepts has no reserved mode (41_mac.md R207). -/
theorem macFieldsOf_modes (b : Bytes) (h : macMalformedAt b = none) : ¬ (macFieldsOf b).reservedMode := by
  simp only [macMalformedAt] at h
  split at h
  · cases h
  split at h
  · cases h
  next hmodes => exact hmodes

/-- A decoded record writes the fields it was read from; a compressed source PAN is not written. -/
theorem writeFields_macRecord (fc : Half) (seq : Byte) (v0 v1 v2 v3 v4 : Nat) :
    writeFields (macFieldWidths fc) (macValues (macRecord fc seq [v0, v1, v2, v3, v4])) =
      writeFields (macFieldWidths fc) [v0, v1, v2, v3, v4] := by
  have halen (mode : Nat) : 8 * alen mode ≤ 64 := by
    unfold alen
    split <;> decide
  have hspan : le (if macSmode fc ≠ 0 ∧ macPanc fc = false then 2 else 0)
      (BitVec.ofNat 16 (if macSmode fc ≠ 0 ∧ macPanc fc = true then v0 else v2)).toNat =
      le (if macSmode fc ≠ 0 ∧ macPanc fc = false then 2 else 0) v2 := by
    cases hp : macPanc fc with
    | false => simp only [Bool.false_eq_true, and_false, if_false]; exact le_toNat_ofNat _ _ _ (by split <;> decide)
    | true => simp [le]
  simp only [macFieldWidths_eq, macRecord, macValues, writeFields_cons, List.getD_cons_zero, List.getD_cons_succ, hspan]
  rw [le_toNat_ofNat _ 16 v0 (by split <;> decide), le_toNat_ofNat _ 64 v1 (by split <;> simp [halen]),
    le_toNat_ofNat _ 64 v3 (by split <;> simp [halen]), le_toNat_ofNat _ 8 v4 (by split <;> decide)]

/-- The first three bytes of a frame are its frame control and its sequence number (41_mac.md R201). -/
theorem macHead_eq (b : Bytes) (h : 3 ≤ b.length) :
    leOf (b.getD 1 0 ++ b.getD 0 0 : Half) ++ [b.getD 2 0] = b.take 3 := by
  have hfc : leOf (fieldAt 16 b 0) = slice b 0 2 :=
    (le_toNat_ofNat 2 16 (leAt b 0 2) (by decide)).trans (le_leAt b 0 2 (by omega))
  rw [← fieldAt_16, hfc]
  match b, h with
  | _ :: _ :: _ :: _, _ => rfl

/-- The encoder gives a frame back from its fields and payload, when its PANC is the derived one. -/
theorem macFrame_macFieldsOf (b : Bytes) (h : macMalformedAt b = none)
    (hpanc : (macFieldsOf b).fc.getLsbD 6 = (macFieldsOf b).derivedPanc) :
    macFrame (macFieldsOf b) (b.drop (macHeaderLen b)) = b := by
  have hlen := macHeaderLen_le b h
  have hfc : (macFieldsOf b).fc = b.getD 1 0 ++ b.getD 0 0 := rfl
  have hfields : writeFields (macFieldWidths (b.getD 1 0 ++ b.getD 0 0)) (macValues (macFieldsOf b)) =
      writeFields (macFieldWidths (b.getD 1 0 ++ b.getD 0 0))
        (readFields b 3 (macFieldWidths (b.getD 1 0 ++ b.getD 0 0))) := by
    rw [macFieldsOf_eq]
    exact writeFields_macRecord _ _ _ _ _ _ _
  have hhead : leOf (b.getD 1 0 ++ b.getD 0 0 : Half) ++ [(macFieldsOf b).seq] = b.take 3 :=
    macHead_eq b (le_trans (Nat.le_add_right 3 _) hlen)
  rw [macFrame_eq_fields _ _ hpanc, hfc, hfields, macHeaderLen,
    writeFields_readFields b 3 _ hlen, hhead, List.take_append_drop]

/-- Settles O34: the encoder and the decoder write and read the same run of fields, and the two conditions are those
under which a record and its fields, or a frame and the derived PANC, determine each other. -/
theorem macRoundTrip : Obligations.MacRoundTrip := by
  refine ⟨fun f pl b panc hcanon henc => ?_, fun b p f hdec hpanc => ?_⟩
  · obtain ⟨hm, rfl, -⟩ := (macEncode_eq_some_iff f pl b panc).1 henc
    exact macDecode_macFrame f pl hcanon hm
  · rw [macDecode_eq, refuseAt_ok_iff] at hdec
    obtain ⟨hwf, hfp⟩ := hdec
    obtain ⟨rfl, rfl⟩ := Prod.mk.inj hfp
    have hframe := macFrame_macFieldsOf b hwf hpanc
    exact ⟨_, (macEncode_eq_some_iff _ _ _ _).2 ⟨macFieldsOf_modes b hwf, hframe, rfl⟩⟩

end Sys2Proof.Machine
end

section
/-! The commands that build a MAC frame (41_mac.md R206, R211 to R216): the addressing errors they raise and the frame
and the registers MAC_ENC leaves. -/

namespace Sys2Proof.Machine

/-! ### Addressing errors -/

theorem macEncode_reserved (f : MacFields) (pl : Bytes) (h : f.reservedMode) : macEncode f pl = none :=
  if_pos ((macBadModes_iff f).2 h)

/-- A secured encode passes its key check once the key is complete. -/
theorem nwkNoKey_of_keySet (f : NwkFields) : nwkNoKey f true = false := Bool.and_false _

/-- The nonce-source check of NWK_ENC or of the NWK layer of a COMPOSE fails exactly when the command secures a frame
that names no nonce source (42_nwk.md R244). -/
theorem nwkNoSource_eq_true_iff (s : State) :
    nwkNoSource s.nwk = true ↔ s.nwk.fc.getLsbD 9 = true ∧ ¬ s.hasNonceSource := by
  cases hsec : s.nwk.fc.getLsbD 9 with
  | false =>
    have hpass : nwkNoSource s.nwk = false := by rw [nwkNoSource, nwkSec, hsec, Bool.false_and, Bool.false_and]
    simp [hpass]
  | true => simpa using nwkNoSource_iff s hsec

/-- The key check of a COMPOSE passes (60_exceptions.md R330). -/
theorem compose_key_passes (s : State) (l : LayerSet) (aseq : Bool)
    (hkey : s.securesNwk (.compose l aseq) → s.keySet = true) : ¬ (l.nwk && nwkNoKey s.nwk s.keySet) = true := by
  intro h
  obtain ⟨hnwk, hno⟩ := (Bool.and_eq_true _ _).mp h
  obtain ⟨hsec, hkeyless⟩ := (Bool.and_eq_true _ _).mp hno
  rw [hkey ⟨hnwk, hsec⟩] at hkeyless
  cases hkeyless

/-- A command that secures a NWK frame raises ADDRESSING at the NWK layer when no nonce source is named. -/
theorem coreOf_noNonceSource (i : Instr) (s : State) (hkey : s.securesNwk i → s.keySet = true) (hsec : s.securesNwk i)
    (hsource : ¬ s.hasNonceSource) : coreOf i s = raise .addressing .nwk := by
  cases i with
  | nwkEnc =>
    have hno := (nwkNoSource_eq_true_iff s).2 ⟨hsec, hsource⟩
    simp [coreOf, nwkEncode, hkey hsec, nwkNoKey_of_keySet, hno, NwkEncError.raised]
  | compose l aseq =>
    have hno := (nwkNoSource_eq_true_iff s).2 ⟨hsec.2, hsource⟩
    have hcheck : composeCheck s l = raise .addressing .nwk := by
      rw [composeCheck, if_neg (compose_key_passes s l aseq hkey), if_pos (by rw [hsec.1, hno]; rfl)]
    rw [coreOf, hcheck, raise_bind]
  | _ => exact hsec.elim

/-- A command that builds a MAC frame raises ADDRESSING at the MAC layer on a reserved mode, once the NWK layer has
raised nothing (60_exceptions.md R331). -/
theorem coreOf_reservedMode (i : Instr) (s : State) (hkey : s.securesNwk i → s.keySet = true) (hmac : buildsMac i)
    (hmode : s.mac.reservedMode) (hsource : s.securesNwk i → s.hasNonceSource) :
    coreOf i s = raise .addressing .mac := by
  cases i with
  | macEnc aseq =>
    have hoperand : (macOperand s aseq).reservedMode := by cases aseq <;> exact hmode
    simp only [coreOf, macEncode_reserved _ _ hoperand]
  | compose l aseq =>
    have hnwk : ¬ (l.nwk && nwkNoSource s.nwk) = true := by
      intro h
      obtain ⟨hnwk, hno⟩ := (Bool.and_eq_true _ _).mp h
      obtain ⟨hsec, hnone⟩ := (nwkNoSource_eq_true_iff s).1 hno
      exact hnone (hsource ⟨hnwk, hsec⟩)
    have hbad : (l.mac && macBadModes s.mac) = true :=
      (Bool.and_eq_true _ _).mpr ⟨hmac, (macBadModes_iff _).2 hmode⟩
    have hcheck : composeCheck s l = raise .addressing .mac := by
      rw [composeCheck, if_neg (compose_key_passes s l aseq hkey), if_neg hnwk, if_pos hbad]
    rw [coreOf, hcheck, raise_bind]
  | _ => exact hmac.elim

/-- Settles O16: the two cores raise, and the completion is the error's. -/
theorem addressingErrorsRaise : Obligations.AddressingErrorsRaise := by
  intro i s hr hkey
  refine ⟨fun hsec hsource => ?_, fun hmac hmode hsource => ?_⟩
  · rw [exec_ready i s hr, coreOf_noNonceSource i s hkey hsec hsource]
    rfl
  · rw [exec_ready i s hr, coreOf_reservedMode i s hkey hmac hmode hsource]
    rfl

/-! ### MAC_ENC -/

/-- The record MAC_ENC encodes is that of the registers with its sequence number (41_mac.md R214). -/
theorem macOperand_eq (s : State) (aseq : Bool) :
    macOperand s aseq = { s.mac with seq := if aseq then s.seqctr + 1 else s.mac.seq } := by
  cases aseq <;> rfl

/-- The sequence number is the third byte of a frame (41_mac.md R206). -/
theorem macFrame_seq (f : MacFields) (pl : Bytes) : (macFrame f pl).getD 2 0 = f.seq := by
  simp only [macFrame, List.append_assoc]
  rfl

/-- The registers after a MAC encode: PANC in MAC_FC, and with ASEQ the sequence number (41_mac.md R214, R216). -/
theorem putMacEncoded_derived (s : State) (aseq : Bool) :
    putMacEncoded s aseq (pancOf (macOperand s aseq)) =
      { s with
        mac := { s.mac with fc := s.mac.emittedFc, seq := if aseq then s.seqctr + 1 else s.mac.seq }
        seqctr := if aseq then s.seqctr + 1 else s.seqctr } := by
  rw [emittedFc_eq]
  cases aseq <;> rfl

/-- Settles O25: the core emits the frame of the operand over the updated registers. -/
theorem macEncWritesFrame : Obligations.MacEncWritesFrame := by
  intro aseq s hr hm seq panc frame hfit
  have hoperand : macOperand s aseq = { s.mac with seq := seq } := macOperand_eq s aseq
  have hframe : frame = macFrame (macOperand s aseq) (s.bytesOf .p) := by rw [hoperand, ← frame_eq]
  have hmodes : ¬ (macOperand s aseq).reservedMode := by rwa [hoperand]
  have hcore : coreOf (.macEnc aseq) s = emit (putMacEncoded s aseq (pancOf (macOperand s aseq))) frame {} := by
    simp only [coreOf, (macEncode_eq_some_iff _ _ _ _).2 ⟨hmodes, hframe.symm, rfl⟩]
  refine ⟨s.dmem.writeBytes s.regions.oPtr.toNat frame, ?_, ?_, stored_writeBytes _ _ _⟩
  · rw [exec_ready _ s hr, hcore, finish_emit _ _ _ _ (by rwa [putMacEncoded_regions]), putMacEncoded_derived]
    rfl
  · rw [hframe, macFrame_seq, hoperand]

end Sys2Proof.Machine
end

section
/-! The NWK commands past their checks (42_nwk.md R246 to R248), and the frame counter over every command and over a
sequence of secured encodes (R250). -/

namespace Sys2Proof.Machine

/-! ### The encoder -/

/-- NWK_ENCODE gives its frame exactly when its three checks pass (42_nwk.md R244). -/
theorem nwkEncode_ok_iff (enc : Bytes → Bytes) (f : NwkFields) (pl : Bytes) (keyset : Bool) (c : Word)
    (r : Bytes × Option NwkUpdate) :
    nwkEncode enc f pl keyset c = .ok r ↔
      nwkNoKey f keyset = false ∧ nwkNoSource f = false ∧ nwkExhausted f c = false ∧ nwkFrame enc f pl c = r := by
  unfold nwkEncode
  cases nwkNoKey f keyset
  · cases nwkNoSource f
    · cases nwkExhausted f c <;> simp
    · simp
  · simp

/-- The checks of a frame that is not secured pass, whatever the key and the counter (42_nwk.md R244). -/
theorem nwkEncode_plain (enc : Bytes → Bytes) (f : NwkFields) (pl : Bytes) (keyset : Bool) (c : Word)
    (h : nwkSec f.fc = false) : nwkEncode enc f pl keyset c = .ok (nwkHeaderBytes f ++ pl, none) := by
  rw [nwkEncode_ok_iff]
  simp [nwkNoKey, nwkNoSource, nwkExhausted, nwkFrame, h]

/-- The counter check of a secured encode (42_nwk.md R246). -/
theorem nwkExhausted_secured (f : NwkFields) (c : Word) (h : nwkSec f.fc = true) :
    nwkExhausted f c = decide (c = 0xFFFFFFFF#32) := by
  simp [nwkExhausted, h]

/-- The nonce-source check of a secured encode passes exactly when the record names a source (42_nwk.md R240, R244). -/
theorem nwkNoSource_eq_false_iff (f : NwkFields) (h : nwkSec f.fc = true) :
    nwkNoSource f = false ↔ f.secctl.getLsbD 5 = true ∨ f.fc.getLsbD 12 = true := by
  simp only [nwkNoSource, h, extNonce, nwkExtSrcP, Bool.true_and, Bool.and_eq_false_iff, Bool.not_eq_false']

/-- The update of a secured frame uses the counter it is given and leaves the next one (42_nwk.md R246). -/
theorem nwkFrame_secured (enc : Bytes → Bytes) (f : NwkFields) (pl : Bytes) (c : Word) (h : nwkSec f.fc = true) :
    ∃ u, (nwkFrame enc f pl c).2 = some u ∧ u.secfc = c ∧ u.fc = c + 1 := by
  simp [nwkFrame, h]

/-! ### The frame counter -/

/-- A command that secures no NWK frame leaves FC (10_state.md R43). -/
theorem frameOf_fc (i : Instr) (s t : State) (hsec : ¬ s.securesNwk i) : (frameOf i s t).fc = s.fc := by
  cases i with
  | nwkEnc => simp [frameOf, tookOutput, tookNwk, nwkEnc_unsecured s hsec]
  | compose l aseq => simp [frameOf, tookOutput, tookMac, tookNwk, compose_unsecured s l aseq hsec]
  | _ => rfl

/-- A secured encode that succeeds uses FC, which is not exhausted, and leaves FC + 1 (42_nwk.md R246). -/
theorem didCore_secured (i : Instr) (s t : State) (r : Report) (h : didCore i s t r) (hsec : s.securesNwk i) :
    s.fc ≠ 0xFFFFFFFF#32 ∧ t.nwk.secfc = s.fc ∧ t.fc = s.fc + 1 := by
  cases i with
  | nwkEnc =>
    obtain ⟨b, u, henc, ⟨-, rfl⟩, -⟩ := h
    obtain ⟨-, -, hcounter, hframe⟩ := (nwkEncode_ok_iff _ _ _ _ _ _).1 henc
    obtain ⟨v, hv, hused, hnext⟩ := nwkFrame_secured s.cipher s.nwk (s.bytesOf .p) s.fc hsec
    rw [nwkExhausted_secured _ _ hsec] at hcounter
    obtain rfl : u = some v := (congrArg Prod.snd hframe).symm.trans hv
    exact ⟨of_decide_eq_false hcounter, hused, hnext⟩
  | compose l aseq =>
    obtain ⟨hnwk, hbit⟩ := hsec
    obtain ⟨hc, ⟨-, rfl⟩, -⟩ := h
    obtain ⟨v, hv, hused, hnext⟩ := nwkFrame_secured s.cipher s.nwk (composeInner s l (s.bytesOf .p)) s.fc hbit
    have hu : (composeNwk s.cipher s l (s.bytesOf .p)).2 = some v := by
      rw [composeNwk, if_pos hnwk, hv]
    rw [hu, putComposed_eq]
    exact ⟨hc.counter hnwk hbit, hused, hnext⟩
  | _ => exact hsec.elim

/-- What a completed command leaves of FC, secured encode or not (42_nwk.md R246, 60_exceptions.md R334). -/
theorem exec_fc (i : Instr) (s t : State) (h : exec i s = .next t) :
    (s.securesNwk i → t.status.err = .none → s.fc ≠ 0xFFFFFFFF#32 ∧ t.nwk.secfc = s.fc ∧ t.fc = s.fc + 1) ∧
      (¬ s.securesNwk i ∨ t.status.err ≠ .none → t.fc = s.fc) := by
  obtain ⟨c, l, o, he, hc, -⟩ | ⟨u, r, -, hd, he⟩ := exec_cases i s
  · obtain rfl := Host.Outcome.next.inj (he.symm.trans h)
    exact ⟨fun _ herr => absurd herr hc, fun _ => rfl⟩
  · obtain rfl := Host.Outcome.next.inj (he.symm.trans h)
    have herr : (u.complete r).status.err = .none := (didCore_report i s u r hd).1
    refine ⟨fun hsec _ => didCore_secured i s u r hd hsec, fun hcase => ?_⟩
    rcases hcase with hsec | hne
    · exact kept_of_frame (didCore_frame i s u r hd) State.fc (frameOf_fc i s u hsec)
    · exact absurd herr hne

/-- A counter that is not exhausted does not wrap. -/
theorem fc_succ_toNat (c : Word) (h : c ≠ 0xFFFFFFFF#32) : (c + 1).toNat = c.toNat + 1 := by
  bv_omega

/-- A sequence of secured encodes counts FC up by one each, from the value before it (42_nwk.md R250). -/
theorem securedEncodes_counts (c d : Word) (runs : List (State × Instr × State)) (h : securedEncodes c runs d) :
    d.toNat = c.toNat + runs.length ∧
      ∀ (k : Nat) (r : State × Instr × State), runs[k]? = some r → r.2.2.nwk.secfc.toNat = c.toNat + k := by
  induction runs generalizing c with
  | nil =>
    obtain rfl : c = d := h
    exact ⟨rfl, fun k r hr => by cases hr⟩
  | cons run rest ih =>
    obtain ⟨s, i, t⟩ := run
    obtain ⟨rfl, hsec, hexec, herr, hrest⟩ := h
    obtain ⟨hne, hused, hnext⟩ := (exec_fc i s t hexec).1 hsec herr
    have hcount : t.fc.toNat = s.fc.toNat + 1 := by rw [hnext, fc_succ_toNat _ hne]
    obtain ⟨hlast, hall⟩ := ih t.fc hrest
    refine ⟨by rw [hlast, hcount, List.length_cons]; omega, fun k r hr => ?_⟩
    cases k with
    | zero =>
      obtain rfl := Option.some.inj hr
      exact congrArg BitVec.toNat hused
    | succ k =>
      rw [hall k r hr, hcount]
      omega

/-- Settles O44: what one command does to FC, then by induction over the sequence. -/
theorem frameCounterNeverRepeats : Obligations.FrameCounterNeverRepeats :=
  ⟨exec_fc, securedEncodes_counts⟩

/-- A command that secures a NWK frame and passes the earlier checks raises FC_EXHAUSTED at the last counter value
(42_nwk.md R246, 60_exceptions.md R331). -/
theorem coreOf_exhausted (i : Instr) (s : State) (hsec : s.securesNwk i) (hkey : s.keySet = true)
    (hsource : s.hasNonceSource) (hmodes : buildsMac i → ¬ s.mac.reservedMode) (hfc : s.fc = 0xFFFFFFFF#32) :
    coreOf i s = raise .fcExhausted := by
  have hpass (hbit : nwkSec s.nwk.fc = true) : nwkNoSource s.nwk = false :=
    (nwkNoSource_eq_false_iff _ hbit).2 hsource
  have hlast (hbit : nwkSec s.nwk.fc = true) : nwkExhausted s.nwk s.fc = true := by
    rw [nwkExhausted_secured _ _ hbit, hfc]
    rfl
  cases i with
  | nwkEnc =>
    simp [coreOf, nwkEncode, hkey, nwkNoKey_of_keySet, hpass hsec, hlast hsec, NwkEncError.raised]
  | compose l aseq =>
    obtain ⟨hnwk, hbit⟩ := hsec
    have hmac : (l.mac && macBadModes s.mac) = false := by
      by_contra h
      obtain ⟨hl, hbad⟩ := (Bool.and_eq_true _ _).mp (Bool.not_eq_false _ ▸ h)
      exact hmodes hl ((macBadModes_iff _).1 hbad)
    simp [coreOf, composeCheck, hkey, nwkNoKey_of_keySet, hpass hbit, hmac, hnwk, hlast hbit]
  | _ => exact hsec.elim

/-- Settles O17: the core raises, and the completion is the error's. -/
theorem exhaustedCounterRaises : Obligations.ExhaustedCounterRaises := by
  intro i s hr hsec hkey hsource hmodes hfc
  rw [exec_ready i s hr, coreOf_exhausted i s hsec hkey hsource hmodes hfc]
  rfl

end Sys2Proof.Machine
end

section
/-! What NWK_DEC and NWK_ENC complete with (42_nwk.md R244 to R248). -/

namespace Sys2Proof.Machine

/-! ### NWK_DEC -/

/-- NWK_DEC past its checks, when the payload fits O (42_nwk.md R236, R247). -/
theorem exec_nwkDec (s : State) (r : NwkResult) (hr : s.Ready .nwkDec)
    (hdec : nwkDecode s.cipher s.keySet (s.bytesOf .i) = r) (hfit : r.p.length ≤ s.regions.oCap.toNat) :
    exec .nwkDec s =
      .next { s.succeeded r.auth with
        nwk := r.f, nonce := r.nonce.elim s.nonce .ofBytes
        dmem := (wroteBack s r.wb).dmem.writeBytes s.regions.oPtr.toNat r.p
        oLen := BitVec.ofNat 16 r.p.length } := by
  have hcore : coreOf .nwkDec s =
      emit (wroteBack (putNonce { s with nwk := r.f } r.nonce) r.wb) r.p { auth := r.auth } := by
    rw [coreOf, hdec]
  rw [exec_ready _ s hr, hcore, finish_emit _ _ _ _ (by simpa [Regions.len] using hfit)]
  cases r.nonce <;> cases r.wb <;> rfl

/-- Settles O26: the core emits the payload over the decoded registers and the write-back. -/
theorem nwkDecReportsEveryFrame : Obligations.NwkDecReportsEveryFrame := by
  intro s hr r hfit
  refine ⟨_, ?_, fun a => read_wroteBack s r.wb r.p s.regions.oPtr.toNat a⟩
  rw [exec_nwkDec s r hr rfl hfit]
  cases r.nonce <;> rfl

/-! ### NWK_ENC -/

/-- Settles O27: a plain encode updates no register, so the core emits its frame over the registers as they are. -/
theorem nwkEncWritesPlainFrame : Obligations.NwkEncWritesPlainFrame := by
  intro s hr hplain frame hfit
  have hcore : coreOf .nwkEnc s = emit s frame {} := by
    rw [coreOf, nwkEncode_plain _ _ _ _ _ hplain]
    rfl
  exact exec_emits .nwkEnc s frame frame.length hr hcore rfl hfit

/-- The checks of a secured encode pass with a key, a nonce source and a counter that is not exhausted
(42_nwk.md R244, R246). -/
theorem nwkEncode_secured (enc : Bytes → Bytes) (s : State) (pl : Bytes) (hsec : s.nwk.fc.getLsbD 9 = true)
    (hkey : s.keySet = true) (hsource : s.hasNonceSource) (hfc : s.fc ≠ 0xFFFFFFFF#32) :
    nwkEncode enc s.nwk pl s.keySet s.fc = .ok (nwkFrame enc s.nwk pl s.fc) := by
  refine (nwkEncode_ok_iff _ _ _ _ _ _).2
    ⟨by rw [hkey, nwkNoKey_of_keySet], (nwkNoSource_eq_false_iff _ hsec).2 hsource, ?_, rfl⟩
  rw [nwkExhausted_secured _ _ hsec]
  exact decide_eq_false hfc

/-- Correcting SECLEVEL leaves EXTNONCE (42_nwk.md R234). -/
theorem extNonce_patchSec : ∀ sc : Byte, extNonce (patchSec sc) = extNonce sc := by decide

/-- Clearing SECLEVEL forgets that it was corrected (42_nwk.md R245). -/
theorem emittedSec_patchSec : ∀ sc : Byte, emittedSec (patchSec sc) = emittedSec sc := by decide

/-- Correcting SECLEVEL forgets that it was cleared (42_nwk.md R234, R245). -/
theorem patchSec_emittedSec : ∀ sc : Byte, patchSec (emittedSec sc) = patchSec sc := by decide

/-- NWK_ENC past its checks, when a secured frame fits O (42_nwk.md R246, R248). -/
theorem exec_nwkEnc_secured (s : State) (frame : Bytes) (u : NwkUpdate) (hr : s.Ready .nwkEnc)
    (henc : nwkEncode s.cipher s.nwk (s.bytesOf .p) s.keySet s.fc = .ok (frame, some u))
    (hfit : frame.length ≤ s.regions.oCap.toNat) :
    exec .nwkEnc s =
      .next { s.succeeded .notChecked with
        nwk := { s.nwk with secfc := u.secfc, mic := u.mic, secctl := u.secctl }, nonce := .ofBytes u.nonce, fc := u.fc
        dmem := s.dmem.writeBytes s.regions.oPtr.toNat frame, oLen := BitVec.ofNat 16 frame.length } := by
  rw [exec_ready _ s hr, coreOf, henc, finish_emit _ _ _ _ (by simpa [Regions.len] using hfit)]
  rfl

/-- Settles O28: the checks pass, and the frame and the update of the encode are the ones written out. -/
theorem nwkEncSealsFrame : Obligations.NwkEncSealsFrame := by
  intro s hr hsec hkey hsource hfc sc src nonce aux r frame hfit
  have haux : nwkAuxBytes s.nwk s.fc = aux := by
    rw [nwkAuxBytes, ← extNonce_patchSec]
    rfl
  have hu : r.u.length = 4 := ccmEncrypt_u_length _ (cipher_length s) _ _ _
  have henc : nwkEncode s.cipher s.nwk (s.bytesOf .p) s.keySet s.fc =
      .ok (frame, some { secfc := s.fc, mic := BitVec.ofNat 32 (rdLe r.u), secctl := s.nwk.secctl &&& 0xF8#8
                         nonce := r.nonce, fc := s.fc + 1 }) := by
    have hclear : s.nwk.secctl &&& 0xF8#8 = emittedSec (patchSec s.nwk.secctl) := (emittedSec_patchSec _).symm
    rw [nwkEncode_secured _ s _ hsec hkey hsource hfc, nwkFrame, if_pos (show nwkSec s.nwk.fc = true from hsec), haux,
      hclear, ← fieldAt_zero 32 r.u hu]
    rfl
  exact ⟨_, exec_nwkEnc_secured s frame _ hr henc hfit, stored_writeBytes _ _ _⟩

end Sys2Proof.Machine
end

section
/-! NWK_DECODE in the terms of the wire (42_nwk.md R231 to R242): one equation for each of its outcomes, and that there
is no other. -/

namespace Sys2Proof.Machine

/-! ### Reading around the corrected byte -/

theorem slice_set_of_lt (b : Bytes) (p q n : Nat) (v : Byte) (h : p < q) : slice (b.set p v) q n = slice b q n := by
  rw [slice, List.drop_set_of_lt h, slice]

/-- A field behind a replaced byte is read as before. -/
theorem fieldAt_set_of_lt (w : Nat) (b : Bytes) (p q : Nat) (v : Byte) (h : p < q) :
    fieldAt w (b.set p v) q = fieldAt w b q := by
  rw [fieldAt, slice_set_of_lt b p q _ v h, fieldAt]

theorem getD_set_of_ne (b : Bytes) (p q : Nat) (v : Byte) (h : p ≠ q) : (b.set p v).getD q 0 = b.getD q 0 := by
  rw [List.getD, List.getElem?_set_ne h, List.getD]

/-! ### The fields of a frame -/

/-- The header fields, each at its place in the frame (42_nwk.md R231). -/
theorem nwkHeader_eq (b : Bytes) :
    nwkHeader b = { NwkFields.zero with
      fc := nwkFcOf b, dst := BitVec.ofNat 16 (leAt b 2 2), src := BitVec.ofNat 16 (leAt b 4 2)
      radius := b.getD 6 0, seq := b.getD 7 0
      extdst := BitVec.ofNat 64 (if (nwkFcOf b).getLsbD 11 then leAt b 8 8 else 0)
      extsrc := BitVec.ofNat 64 (if (nwkFcOf b).getLsbD 12 then leAt b (nwkExtSrcAt b) 8 else 0) } := by
  have hdst := apply_ite (BitVec.ofNat 64) ((nwkFcOf b).getLsbD 11 = true) (leAt b 8 8) 0
  have hsrc := apply_ite (BitVec.ofNat 64) ((nwkFcOf b).getLsbD 12 = true) (leAt b (nwkExtSrcAt b) 8) 0
  rw [hdst, hsrc]
  rfl

/-- The header and the auxiliary fields of a sealed frame, each at its place, with the security-control byte corrected
(42_nwk.md R231, R234, R239). -/
def nwkSealedFields (b : Bytes) : NwkFields :=
  { nwkHeader b with
    secctl := nwkSecctlOf b
    secfc := BitVec.ofNat 32 (leAt b (nwkHeaderEnd b + 1) 4)
    secsrc := BitVec.ofNat 64 (if (nwkSecctlOf b).getLsbD 5 then leAt b (nwkHeaderEnd b + 5) 8 else 0)
    keyseq := b.getD (nwkAuxEnd b - 1) 0
    mic := BitVec.ofNat 32 (leAt b (b.length - 4) 4) }

/-- A sealed frame holds more than its header. -/
theorem nwkSealed_length (b : Bytes) (h : nwkSealed b) :
    8 ≤ b.length ∧ nwkHeaderEnd b < b.length ∧ nwkHeaderEnd b < b.length - 4 ∧ nwkHeaderEnd b < nwkAuxEnd b := by
  obtain ⟨-, hlen⟩ := h
  have h8 : 8 ≤ nwkHeaderEnd b := by
    unfold nwkHeaderEnd nwkExtSrcAt
    omega
  have haux : nwkHeaderEnd b + 6 ≤ nwkAuxEnd b := Nat.le_add_right _ _
  omega

/-- The end of the auxiliary header as the decoder counts it (42_nwk.md R231). -/
theorem nwkAuxEnd_eq (b : Bytes) :
    nwkHeaderEnd b + 1 + 4 + len8 (extNonce (nwkSecctlOf b)) + 1 = nwkAuxEnd b := by
  show _ = nwkHeaderEnd b + 6 + len8 (extNonce (nwkSecctlOf b))
  omega

/-- The decoder reads the fields of a sealed frame off the frame with its security-control byte corrected. -/
theorem nwkAuxFields_sealed (b : Bytes) (h : nwkSealed b) :
    nwkAuxFields (b.set (nwkHeaderEnd b) (nwkSecctlOf b)) (nwkHeaderEnd b)
      { nwkHeader b with secctl := nwkSecctlOf b } = nwkSealedFields b := by
  obtain ⟨-, -, hmic, -⟩ := nwkSealed_length b h
  have hend := nwkAuxEnd_eq b
  have hkey : nwkAuxEnd b - 1 = nwkHeaderEnd b + 5 + len8 (extNonce (nwkSecctlOf b)) := by omega
  have hsrc := apply_ite (BitVec.ofNat 64) ((nwkSecctlOf b).getLsbD 5 = true) (leAt b (nwkHeaderEnd b + 5) 8) 0
  simp only [nwkAuxFields, List.length_set]
  rw [fieldAt_set_of_lt _ _ _ _ _ (by omega), fieldAt_set_of_lt _ _ _ _ _ (by omega),
    fieldAt_set_of_lt _ _ _ _ _ hmic, getD_set_of_ne _ _ _ _ (by omega), nwkSealedFields, hkey, hsrc]
  rfl

/-! ### The nonce -/

/-- A sealed frame without a nonce source (42_nwk.md R240). -/
theorem nonceSource_eq_none (b : Bytes) (h : ¬ nwkHasSource b) :
    nonceSource (nwkSealedFields b) (nwkSecctlOf b) = none := by
  obtain ⟨hext, hsrc⟩ := not_or.1 h
  exact (if_neg hext).trans (if_neg hsrc)

/-- A sealed frame with a nonce source, and the nonce built from it (42_nwk.md R235, R240). -/
theorem nonceSource_eq_some (b : Bytes) (h : nwkHasSource b) :
    ∃ src, nonceSource (nwkSealedFields b) (nwkSecctlOf b) = some src ∧
      nwkNonce src (nwkSealedFields b).secfc (nwkSecctlOf b) = nwkNonceOf b := by
  have hfc (n : Nat) : leOf (BitVec.ofNat 32 n) = le 4 n := le_toNat_ofNat 4 32 n (by decide)
  have hsrc (n : Nat) : leOf (BitVec.ofNat 64 n) = le 8 n := le_toNat_ofNat 8 64 n (by decide)
  by_cases hext : (nwkSecctlOf b).getLsbD 5 = true
  · refine ⟨_, if_pos hext, ?_⟩
    rw [nwkNonceOf, if_pos hext, nwkNonce, nwkSealedFields, if_pos hext, hfc, hsrc]
  · have hbit : (nwkFcOf b).getLsbD 12 = true := h.resolve_left hext
    refine ⟨_, (if_neg hext).trans (if_pos hbit), ?_⟩
    rw [nwkNonceOf, if_neg hext, nwkNonce, nwkSealedFields, nwkHeader_eq, if_pos hbit, hfc, hsrc]

/-! ### The outcomes -/

/-- `fail_hdr`: the frame is too short for its header (42_nwk.md R232). -/
theorem nwkDecode_short (enc : Bytes → Bytes) (keyset : Bool) (b : Bytes)
    (h : b.length < 8 ∨ b.length < nwkHeaderEnd b) : nwkDecode enc keyset b = nwkHdrFail b := by
  rw [nwkDecode]
  by_cases h8 : b.length < 8
  · exact if_pos h8
  · exact (if_neg h8).trans (if_pos (h.resolve_left h8))

/-- A whole header, secured or not (42_nwk.md R231). -/
theorem nwkDecode_whole (enc : Bytes → Bytes) (keyset : Bool) (b : Bytes) (h8 : 8 ≤ b.length)
    (hh : nwkHeaderEnd b ≤ b.length) :
    nwkDecode enc keyset b =
      if (nwkFcOf b).getLsbD 9 then nwkDecodeSecured enc keyset b (nwkHeaderEnd b) (nwkHeader b)
      else { f := { nwkHeader b with valid := true }, p := b.drop (nwkHeaderEnd b) } :=
  (if_neg (Nat.not_lt.2 h8)).trans (if_neg (Nat.not_lt.2 hh))

/-- A secured frame that ends with its header (42_nwk.md R237). -/
theorem nwkDecode_noAux (enc : Bytes → Bytes) (keyset : Bool) (b : Bytes) (h8 : 8 ≤ b.length)
    (hh : nwkHeaderEnd b = b.length) (hsec : (nwkFcOf b).getLsbD 9 = true) :
    nwkDecode enc keyset b = { f := { nwkHeader b with fail := .aux }, p := [], foff := nwkHeaderEnd b } := by
  rw [nwkDecode_whole enc keyset b h8 (by omega), if_pos hsec, nwkDecodeSecured, if_pos (by omega)]

/-- A secured frame with its security-control byte (42_nwk.md R234, R237). -/
theorem nwkDecode_secctl (enc : Bytes → Bytes) (keyset : Bool) (b : Bytes) (h8 : 8 ≤ b.length)
    (hh : nwkHeaderEnd b < b.length) (hsec : (nwkFcOf b).getLsbD 9 = true) :
    nwkDecode enc keyset b =
      if b.length < nwkAuxEnd b + 4 then
        { f := { nwkHeader b with secctl := nwkSecctlOf b, fail := .aux }
          p := nwkSecctlOf b :: b.drop (nwkHeaderEnd b + 1)
          wb := some (nwkHeaderEnd b, nwkSecctlOf b), foff := nwkHeaderEnd b }
      else
        nwkOpen enc keyset (b.set (nwkHeaderEnd b) (nwkSecctlOf b)) (nwkHeaderEnd b) (nwkAuxEnd b)
          (nwkAuxFields (b.set (nwkHeaderEnd b) (nwkSecctlOf b)) (nwkHeaderEnd b)
            { nwkHeader b with secctl := nwkSecctlOf b }) := by
  have hsc : patchSec (b.getD (nwkHeaderEnd b) 0) = nwkSecctlOf b := rfl
  have htail : (b.set (nwkHeaderEnd b) (nwkSecctlOf b)).drop (nwkHeaderEnd b) =
      nwkSecctlOf b :: b.drop (nwkHeaderEnd b + 1) := by
    rw [List.drop_set, if_neg (by omega), Nat.sub_self, List.drop_eq_getElem_cons hh, List.set_cons_zero]
  rw [nwkDecode_whole enc keyset b h8 hh.le, if_pos hsec, nwkDecodeSecured, if_neg (by omega)]
  simp only [hsc, nwkAuxEnd_eq, htail]

/-- A sealed frame goes to the security step (42_nwk.md R238). -/
theorem nwkDecode_sealed (enc : Bytes → Bytes) (keyset : Bool) (b : Bytes) (h : nwkSealed b) :
    nwkDecode enc keyset b =
      nwkOpen enc keyset (b.set (nwkHeaderEnd b) (nwkSecctlOf b)) (nwkHeaderEnd b) (nwkAuxEnd b)
        (nwkSealedFields b) := by
  obtain ⟨h8, hh, -⟩ := nwkSealed_length b h
  rw [nwkDecode_secctl enc keyset b h8 hh h.1, if_neg (Nat.not_lt.2 h.2), nwkAuxFields_sealed b h]

/-- What the security step opens is the ciphertext of the frame, under the corrected bytes through the key sequence
(42_nwk.md R238, R239). -/
theorem nwkSealed_parts (b : Bytes) (h : nwkSealed b) :
    slice (b.set (nwkHeaderEnd b) (nwkSecctlOf b)) (nwkAuxEnd b) (b.length - 4 - nwkAuxEnd b) = nwkCipherOf b ∧
      slice (b.set (nwkHeaderEnd b) (nwkSecctlOf b)) (b.length - 4) 4 = b.drop (b.length - 4) := by
  obtain ⟨-, -, hmic, haux⟩ := nwkSealed_length b h
  rw [slice_set_of_lt _ _ _ _ _ haux, slice_set_of_lt _ _ _ _ _ hmic]
  exact ⟨(List.drop_take).symm, List.take_of_length_le (by rw [List.length_drop]; omega)⟩

/-- Everything a NWK decode can give, with the condition under which it does (42_nwk.md R231 to R242). -/
inductive NwkOutcome (enc : Bytes → Bytes) (keyset : Bool) (b : Bytes) : NwkResult → Prop
  /-- FAIL = HDR (R232). -/
  | short (hcut : b.length < 8 ∨ b.length < nwkHeaderEnd b) : NwkOutcome enc keyset b (nwkHdrFail b)
  /-- An unsecured frame. -/
  | plain (h8 : 8 ≤ b.length) (hh : nwkHeaderEnd b ≤ b.length) (hsec : (nwkFcOf b).getLsbD 9 = false) :
    NwkOutcome enc keyset b { f := { nwkHeader b with valid := true }, p := b.drop (nwkHeaderEnd b) }
  /-- FAIL = AUX without a security-control byte (R237). -/
  | noAux (h8 : 8 ≤ b.length) (hh : nwkHeaderEnd b = b.length) (hsec : (nwkFcOf b).getLsbD 9 = true) :
    NwkOutcome enc keyset b { f := { nwkHeader b with fail := .aux }, p := [], foff := nwkHeaderEnd b }
  /-- FAIL = AUX behind the security-control byte (R237). -/
  | cutAux (h8 : 8 ≤ b.length) (hh : nwkHeaderEnd b < b.length) (hsec : (nwkFcOf b).getLsbD 9 = true)
      (hcut : ¬ nwkSealed b) :
    NwkOutcome enc keyset b
      { f := { nwkHeader b with secctl := nwkSecctlOf b, fail := .aux }
        p := nwkSecctlOf b :: b.drop (nwkHeaderEnd b + 1)
        wb := some (nwkHeaderEnd b, nwkSecctlOf b), foff := nwkHeaderEnd b }
  /-- FAIL = NONCESRC (R240). -/
  | noSource (hs : nwkSealed b) (hsrc : ¬ nwkHasSource b) :
    NwkOutcome enc keyset b
      { f := { nwkSealedFields b with fail := .nonceSrc }, p := nwkCipherOf b
        wb := some (nwkHeaderEnd b, nwkSecctlOf b), foff := nwkHeaderEnd b }
  /-- FAIL = NOKEY, with the nonce as it was built (R241). -/
  | noKey (hs : nwkSealed b) (hsrc : nwkHasSource b) (hk : keyset = false) :
    NwkOutcome enc keyset b
      { f := { nwkSealedFields b with fail := .noKey }, p := nwkCipherOf b
        wb := some (nwkHeaderEnd b, nwkSecctlOf b), nonce := some (nwkNonceOf b) }
  /-- FAIL = MIC: the payload stays the ciphertext (R242). -/
  | badMic (hs : nwkSealed b) (hsrc : nwkHasSource b) (hk : keyset = true)
      (hauth : (nwkOpenedOf enc b).auth = .fail) :
    NwkOutcome enc keyset b
      { f := { nwkSealedFields b with fail := .mic }, p := nwkCipherOf b
        wb := some (nwkHeaderEnd b, nwkSecctlOf b), nonce := some (nwkOpenedOf enc b).nonce, auth := .fail
        foff := b.length - 4 }
  /-- The frame opens (R242). -/
  | opened (hs : nwkSealed b) (hsrc : nwkHasSource b) (hk : keyset = true)
      (hauth : (nwkOpenedOf enc b).auth = .pass) :
    NwkOutcome enc keyset b
      { f := { nwkSealedFields b with valid := true }, p := (nwkOpenedOf enc b).m
        wb := some (nwkHeaderEnd b, nwkSecctlOf b), nonce := some (nwkOpenedOf enc b).nonce, auth := .pass }

/-- A validated decryption passes or fails (40_aes_ccm.md R168). -/
theorem nwkOpenedOf_auth (enc : Bytes → Bytes) (b : Bytes) :
    (nwkOpenedOf enc b).auth = .pass ∨ (nwkOpenedOf enc b).auth = .fail := by
  cases h : (nwkOpenedOf enc b).auth with
  | pass => exact .inl rfl
  | fail => exact .inr rfl
  | notChecked => cases (ccmDecrypt_auth_notChecked_iff _ _ _ _ _ _).1 h

/-- The outcomes of a sealed frame. -/
theorem nwkDecode_sealed_outcome (enc : Bytes → Bytes) (keyset : Bool) (b : Bytes) (h : nwkSealed b) :
    NwkOutcome enc keyset b (nwkDecode enc keyset b) := by
  obtain ⟨hcipher, hmic⟩ := nwkSealed_parts b h
  have hsc : (nwkSealedFields b).secctl = nwkSecctlOf b := rfl
  rw [nwkDecode_sealed enc keyset b h, nwkOpen, List.length_set, hcipher, hmic, hsc]
  by_cases hsrc : nwkHasSource b
  swap
  · rw [nonceSource_eq_none b hsrc]
    exact .noSource h hsrc
  obtain ⟨src, hsome, hnonce⟩ := nonceSource_eq_some b hsrc
  rw [hsome]
  simp only [hnonce]
  cases keyset with
  | false => exact .noKey h hsrc rfl
  | true =>
    rw [if_pos rfl]
    show NwkOutcome enc true b (if (nwkOpenedOf enc b).auth = .pass then _ else _)
    rcases nwkOpenedOf_auth enc b with hauth | hauth
    · rw [if_pos hauth]
      exact .opened h hsrc rfl hauth
    · rw [if_neg (by rw [hauth]; decide)]
      exact .badMic h hsrc rfl hauth

/-- Every NWK decode has one of these outcomes. -/
theorem nwkDecode_outcome (enc : Bytes → Bytes) (keyset : Bool) (b : Bytes) :
    NwkOutcome enc keyset b (nwkDecode enc keyset b) := by
  by_cases hcut : b.length < 8 ∨ b.length < nwkHeaderEnd b
  · exact nwkDecode_short enc keyset b hcut ▸ .short hcut
  obtain ⟨h8, hh⟩ := not_or.1 hcut
  rw [Nat.not_lt] at h8 hh
  cases hsec : (nwkFcOf b).getLsbD 9 with
  | false =>
    rw [nwkDecode_whole enc keyset b h8 hh, if_neg (by rw [hsec]; decide)]
    exact .plain h8 hh hsec
  | true =>
    rcases hh.eq_or_lt with heq | hlt
    · exact nwkDecode_noAux enc keyset b h8 heq hsec ▸ .noAux h8 heq hsec
    by_cases hs : nwkSealed b
    · exact nwkDecode_sealed_outcome enc keyset b hs
    · rw [nwkDecode_secctl enc keyset b h8 hlt hsec, if_pos (Nat.lt_of_not_le fun hle => hs ⟨hsec, hle⟩)]
      exact .cutAux h8 hlt hsec hs

end Sys2Proof.Machine
end

section
/-! What the outcomes of a NWK decode say of its report (42_nwk.md R231 to R242): when each failure occurs, what is
reported with it, and the fields. -/

namespace Sys2Proof.Machine

section
variable {enc : Bytes → Bytes} {keyset : Bool} {b : Bytes} {r : NwkResult}

/-- A frame that is cut in its header is not sealed. -/
theorem not_nwkSealed_of_le (h : b.length < 8 ∨ b.length ≤ nwkHeaderEnd b) : ¬ nwkSealed b := fun hs => by
  obtain ⟨h8, hh, -⟩ := nwkSealed_length b hs
  omega

/-- A frame that is not secured is not sealed. -/
theorem not_nwkSealed_of_plain (h : (nwkFcOf b).getLsbD 9 = false) : ¬ nwkSealed b := fun hs =>
  Bool.false_ne_true (h.symm.trans hs.1)

/-- When a NWK decode fails and how (42_nwk.md R232, R237, R240 to R242). -/
theorem NwkOutcome.fail_iff (hout : NwkOutcome enc keyset b r) :
    (r.f.fail = .hdr ↔ b.length < 8 ∨ b.length < nwkHeaderEnd b) ∧
    (r.f.fail = .aux ↔
      8 ≤ b.length ∧ nwkHeaderEnd b ≤ b.length ∧ (nwkFcOf b).getLsbD 9 = true ∧ ¬ nwkSealed b) ∧
    (r.f.fail = .nonceSrc ↔ nwkSealed b ∧ ¬ nwkHasSource b) ∧
    (r.f.fail = .noKey ↔ nwkSealed b ∧ nwkHasSource b ∧ keyset = false) ∧
    (r.f.fail = .mic ↔ nwkSealed b ∧ nwkHasSource b ∧ keyset = true ∧ (nwkOpenedOf enc b).auth = .fail) := by
  have hwhole (h8 : 8 ≤ b.length) (hh : nwkHeaderEnd b ≤ b.length) :
      ¬ (b.length < 8 ∨ b.length < nwkHeaderEnd b) := by omega
  have hcut (h : b.length < 8 ∨ b.length < nwkHeaderEnd b) : ¬ (8 ≤ b.length ∧ nwkHeaderEnd b ≤ b.length) := by omega
  cases hout with
  | short h => simp [nwkHdrFail, h, ← and_assoc, hcut h, not_nwkSealed_of_le (h.imp_right le_of_lt)]
  | plain h8 hh hsec =>
    simp [-BitVec.getLsbD_eq_getElem, nwkHeader_eq, NwkFields.zero, hwhole h8 hh, hsec, not_nwkSealed_of_plain hsec]
  | noAux h8 hh hsec => simp [h8, hh.le, hwhole h8 hh.le, hsec, not_nwkSealed_of_le (.inr hh.ge)]
  | cutAux h8 hh hsec hs => simp [h8, hh.le, hwhole h8 hh.le, hsec, hs]
  | noSource hs hsrc =>
    obtain ⟨h8, hh, -⟩ := nwkSealed_length b hs
    simp [hwhole h8 hh.le, hs, hsrc]
  | noKey hs hsrc hk =>
    obtain ⟨h8, hh, -⟩ := nwkSealed_length b hs
    simp [hwhole h8 hh.le, hs, hsrc, hk]
  | badMic hs hsrc hk hauth =>
    obtain ⟨h8, hh, -⟩ := nwkSealed_length b hs
    simp [hwhole h8 hh.le, hs, hsrc, hk, hauth]
  | opened hs hsrc hk hauth =>
    obtain ⟨h8, hh, -⟩ := nwkSealed_length b hs
    simp [nwkSealedFields, nwkHeader_eq, NwkFields.zero, hwhole h8 hh.le, hs, hsrc, hk, hauth]

/-- When a NWK decode is valid, and what AUTH reports (42_nwk.md R233, R242). -/
theorem NwkOutcome.valid_iff (hout : NwkOutcome enc keyset b r) :
    (r.f.valid = true ↔ r.f.fail = .none) ∧
    (r.f.valid = true ↔ r.f.fail ≠ .hdr ∧ (r.f.fc.getLsbD 9 = false ∨ r.auth = .pass)) ∧
    (r.auth = .pass ↔ nwkSealed b ∧ nwkHasSource b ∧ keyset = true ∧ (nwkOpenedOf enc b).auth = .pass) ∧
    (r.auth = .fail ↔ r.f.fail = .mic) := by
  cases hout with
  | short h => simp [nwkHdrFail, NwkFields.zero, not_nwkSealed_of_le (h.imp_right le_of_lt)]
  | plain h8 hh hsec =>
    simp [-BitVec.getLsbD_eq_getElem, nwkHeader_eq, NwkFields.zero, hsec, not_nwkSealed_of_plain hsec]
  | noAux h8 hh hsec => simp [nwkHeader_eq, NwkFields.zero, hsec, not_nwkSealed_of_le (.inr hh.ge)]
  | cutAux h8 hh hsec hs => simp [nwkHeader_eq, NwkFields.zero, hsec, hs]
  | noSource hs hsrc => simp [nwkSealedFields, nwkHeader_eq, NwkFields.zero, hs.1, hsrc]
  | noKey hs hsrc hk => simp [nwkSealedFields, nwkHeader_eq, NwkFields.zero, hs.1, hk]
  | badMic hs hsrc hk hauth => simp [nwkSealedFields, nwkHeader_eq, NwkFields.zero, hs.1, hauth]
  | opened hs hsrc hk hauth => simp [nwkSealedFields, nwkHeader_eq, NwkFields.zero, hs, hsrc, hk, hauth]

/-- What is reported with each failure (42_nwk.md R232, R237, R240 to R242). -/
theorem NwkOutcome.failure_report (hout : NwkOutcome enc keyset b r) :
    (r.f.fail = .hdr → r.f = { NwkFields.zero with fail := .hdr } ∧ r.p = b ∧ r.wb = none ∧ r.nonce = none ∧
      r.foff = 0) ∧
    (r.f.fail = .aux → r.nonce = none ∧ r.foff = nwkHeaderEnd b ∧ r.f.secfc = 0 ∧ r.f.secsrc = 0 ∧ r.f.keyseq = 0 ∧
      r.f.mic = 0 ∧ (b.length = nwkHeaderEnd b → r.p = [] ∧ r.wb = none ∧ r.f.secctl = 0) ∧
      (nwkHeaderEnd b < b.length → r.p = nwkSecctlOf b :: b.drop (nwkHeaderEnd b + 1) ∧
        r.wb = some (nwkHeaderEnd b, nwkSecctlOf b) ∧ r.f.secctl = nwkSecctlOf b)) ∧
    (r.f.fail = .nonceSrc ∨ r.f.fail = .noKey ∨ r.f.fail = .mic →
      r.wb = some (nwkHeaderEnd b, nwkSecctlOf b) ∧ r.p = nwkCipherOf b) ∧
    (r.f.fail = .nonceSrc → r.foff = nwkHeaderEnd b ∧ r.nonce = none) ∧
    (r.f.fail = .noKey → r.foff = 0 ∧ r.nonce = some (nwkNonceOf b)) ∧
    (r.f.fail = .mic → r.foff = b.length - 4 ∧ r.nonce = some (nwkOpenedOf enc b).nonce) := by
  cases hout with
  | noAux h8 hh hsec => simp [nwkHeader_eq, NwkFields.zero, hh]
  | cutAux h8 hh hsec hs => simp [nwkHeader_eq, NwkFields.zero, hh, hh.ne']
  | short | plain => simp [nwkHdrFail, nwkHeader_eq, NwkFields.zero]
  | noSource | noKey | badMic | opened => simp [nwkSealedFields, nwkHeader_eq, NwkFields.zero]

/-- What is reported of a frame that opened, and of one that is not secured (42_nwk.md R231, R242). -/
theorem NwkOutcome.success_report (hout : NwkOutcome enc keyset b r) :
    (r.auth = .pass → r.foff = 0 ∧ r.nonce = some (nwkOpenedOf enc b).nonce ∧
      r.wb = some (nwkHeaderEnd b, nwkSecctlOf b) ∧ r.p = (nwkOpenedOf enc b).m) ∧
    (r.f.fail ≠ .hdr → (nwkFcOf b).getLsbD 9 = false →
      r.foff = 0 ∧ r.nonce = none ∧ r.wb = none ∧ r.p = b.drop (nwkHeaderEnd b) ∧ r.f.secctl = 0 ∧ r.f.secfc = 0 ∧
        r.f.secsrc = 0 ∧ r.f.keyseq = 0 ∧ r.f.mic = 0) := by
  cases hout with
  | short h => simp [nwkHdrFail]
  | plain h8 hh hsec => simp [nwkHeader_eq, NwkFields.zero]
  | noAux h8 hh hsec => simp [hsec]
  | cutAux h8 hh hsec hs => simp [hsec]
  | noSource hs | noKey hs | badMic hs | opened hs => simp [hs.1]

/-- The fields a NWK decode reports (42_nwk.md R231, R234, R239). -/
theorem NwkOutcome.fields (hout : NwkOutcome enc keyset b r) :
    (r.f.fail ≠ .hdr → r.f = { nwkHeader b with
      valid := r.f.valid, fail := r.f.fail, secctl := r.f.secctl, secfc := r.f.secfc, secsrc := r.f.secsrc
      keyseq := r.f.keyseq, mic := r.f.mic }) ∧
    (nwkSealed b → r.f = { nwkSealedFields b with valid := r.f.valid, fail := r.f.fail }) := by
  cases hout with
  | short h => exact ⟨fun hne => absurd rfl hne, fun hs => absurd hs (not_nwkSealed_of_le (h.imp_right le_of_lt))⟩
  | plain h8 hh hsec => exact ⟨fun _ => rfl, fun hs => absurd hs (not_nwkSealed_of_plain hsec)⟩
  | noAux h8 hh hsec => exact ⟨fun _ => rfl, fun hs => absurd hs (not_nwkSealed_of_le (.inr hh.ge))⟩
  | cutAux h8 hh hsec hcut => exact ⟨fun _ => rfl, fun hs => absurd hs hcut⟩
  | noSource | noKey | badMic | opened => exact ⟨fun _ => rfl, fun _ => rfl⟩

end

/-- Settles O35: the decode has one of its outcomes, and each clause holds of all of them. -/
theorem nwkDecodeFailures : Obligations.NwkDecodeFailures := by
  intro k keyset b r h sc o
  have hout : NwkOutcome (aesEnc k) keyset b r := nwkDecode_outcome (aesEnc k) keyset b
  obtain ⟨hvalid, hvalid', hpass, hfailed⟩ := hout.valid_iff
  obtain ⟨hhdr, haux, hsrc, hkey, hmic⟩ := hout.fail_iff
  obtain ⟨rhdr, raux, rwb, rsrc, rkey, rmic⟩ := hout.failure_report
  obtain ⟨ropen, rplain⟩ := hout.success_report
  obtain ⟨fheader, fsealed⟩ := hout.fields
  refine ⟨hvalid, hvalid', hhdr, haux, hsrc, hkey, hmic, hpass, hfailed, rhdr, raux, rwb, rsrc, rkey, rmic, ropen,
    rplain, fun hne => ?_, fun hs => ?_⟩
  · rw [fheader hne, nwkHeader_eq]
    exact ⟨rfl, rfl, rfl, rfl, rfl, rfl, rfl⟩
  · rw [fsealed hs]
    exact ⟨rfl, rfl, rfl, rfl, rfl⟩

end Sys2Proof.Machine
end

section
/-! The NWK encoder against the decoder (42_nwk.md R244, R245, R249): header and auxiliary header are runs of fields,
which the two write and read alike, and what is sealed under the nonce of a record opens under that of its frame. -/

namespace Sys2Proof.Machine

/-! ### The header -/

/-- The widths of the header fields; an extended address that is absent has width 0 (30_encoding.md R135). -/
def nwkHeaderWidths (fc : Half) : List Nat := [2, 2, 2, 1, 1, len8 (nwkExtDstP fc), len8 (nwkExtSrcP fc)]

/-- The values of the header fields of a record, in wire order. -/
def nwkHeaderValues (f : NwkFields) : List Nat :=
  [f.fc.toNat, f.dst.toNat, f.src.toNat, f.radius.toNat, f.seq.toNat, f.extdst.toNat, f.extsrc.toNat]

/-- The record of the values of the header fields. -/
def nwkHeaderRecord (vs : List Nat) : NwkFields :=
  { NwkFields.zero with
    fc := BitVec.ofNat 16 (vs.getD 0 0), dst := BitVec.ofNat 16 (vs.getD 1 0), src := BitVec.ofNat 16 (vs.getD 2 0)
    radius := BitVec.ofNat 8 (vs.getD 3 0), seq := BitVec.ofNat 8 (vs.getD 4 0)
    extdst := BitVec.ofNat 64 (vs.getD 5 0), extsrc := BitVec.ofNat 64 (vs.getD 6 0) }

/-- A record with the header fields of `f` alone. -/
def NwkFields.header (f : NwkFields) : NwkFields :=
  { NwkFields.zero with
    fc := f.fc, dst := f.dst, src := f.src, radius := f.radius, seq := f.seq, extdst := f.extdst, extsrc := f.extsrc }

/-- A field of one byte is the byte. -/
theorem le_one (v : Byte) : le 1 v.toNat = [v] := by simp [le]

/-- Reading one byte as a number. -/
theorem getD_eq_leAt (b : Bytes) (p : Nat) : b.getD p 0 = BitVec.ofNat 8 (leAt b p 1) := by
  have hhead : b.getD p 0 = (b.drop p).getD 0 0 := by simp [List.getD]
  rw [hhead, leAt]
  cases b.drop p with
  | nil => rfl
  | cons x rest => simp [rdLe]

/-- An absent field of 8 bytes, of width 0, reads as 0. -/
theorem leAt_len8 (b : Bytes) (p : Nat) (present : Bool) :
    leAt b p (len8 present) = if present then leAt b p 8 else 0 := by cases present <;> rfl

theorem le_len8 (present : Bool) (v : Nat) : le (len8 present) v = if present then le 8 v else [] := by
  cases present <;> rfl

/-- A 64-bit value fits its field where it is present, and an absent field if it is 0. -/
theorem len8_fits (present : Bool) (v : Addr64) (h : present = false → v = 0) : v.toNat < 256 ^ len8 present :=
  present_fits (present = true) v 8 rfl fun hp => h (Bool.eq_false_of_not_eq_true hp)

/-- The encoder writes the run of the header fields. -/
theorem nwkHeaderBytes_eq (f : NwkFields) :
    nwkHeaderBytes f = writeFields (nwkHeaderWidths f.fc) (nwkHeaderValues f) := by
  simp only [nwkHeaderBytes, nwkHeaderWidths, nwkHeaderValues, writeFields_cons, le_len8, le_one, List.append_assoc]
  simp [leOf, writeFields]

theorem nwkHeaderBytes_length (f : NwkFields) : (nwkHeaderBytes f).length = nwkHeaderLen f.fc := by
  rw [nwkHeaderBytes_eq, writeFields_length _ _ (by rfl), nwkHeaderLen]
  simp only [nwkHeaderWidths, List.sum_cons, List.sum_nil]
  omega

/-- The decoder reads the run of the header fields. -/
theorem nwkHeader_eq_record (b : Bytes) :
    nwkHeader b = nwkHeaderRecord (readFields b 0 (nwkHeaderWidths (nwkFcOf b))) := by
  rw [nwkHeader_eq, getD_eq_leAt, getD_eq_leAt]
  simp only [nwkHeaderRecord, nwkHeaderWidths, readFields, leAt_len8, List.getD_cons_zero, List.getD_cons_succ]
  rfl

/-- The frame control is read back from a header, whatever follows it. -/
theorem nwkFcOf_append (f : NwkFields) (rest : Bytes) : nwkFcOf (nwkHeaderBytes f ++ rest) = f.fc := by
  simp only [nwkHeaderBytes, List.append_assoc]
  exact fieldAt_append [] _ f.fc 0 rfl rfl

/-- A header ends where the frame control says. -/
theorem nwkHeaderEnd_append (f : NwkFields) (rest : Bytes) :
    nwkHeaderEnd (nwkHeaderBytes f ++ rest) = (nwkHeaderBytes f).length := by
  show nwkHeaderLen (nwkFcOf (nwkHeaderBytes f ++ rest)) = _
  rw [nwkFcOf_append, nwkHeaderBytes_length]

/-- A header is read back, when the extended addresses that it lacks are 0. -/
theorem nwkHeader_append (f : NwkFields) (rest : Bytes) (hdst : f.fc.getLsbD 11 = false → f.extdst = 0)
    (hsrc : f.fc.getLsbD 12 = false → f.extsrc = 0) : nwkHeader (nwkHeaderBytes f ++ rest) = f.header := by
  have hread := readFields_writeFields [] rest (nwkHeaderWidths f.fc) (nwkHeaderValues f) rfl
  rw [← nwkHeaderBytes_eq, List.nil_append, List.length_nil] at hread
  rw [nwkHeader_eq_record, nwkFcOf_append, hread]
  simp only [nwkHeaderRecord, nwkHeaderWidths, nwkHeaderValues, List.zipWith_cons_cons, List.getD_cons_zero,
    List.getD_cons_succ]
  rw [ofNat_mod_width f.fc 2 f.fc.isLt, ofNat_mod_width f.dst 2 f.dst.isLt, ofNat_mod_width f.src 2 f.src.isLt,
    ofNat_mod_width f.radius 1 f.radius.isLt, ofNat_mod_width f.seq 1 f.seq.isLt, 
    ofNat_mod_width f.extdst _ (len8_fits (nwkExtDstP f.fc) _ hdst),
    ofNat_mod_width f.extsrc _ (len8_fits (nwkExtSrcP f.fc) _ hsrc)]
  rfl

/-! ### An unsecured frame -/

/-- A canonical record that is not secured is its header (30_encoding.md R146). -/
theorem canonical_plain (f : NwkFields) (h : f.Canonical) (hsec : f.fc.getLsbD 9 = false) :
    { f.header with valid := true } = f := by
  obtain ⟨hctl, hkey, hfc, hsrc, hmic⟩ := h.plain hsec
  obtain ⟨hvalid, hfail⟩ := h.valid
  cases f
  simp_all [NwkFields.header, NwkFields.zero]

/-- The decoder gives an unsecured canonical record and the payload back from its frame (42_nwk.md R249). -/
theorem nwkDecode_plainFrame (enc : Bytes → Bytes) (keyset : Bool) (f : NwkFields) (pl : Bytes) (h : f.Canonical)
    (hsec : f.fc.getLsbD 9 = false) : nwkDecode enc keyset (nwkHeaderBytes f ++ pl) = { f := f, p := pl } := by
  have hend := nwkHeaderEnd_append f pl
  have h8 : 8 ≤ (nwkHeaderBytes f).length := by
    rw [nwkHeaderBytes_length, nwkHeaderLen]
    omega
  rw [nwkDecode_whole enc keyset _ (by simp; omega) (by simp [hend]), nwkFcOf_append, if_neg (by rw [hsec]; decide),
    nwkHeader_append f pl h.noExtDst h.noExtSrc, canonical_plain f h hsec, hend, List.drop_left]

/-! ### A secured frame -/

/-- The secured frame of a record, with ciphertext `c` and MIC `u` (42_nwk.md R244, R245). -/
def nwkWire (f : NwkFields) (c u : Bytes) : Bytes :=
  nwkHeaderBytes f ++ [emittedSec f.secctl] ++ nwkAuxBytes f f.secfc ++ c ++ u

/-- The auth data of a secured frame (42_nwk.md R244). -/
def nwkAuthData (f : NwkFields) : Bytes := nwkHeaderBytes f ++ [f.secctl] ++ nwkAuxBytes f f.secfc

/-- The widths of the auxiliary fields from the security-control byte on (30_encoding.md R136). -/
def nwkAuxWidths (sc : Byte) : List Nat := [1, 4, len8 (extNonce sc), 1]

/-- The encoder writes the run of the auxiliary fields. -/
theorem nwkAuxBytes_eq (f : NwkFields) (sc : Byte) (c : Word) :
    [sc] ++ nwkAuxBytes f c =
      writeFields (nwkAuxWidths f.secctl) [sc.toNat, c.toNat, f.secsrc.toNat, f.keyseq.toNat] := by
  simp only [nwkAuxBytes, nwkAuxWidths, writeFields_cons, le_len8, le_one, List.append_assoc]
  simp [leOf, writeFields]

/-- The frame behind its header. -/
theorem nwkWire_eq (f : NwkFields) (c u : Bytes) :
    nwkWire f c u = nwkHeaderBytes f ++ ([emittedSec f.secctl] ++ nwkAuxBytes f f.secfc ++ (c ++ u)) := by
  simp only [nwkWire, List.append_assoc]

theorem nwkAuthData_length (f : NwkFields) :
    (nwkAuthData f).length = (nwkHeaderBytes f).length + 6 + len8 (extNonce f.secctl) := by
  rw [nwkAuthData, List.append_assoc, nwkAuxBytes_eq, List.length_append, writeFields_length _ _ (by rfl)]
  simp only [nwkAuxWidths, List.sum_cons, List.sum_nil]
  omega

/-- A secured canonical record has SECLEVEL = 5 (30_encoding.md R146). -/
theorem patchSec_of_level : ∀ sc : Byte, sc.extractLsb' 0 3 = 5 → patchSec sc = sc := by decide

section
variable {f : NwkFields} {c u : Bytes}

theorem nwkWire_fc : nwkFcOf (nwkWire f c u) = f.fc := nwkWire_eq f c u ▸ nwkFcOf_append f _

theorem nwkWire_headerEnd : nwkHeaderEnd (nwkWire f c u) = (nwkHeaderBytes f).length :=
  nwkWire_eq f c u ▸ nwkHeaderEnd_append f _

/-- The header of a secured frame is read back (42_nwk.md R249). -/
theorem nwkWire_header (hf : f.Canonical) : nwkHeader (nwkWire f c u) = f.header :=
  nwkWire_eq f c u ▸ nwkHeader_append f _ hf.noExtDst hf.noExtSrc

/-- The security-control byte of the frame, once corrected, is that of the record (42_nwk.md R234, R245). -/
theorem nwkWire_secctl (hf : f.Canonical) (hsec : f.fc.getLsbD 9 = true) : nwkSecctlOf (nwkWire f c u) = f.secctl := by
  have hbyte : (nwkWire f c u).getD (nwkHeaderBytes f).length 0 = emittedSec f.secctl := by
    rw [nwkWire_eq, List.getD_append_right _ _ _ _ le_rfl, Nat.sub_self]
    rfl
  show patchSec ((nwkWire f c u).getD (nwkHeaderEnd (nwkWire f c u)) 0) = _
  rw [nwkWire_headerEnd, hbyte, patchSec_emittedSec, patchSec_of_level _ (hf.level hsec)]

/-- The auxiliary header ends where the auth data end. -/
theorem nwkWire_auxEnd (hf : f.Canonical) (hsec : f.fc.getLsbD 9 = true) :
    nwkAuxEnd (nwkWire f c u) = (nwkAuthData f).length := by
  rw [nwkAuxEnd, nwkWire_secctl hf hsec, nwkWire_headerEnd, nwkAuthData_length]
  rfl

theorem nwkWire_length (f : NwkFields) (c u : Bytes) :
    (nwkWire f c u).length = (nwkAuthData f).length + (c.length + u.length) := by
  simp only [nwkWire, nwkAuthData, List.length_append, List.length_singleton, Nat.add_assoc]

/-- The frame is sealed (42_nwk.md R237). -/
theorem nwkWire_sealed (hf : f.Canonical) (hsec : f.fc.getLsbD 9 = true) (hu : u.length = 4) :
    nwkSealed (nwkWire f c u) := by
  refine ⟨by rw [nwkWire_fc, hsec], ?_⟩
  rw [nwkWire_auxEnd hf hsec, nwkWire_length, hu]
  omega

/-- The MIC is the last 4 bytes (42_nwk.md R239). -/
theorem nwkWire_mic (f : NwkFields) (c : Bytes) (hu : u.length = 4) :
    (nwkWire f c u).drop ((nwkWire f c u).length - 4) = u := by
  refine List.drop_left' ?_
  rw [nwkWire, List.length_append (bs := u), hu, Nat.add_sub_cancel]

/-- The ciphertext stands between the auxiliary header and the MIC (42_nwk.md R239). -/
theorem nwkWire_cipher (hf : f.Canonical) (hsec : f.fc.getLsbD 9 = true) (hu : u.length = 4) :
    nwkCipherOf (nwkWire f c u) = c := by
  have hhead : (nwkWire f c u).take ((nwkWire f c u).length - 4) =
      (nwkHeaderBytes f ++ [emittedSec f.secctl] ++ nwkAuxBytes f f.secfc) ++ c := by
    refine List.take_left' ?_
    rw [nwkWire, List.length_append (bs := u), hu, Nat.add_sub_cancel]
  rw [nwkCipherOf, nwkWire_auxEnd hf hsec, hhead]
  exact List.drop_left' (by simp [nwkAuthData])

/-- The corrected bytes through the key sequence are the auth data (42_nwk.md R238). -/
theorem nwkWire_auth (hf : f.Canonical) (hsec : f.fc.getLsbD 9 = true) :
    ((nwkWire f c u).set (nwkHeaderEnd (nwkWire f c u)) (nwkSecctlOf (nwkWire f c u))).take
      (nwkAuxEnd (nwkWire f c u)) = nwkAuthData f := by
  rw [nwkWire_auxEnd hf hsec, nwkWire_secctl hf hsec, nwkWire_headerEnd, nwkWire_eq,
    List.set_append_right _ _ le_rfl, Nat.sub_self]
  have hset : nwkHeaderBytes f ++
      ([emittedSec f.secctl] ++ nwkAuxBytes f f.secfc ++ (c ++ u)).set 0 f.secctl = nwkAuthData f ++ (c ++ u) := by
    simp [nwkAuthData]
  rw [hset, List.take_left]

/-- The fields of a secured frame are read back, with the MIC it carries (42_nwk.md R249). -/
theorem nwkWire_fields (hf : f.Canonical) (hsec : f.fc.getLsbD 9 = true) (hu : u.length = 4) :
    nwkSealedFields (nwkWire f c u) = { f with valid := false, mic := BitVec.ofNat 32 (rdLe u) } := by
  have hsc := nwkWire_secctl (c := c) (u := u) hf hsec
  have haux : nwkAuxEnd (nwkWire f c u) - 1 = (nwkHeaderBytes f).length + 1 + 4 + len8 (extNonce f.secctl) := by
    rw [nwkWire_auxEnd hf hsec, nwkAuthData_length]
    omega
  have hmic : leAt (nwkWire f c u) ((nwkWire f c u).length - 4) 4 = rdLe u := by
    rw [leAt, nwkWire_mic f c hu, List.take_of_length_le hu.le]
  have hread := readFields_writeFields (nwkHeaderBytes f) (c ++ u) (nwkAuxWidths f.secctl)
    [(emittedSec f.secctl).toNat, f.secfc.toNat, f.secsrc.toNat, f.keyseq.toNat] rfl
  rw [← nwkAuxBytes_eq, ← nwkWire_eq] at hread
  simp only [nwkAuxWidths, readFields, List.zipWith_cons_cons, List.zipWith_nil_left, List.cons.injEq] at hread
  obtain ⟨-, hfc, hsrc, hkey, -⟩ := hread
  have hsrcread : (if f.secctl.getLsbD 5 then leAt (nwkWire f c u) ((nwkHeaderBytes f).length + 5) 8 else 0) =
      f.secsrc.toNat % 256 ^ len8 (extNonce f.secctl) := hsrc ▸ (leAt_len8 _ _ _).symm
  rw [nwkSealedFields, hsc, nwkWire_headerEnd, haux, hmic, nwkWire_header hf, hfc, hsrcread, getD_eq_leAt, hkey,
    ofNat_mod_width f.secfc 4 f.secfc.isLt, ofNat_mod_width f.keyseq 1 f.keyseq.isLt,
    ofNat_mod_width f.secsrc _ (len8_fits (extNonce f.secctl) _ (hf.noSecSrc hsec))]
  simp [NwkFields.header, NwkFields.zero, hf.valid.2]

end

/-! ### Sealing and opening -/

/-- What a secured encode of a canonical record seals: the payload under the nonce of the record (42_nwk.md R244). -/
def nwkSeal (enc : Bytes → Bytes) (f : NwkFields) (pl : Bytes) : CcmSealed :=
  ccmEncrypt enc (nwkNonce (if extNonce f.secctl then f.secsrc else f.extsrc) f.secfc f.secctl) (nwkAuthData f) pl

/-- The frame and the update of a secured encode of a canonical record (42_nwk.md R244, R245). -/
theorem nwkFrame_canonical (enc : Bytes → Bytes) (f : NwkFields) (pl : Bytes) (hf : f.Canonical)
    (hsec : f.fc.getLsbD 9 = true) :
    nwkFrame enc f pl f.secfc =
      (nwkWire f (nwkSeal enc f pl).c (nwkSeal enc f pl).u,
        some { secfc := f.secfc, mic := fieldAt 32 (nwkSeal enc f pl).u 0, secctl := emittedSec f.secctl
               nonce := (nwkSeal enc f pl).nonce, fc := f.secfc + 1 }) := by
  rw [nwkFrame, if_pos (show nwkSec f.fc = true from hsec), patchSec_of_level _ (hf.level hsec)]
  rfl

/-- The frame of a record that names a nonce source carries one (42_nwk.md R240). -/
theorem nwkWire_hasSource {f : NwkFields} {c u : Bytes} (hf : f.Canonical) (hsec : f.fc.getLsbD 9 = true)
    (hsource : f.secctl.getLsbD 5 = true ∨ f.fc.getLsbD 12 = true) : nwkHasSource (nwkWire f c u) := by
  rwa [nwkHasSource, nwkWire_secctl hf hsec, nwkWire_fc]

/-- The nonce that the decoder builds for a frame is that of the record, when the record names a source
(42_nwk.md R235, R240). -/
theorem nwkWire_nonce {f : NwkFields} {c u : Bytes} (hf : f.Canonical) (hsec : f.fc.getLsbD 9 = true)
    (hu : u.length = 4) (hsource : f.secctl.getLsbD 5 = true ∨ f.fc.getLsbD 12 = true) :
    nwkNonceOf (nwkWire f c u) = nwkNonce (if extNonce f.secctl then f.secsrc else f.extsrc) f.secfc f.secctl := by
  obtain ⟨src, hsome, hnonce⟩ := nonceSource_eq_some _ (nwkWire_hasSource (c := c) (u := u) hf hsec hsource)
  rw [nwkWire_secctl hf hsec, nwkWire_fields hf hsec hu] at hsome hnonce
  rw [← hnonce]
  by_cases hext : extNonce f.secctl = true
  · obtain rfl := Option.some.inj ((if_pos hext).symm.trans hsome)
    rw [if_pos hext]
  · have hpresent : nwkExtSrcP f.fc = true := hsource.resolve_left hext
    obtain rfl := Option.some.inj (((if_neg hext).trans (if_pos hpresent)).symm.trans hsome)
    rw [if_neg hext]

/-- The one outcome of a NWK decode with AUTH = PASS (42_nwk.md R242). -/
theorem NwkOutcome.eq_of_pass {enc : Bytes → Bytes} {keyset : Bool} {b : Bytes} {r : NwkResult}
    (hout : NwkOutcome enc keyset b r) (h : r.auth = .pass) :
    r = { f := { nwkSealedFields b with valid := true }, p := (nwkOpenedOf enc b).m
          wb := some (nwkHeaderEnd b, nwkSecctlOf b), nonce := some (nwkOpenedOf enc b).nonce, auth := .pass } := by
  cases hout with
  | opened => rfl
  | _ => cases h

/-- What a secured encode sealed opens again (42_nwk.md R249, 40_aes_ccm.md R169). -/
theorem nwkWire_opens (enc : Bytes → Bytes) (henc : ∀ b, (enc b).length = 16) (f : NwkFields) (pl : Bytes)
    (hf : f.Canonical) (hsec : f.fc.getLsbD 9 = true)
    (hsource : f.secctl.getLsbD 5 = true ∨ f.fc.getLsbD 12 = true) :
    nwkOpenedOf enc (nwkWire f (nwkSeal enc f pl).c (nwkSeal enc f pl).u) =
      { m := pl, auth := .pass, nonce := (nwkSeal enc f pl).nonce } := by
  have hu : (nwkSeal enc f pl).u.length = 4 := ccmEncrypt_u_length enc henc _ _ _
  rw [nwkOpenedOf, nwkWire_auth hf hsec, nwkWire_cipher hf hsec hu, nwkWire_mic f _ hu,
    nwkWire_nonce hf hsec hu hsource]
  obtain ⟨hctr, htag⟩ := ccmEncrypt_opens enc henc
    (nwkNonce (if extNonce f.secctl then f.secsrc else f.extsrc) f.secfc f.secctl) (nwkAuthData f) pl _ hu
  have hpass := ccmDecrypt_pass enc _ _ _ _ (htag.2 rfl)
  rw [hctr] at hpass
  exact hpass

/-- The decoder gives a secured canonical record back from its frame (42_nwk.md R249). -/
theorem nwkDecode_sealedFrame (enc : Bytes → Bytes) (henc : ∀ b, (enc b).length = 16) (f : NwkFields) (pl : Bytes)
    (hf : f.Canonical) (hsec : f.fc.getLsbD 9 = true)
    (hsource : f.secctl.getLsbD 5 = true ∨ f.fc.getLsbD 12 = true) :
    nwkDecode enc true (nwkWire f (nwkSeal enc f pl).c (nwkSeal enc f pl).u) =
      { f := { f with mic := fieldAt 32 (nwkSeal enc f pl).u 0 }, p := pl
        wb := some (nwkHeaderLen f.fc, f.secctl), nonce := some (nwkSeal enc f pl).nonce, auth := .pass } := by
  have hu : (nwkSeal enc f pl).u.length = 4 := ccmEncrypt_u_length enc henc _ _ _
  have hopen := nwkWire_opens enc henc f pl hf hsec hsource
  have hout := nwkDecode_outcome enc true (nwkWire f (nwkSeal enc f pl).c (nwkSeal enc f pl).u)
  obtain ⟨-, -, hpass, -⟩ := hout.valid_iff
  have hauth := hpass.2 ⟨nwkWire_sealed hf hsec hu, nwkWire_hasSource hf hsec hsource, rfl, by rw [hopen]⟩
  rw [hout.eq_of_pass hauth, hopen, nwkWire_fields hf hsec hu, nwkWire_secctl hf hsec, nwkWire_headerEnd,
    nwkHeaderBytes_length, fieldAt_zero 32 _ hu]
  simp only [hf.valid.1]

/-- Settles O36: a plain frame is its header and payload, and a secured frame is sealed and opened alike. -/
theorem nwkRoundTrip : Obligations.NwkRoundTrip := by
  intro k f pl b u hf henc r
  obtain ⟨-, hcheck, -, hframe⟩ := (nwkEncode_ok_iff _ _ _ _ _ _).1 henc
  cases hsec : f.fc.getLsbD 9 with
  | false =>
    have hplain := nwkEncode_plain (aesEnc k) f pl true f.secfc hsec
    obtain ⟨rfl, rfl⟩ := Prod.mk.inj (Except.ok.inj (hplain.symm.trans henc))
    have hr : r = { f := f, p := pl } := nwkDecode_plainFrame (aesEnc k) true f pl hf hsec
    rw [hr]
    exact ⟨rfl, by simp, fun _ hsome => (Option.some_ne_none _ hsome.symm).elim, fun _ => ⟨rfl, rfl⟩⟩
  | true =>
    obtain ⟨rfl, rfl⟩ := Prod.mk.inj ((nwkFrame_canonical (aesEnc k) f pl hf hsec).symm.trans hframe)
    have hr := nwkDecode_sealedFrame (aesEnc k) (aesEnc_length k) f pl hf hsec
      ((nwkNoSource_eq_false_iff f hsec).1 hcheck)
    have hrestored : emittedSec f.secctl ||| 5#8 = f.secctl := patchSec_of_level _ (hf.level hsec)
    rw [show r = _ from hr]
    refine ⟨rfl, by simp, fun x hx => ?_, fun hnone => (Option.some_ne_none _ hnone).elim⟩
    obtain rfl := Option.some.inj hx
    exact ⟨rfl, rfl, by rw [hrestored]⟩

end Sys2Proof.Machine
end

section
/-! The APS and ZCL encoders against their decoders (43_aps_zcl.md R273, R276, R284, R285): an APS frame is its frame
control and the run of fields that the decoder reads. -/

namespace Sys2Proof.Machine

/-! ### APS -/

/-- The values of the fields behind the frame control of a record, in wire order (43_aps_zcl.md R270). -/
def apsValues (f : ApsFields) : List Nat :=
  [f.dst.toNat, f.cluster.toNat, f.profile.toNat, f.srcep.toNat, f.ctr.toNat]

/-- The APS encoder writes the frame control, its run of fields and the payload (43_aps_zcl.md R273). -/
theorem apsEncode_eq_fields (f : ApsFields) (pl : Bytes) :
    apsEncode f pl = [f.fc] ++ (writeFields (apsFieldWidths f.fc) (apsValues f) ++ pl) := by
  have hends : [f.srcep, f.ctr] = le 1 f.srcep.toNat ++ le 1 f.ctr.toNat := by
    rw [le_one, le_one, List.singleton_append]
  rw [apsEncode, hends]
  simp only [apsFieldWidths, apsValues, writeFields_cons, List.append_assoc]
  rfl

/-- The frame control is the first byte of a frame (43_aps_zcl.md R273). -/
theorem apsEncode_fc (f : ApsFields) (pl : Bytes) : (apsEncode f pl).getD 0 0 = f.fc := rfl

/-- The destination of a record is a group id of 2 bytes exactly in the group mode (43_aps_zcl.md R271). -/
theorem apsDstLen_eq (fc : Byte) : apsDstLen fc = if fc.extractLsb' 2 2 = 3 then 2 else 1 := by
  have hgroup : ∀ v : BitVec 2, v.toNat = 3 ↔ v = 3 := by decide
  simp only [apsDstLen, apsDmode, hgroup]

/-- The destination of a canonical record fits the field that its mode gives it (30_encoding.md R146). -/
theorem apsDst_fits (f : ApsFields) (h : f.Canonical) : f.dst.toNat < 256 ^ apsDstLen f.fc := by
  rw [apsDstLen_eq]
  split
  · exact f.dst.isLt
  · next hendpoint =>
    have hhigh : (f.dst.extractLsb' 8 8).toNat = 0 := congrArg BitVec.toNat (h hendpoint)
    have hdst := f.dst.isLt
    rw [BitVec.extractLsb'_toNat, Nat.shiftRight_eq_div_pow] at hhigh
    omega

/-- A canonical record is the one its fields, cut to their widths, make (30_encoding.md R146). -/
theorem apsRecord_canonical (f : ApsFields) (h : f.Canonical) :
    apsRecord f.fc (List.zipWith (fun w v => v % 256 ^ w) (apsFieldWidths f.fc) (apsValues f)) = f := by
  simp only [apsRecord, apsFieldWidths, apsValues, List.zipWith_cons_cons, List.getD_cons_zero, List.getD_cons_succ]
  rw [ofNat_mod_width f.dst _ (apsDst_fits f h), ofNat_mod_width f.cluster 2 f.cluster.isLt,
    ofNat_mod_width f.profile 2 f.profile.isLt, ofNat_mod_width f.srcep 1 f.srcep.isLt,
    ofNat_mod_width f.ctr 1 f.ctr.isLt]

/-- A frame is well formed exactly when it holds its frame control and the fields behind it (43_aps_zcl.md R272). -/
theorem apsMalformedAt_eq_none_iff (b : Bytes) :
    apsMalformedAt b = none ↔ 1 + (apsFieldWidths (b.getD 0 0)).sum ≤ b.length := by
  rw [apsMalformedAt_eq]
  by_cases hempty : b.length < 1
  · rw [if_pos hempty]
    exact iff_of_false (Option.some_ne_none 0) (by omega)
  · rw [if_neg hempty]
    exact ⟨firstCut_none _ _ _ (Nat.le_of_not_lt hempty), firstCut_of_fits _ _ _⟩

/-- The decoder gives a canonical record and the payload back from its frame (43_aps_zcl.md R276). -/
theorem apsDecode_apsEncode (f : ApsFields) (pl : Bytes) (h : f.Canonical) :
    apsDecode (apsEncode f pl) = .ok (f, pl) := by
  have hframe := apsEncode_eq_fields f pl
  have hhead : ([f.fc] ++ writeFields (apsFieldWidths f.fc) (apsValues f)).length = 1 + (apsFieldWidths f.fc).sum := by
    rw [List.length_append, List.length_singleton, writeFields_length (apsFieldWidths f.fc) (apsValues f) rfl]
  have hread := readFields_writeFields [f.fc] pl (apsFieldWidths f.fc) (apsValues f) rfl
  rw [← hframe, List.length_singleton] at hread
  rw [← List.append_assoc] at hframe
  have hwf : apsMalformedAt (apsEncode f pl) = none := by
    rw [apsMalformedAt_eq_none_iff, apsEncode_fc, hframe, List.length_append, hhead]
    exact Nat.le_add_right _ _
  have hpayload : (apsEncode f pl).drop (1 + (apsFieldWidths f.fc).sum) = pl := by
    rw [hframe]
    exact List.drop_left' hhead
  rw [apsDecode_eq, hwf, apsEncode_fc, hpayload, hread, apsRecord_canonical f h]
  rfl

/-- A decoded record writes the fields it was read from. -/
theorem writeFields_apsRecord (b : Bytes) (p : Nat) (fc : Byte) :
    writeFields (apsFieldWidths fc) (apsValues (apsRecord fc (readFields b p (apsFieldWidths fc)))) =
      writeFields (apsFieldWidths fc) (readFields b p (apsFieldWidths fc)) := by
  have hdst : 8 * apsDstLen fc ≤ 16 := by
    rw [apsDstLen_eq]
    split <;> decide
  simp only [apsFieldWidths, readFields, apsRecord, apsValues, writeFields_cons, List.getD_cons_zero,
    List.getD_cons_succ]
  rw [le_toNat_ofNat _ 16 _ hdst, le_toNat_ofNat 2 16 _ le_rfl, le_toNat_ofNat 2 16 _ le_rfl,
    le_toNat_ofNat 1 8 _ le_rfl, le_toNat_ofNat 1 8 _ le_rfl]

/-- The encoder gives a decoded frame back from its fields and payload (43_aps_zcl.md R276). -/
theorem apsEncode_of_apsDecode (b p : Bytes) (f : ApsFields) (h : apsDecode b = .ok (f, p)) : apsEncode f p = b := by
  rw [apsDecode_eq, refuseAt_ok_iff] at h
  obtain ⟨hwf, hfp⟩ := h
  obtain ⟨rfl, rfl⟩ := Prod.mk.inj hfp
  have hfits := (apsMalformedAt_eq_none_iff b).1 hwf
  have hrest := writeFields_readFields b 1 _ hfits
  have hfc : (apsRecord (b.getD 0 0) (readFields b 1 (apsFieldWidths (b.getD 0 0)))).fc = b.getD 0 0 := rfl
  rw [apsEncode_eq_fields, hfc, writeFields_apsRecord, hrest]
  match b, hfits with
  | [], hfits => exact absurd hfits (by simp)
  | _ :: _, _ => rfl

/-! ### ZCL -/

/-- The ZCL decoder on a string that holds the three header bytes (43_aps_zcl.md R282). -/
theorem zclDecode_cons (fc seq cmd : Byte) (p : Bytes) :
    zclDecode (fc :: seq :: cmd :: p) = .ok (⟨fc, seq, cmd⟩, p) :=
  if_neg (by simp)

/-- The ZCL encoder gives a decoded frame back from its fields and payload (43_aps_zcl.md R285). -/
theorem zclEncode_of_zclDecode (b p : Bytes) (f : ZclFields) (h : zclDecode b = .ok (f, p)) : zclEncode f p = b :=
  (zclDecode_ok b p f h).symm

/-- Settles O37: both codecs write and read the same fields, and a ZCL frame of 3 bytes or more is always decoded. -/
theorem apsZclRoundTrip : Obligations.ApsZclRoundTrip := by
  refine ⟨apsDecode_apsEncode, apsEncode_of_apsDecode, fun f pl => zclDecode_cons _ _ _ _, fun b hlen => ?_⟩
  cases hd : zclDecode b with
  | error off => exact absurd (zclDecode_error b off hd).2 (Nat.not_lt.2 hlen)
  | ok r => exact ⟨r.1, r.2, rfl, zclEncode_of_zclDecode b r.2 r.1 hd⟩

end Sys2Proof.Machine
end

section
/-! What the APS and ZCL commands complete with (43_aps_zcl.md R280, R281, R286, R287). -/

namespace Sys2Proof.Machine

/-- A command whose core emits a string that fits O over registers of its own choice, with the regions and DMEM as they
are, stores it at O_PTR and completes over those registers (30_encoding.md R126). -/
theorem exec_emits_over (i : Instr) (s u : State) (out : Bytes) (hr : s.Ready i) (hcore : coreOf i s = emit u out {})
    (hregions : u.regions = s.regions) (hdmem : u.dmem = s.dmem) (hfit : out.length ≤ s.regions.oCap.toNat) :
    ∃ m, exec i s = .next { u.succeeded .notChecked with dmem := m, oLen := BitVec.ofNat 16 out.length } ∧
      stored s.dmem m s.regions.oPtr.toNat out := by
  refine ⟨u.dmem.writeBytes (u.regions.ptr .o) out, ?_, ?_⟩
  · rw [exec_ready i s hr, hcore, finish_emit s u out {} (by rwa [hregions])]
    rfl
  · rw [hregions, hdmem]
    exact stored_writeBytes _ _ _

/-- Settles O29: both cores emit the payload over the decoded fields. -/
theorem apsZclDecWriteFieldsAndPayload : Obligations.ApsZclDecWriteFieldsAndPayload := by
  refine fun s p hfit => ⟨fun f hr hdec => ?_, fun fc seq cmd hr hin => ?_⟩
  · have hcore : coreOf .apsDec s = emit { s with aps := f } p {} := by simp only [coreOf, hdec]
    exact exec_emits_over .apsDec s { s with aps := f } p hr hcore rfl rfl hfit
  · have hcore : coreOf .zclDec s = emit { s with zcl := ⟨fc, seq, cmd⟩ } p {} := by
      simp only [coreOf, hin, zclDecode_cons]
    exact exec_emits_over .zclDec s { s with zcl := ⟨fc, seq, cmd⟩ } p hr hcore rfl rfl hfit

/-- The APS frame with the destination in the width that its mode gives it (43_aps_zcl.md R271, R273). -/
theorem apsEncode_eq_append (f : ApsFields) (pl : Bytes) :
    apsEncode f pl =
      [f.fc] ++ (if f.fc.extractLsb' 2 2 = 3 then le 2 f.dst.toNat else le 1 f.dst.toNat) ++ le 2 f.cluster.toNat ++
        le 2 f.profile.toNat ++ [f.srcep, f.ctr] ++ pl := by
  rw [apsEncode, apsDstLen_eq, apply_ite (le · f.dst.toNat)]
  rfl

/-- Settles O30: both cores emit the frame over the registers as they are. -/
theorem apsZclEncWriteFrame : Obligations.ApsZclEncWriteFrame := by
  intro s dst apsFrame zclFrame
  have haps : coreOf .apsEnc s = emit s apsFrame {} := by rw [coreOf, apsEncode_eq_append]
  have hzcl : coreOf .zclEnc s = emit s zclFrame {} := rfl
  exact ⟨fun hr hfit => exec_emits .apsEnc s apsFrame _ hr haps rfl hfit,
    fun hr hfit => exec_emits .zclEnc s zclFrame _ hr hzcl rfl hfit⟩

end Sys2Proof.Machine
end

section
/-! How far PARSE descends (44_facade.md R301 to R305): every result PARSE_FN can have below a MAC frame that decodes,
by the layer at which the descent ends, and what all of them say of the layers, the route and the failure report. -/

namespace Sys2Proof.Machine

/-! ### The results of a parse -/

/-- A parse that stopped at the MAC layer: `f` and `p` the MAC record and payload (44_facade.md R303). -/
@[simp] def ParseResult.atMac (f : MacFields) (p : Bytes) : ParseResult := { mac := f, depth := .mac, out := p }

/-- A parse that took what the NWK decode `n` reports, behind a MAC header of `hm` bytes (44_facade.md R303, R309). -/
@[simp] def ParseResult.tookNwk (f : MacFields) (p : Bytes) (n : NwkResult) (hm : Nat) : ParseResult :=
  { atMac f p with nwk := n.f, auth := n.auth, nonce := n.nonce, wb := n.wb.map fun w => (hm + w.1, w.2) }

/-- A parse that reached the NWK layer (44_facade.md R303). -/
@[simp] def ParseResult.atNwk (f : MacFields) (p : Bytes) (n : NwkResult) (hm : Nat) : ParseResult :=
  { tookNwk f p n hm with depth := .nwk, out := n.p }

/-- A parse that reached the APS layer, with record `a`, payload `q` and this route (44_facade.md R303, R304). -/
@[simp] def ParseResult.atAps (f : MacFields) (p : Bytes) (n : NwkResult) (hm : Nat) (a : ApsFields) (q : Bytes)
    (route : Route) : ParseResult :=
  { atNwk f p n hm with aps := a, depth := .aps, out := q, route := route }

/-- The route of an APS frame that is not of the ZCL profile (44_facade.md R304). -/
def otherRoute (a : ApsFields) : Route :=
  if a.profile = 0x0000#16 ∧ a.cluster = 0x0036#16 then .joinMgmt else .raw

/-- The results of a parse that goes on to the APS layer (44_facade.md R301, R303 to R305). -/
inductive ApsOutcome (f : MacFields) (p : Bytes) (n : NwkResult) (hm : Nat) : ParseResult → Prop
  | badAps (off : Nat) (haps : apsDecode n.p = .error off) :
    ApsOutcome f p n hm ((ParseResult.atNwk f p n hm).failAt .aps off)
  | otherProfile (a : ApsFields) (q : Bytes) (haps : apsDecode n.p = .ok (a, q)) (hprofile : a.profile ≠ 0x0104#16) :
    ApsOutcome f p n hm (.atAps f p n hm a q (otherRoute a))
  | badZcl (a : ApsFields) (q : Bytes) (haps : apsDecode n.p = .ok (a, q)) (hprofile : a.profile = 0x0104#16)
      (hshort : q.length < 3) :
    ApsOutcome f p n hm ((ParseResult.atAps f p n hm a q .zcl).failAt .zcl q.length)
  | handled (a : ApsFields) (q : Bytes) (z : ZclFields) (o : Bytes) (haps : apsDecode n.p = .ok (a, q))
      (hprofile : a.profile = 0x0104#16) (hzcl : zclDecode q = .ok (z, o)) :
    ApsOutcome f p n hm { ParseResult.atAps f p n hm a q .zcl with zcl := z, depth := .zcl, out := o }

/-- The results of a parse below a MAC frame of record `f` and payload `p`, whose NWK decode is `n`
(44_facade.md R301, R303, R305). -/
inductive ParseOutcome (f : MacFields) (p : Bytes) (n : NwkResult) (hm : Nat) : ParseResult → Prop
  | notMacData (htype : f.fc.extractLsb' 0 3 ≠ 1#3) : ParseOutcome f p n hm (.atMac f p)
  | badHeader (htype : f.fc.extractLsb' 0 3 = 1#3) (hhdr : n.f.fail = .hdr) :
    ParseOutcome f p n hm ((ParseResult.tookNwk f p n hm).failAt .nwk 0)
  | notValid (htype : f.fc.extractLsb' 0 3 = 1#3) (hhdr : n.f.fail ≠ .hdr) (hvalid : n.f.valid = false) :
    ParseOutcome f p n hm ((ParseResult.atNwk f p n hm).failAt .nwk n.foff)
  | notNwkData (htype : f.fc.extractLsb' 0 3 = 1#3) (hhdr : n.f.fail ≠ .hdr) (hvalid : n.f.valid = true)
      (hdata : n.f.fc.extractLsb' 0 2 ≠ 0#2) : ParseOutcome f p n hm (.atNwk f p n hm)
  | descends (r : ParseResult) (htype : f.fc.extractLsb' 0 3 = 1#3) (hhdr : n.f.fail ≠ .hdr)
      (hvalid : n.f.valid = true) (hdata : n.f.fc.extractLsb' 0 2 = 0#2) (haps : ApsOutcome f p n hm r) :
    ParseOutcome f p n hm r

section
variable {f : MacFields} {p : Bytes} {n : NwkResult} {hm : Nat}

/-- The ZCL part of a parse has one of the outcomes (44_facade.md R303, R304). -/
theorem parseZcl_outcome (a : ApsFields) (q : Bytes) (haps : apsDecode n.p = .ok (a, q)) :
    ApsOutcome f p n hm (parseZcl (.atAps f p n hm a q .raw) q) := by
  have hrecord : (ParseResult.atAps f p n hm a q .raw).aps = a := rfl
  rw [parseZcl, hrecord]
  by_cases hprofile : a.profile = zclProfile
  · rw [if_pos hprofile]
    cases hzcl : zclDecode q with
    | error off =>
      obtain ⟨rfl, hshort⟩ := zclDecode_error q off hzcl
      exact .badZcl a q haps hprofile hshort
    | ok r => exact .handled a q r.1 r.2 haps hprofile hzcl
  · have hother : ApsOutcome f p n hm (.atAps f p n hm a q (otherRoute a)) := .otherProfile a q haps hprofile
    rw [if_neg hprofile]
    by_cases hjoin : a.profile = deviceProfile ∧ a.cluster = joinCluster
    · have hroute : otherRoute a = .joinMgmt := if_pos hjoin
      rw [if_pos hjoin]
      exact hroute ▸ hother
    · have hroute : otherRoute a = .raw := if_neg hjoin
      rw [if_neg hjoin]
      exact hroute ▸ hother

/-- The APS part of a parse has one of the outcomes (44_facade.md R303). -/
theorem parseAps_outcome : ApsOutcome f p n hm (parseAps (.atNwk f p n hm) n.p) := by
  unfold parseAps
  cases haps : apsDecode n.p with
  | error off => exact .badAps off haps
  | ok r => exact parseZcl_outcome r.1 r.2 haps

/-- The NWK part of a parse of a MAC data frame has one of the outcomes (44_facade.md R303, R305). -/
theorem parseNwk_outcome (htype : f.fc.extractLsb' 0 3 = 1#3) :
    ParseOutcome f p n hm (parseNwk (.atMac f p) n hm) := by
  unfold parseNwk
  simp only
  split
  · next hhdr => exact .badHeader htype hhdr
  next hhdr =>
  cases hvalid : n.f.valid with
  | false => exact .notValid htype hhdr hvalid
  | true =>
    rw [if_neg (by decide)]
    split
    · next hdata => exact .notNwkData htype hhdr hvalid fun h => hdata ((mode_toNat_eq_zero _).2 h)
    · next hdata =>
      exact .descends _ htype hhdr hvalid ((mode_toNat_eq_zero _).1 (not_not.1 hdata)) parseAps_outcome

end

/-- MAC data frames are those of TYPE 1 (30_encoding.md R130). -/
theorem macType_eq_one (fc : Half) : macType fc = 1 ↔ fc.extractLsb' 0 3 = 1#3 := by
  have hone : ∀ v : BitVec 3, v.toNat = 1 ↔ v = 1#3 := by decide
  exact hone _

/-- Every parse of a frame that MAC_DECODE accepts succeeds, with one of the outcomes (44_facade.md R301, R302). -/
theorem parseFn_outcome (enc : Bytes → Bytes) (keyset : Bool) (b p : Bytes) (f : MacFields)
    (hmac : macDecode b = .ok (f, p)) :
    ∃ r, parseFn enc keyset b = .ok r ∧
      ParseOutcome f p (nwkDecode enc keyset p) (b.length - p.length) r := by
  simp only [parseFn, hmac]
  by_cases htype : macType f.fc = 1
  · exact ⟨_, if_neg (not_not.2 htype), parseNwk_outcome ((macType_eq_one _).1 htype)⟩
  · exact ⟨_, if_pos htype, .notMacData fun h => htype ((macType_eq_one _).2 h)⟩

/-- A parse that succeeds has one of the outcomes, below a MAC frame that decodes (44_facade.md R301, R302). -/
theorem outcome_of_parseFn (enc : Bytes → Bytes) (keyset : Bool) (b : Bytes) (r : ParseResult)
    (h : parseFn enc keyset b = .ok r) :
    ∃ f p, macDecode b = .ok (f, p) ∧ ParseOutcome f p (nwkDecode enc keyset p) (b.length - p.length) r := by
  cases hmac : macDecode b with
  | error off => simp only [parseFn, hmac, reduceCtorEq] at h
  | ok fp =>
    obtain ⟨r', hr, hout⟩ := parseFn_outcome enc keyset b fp.2 fp.1 hmac
    obtain rfl := Except.ok.inj (hr.symm.trans h)
    exact ⟨fp.1, fp.2, rfl, hout⟩

/-! ### The descent -/

section
variable {f : MacFields} {p : Bytes} {n : NwkResult} {hm : Nat} {r : ParseResult}

/-- What a parse that goes on to the APS layer has from the layers above it (44_facade.md R303, R309). -/
theorem ApsOutcome.keeps (hout : ApsOutcome f p n hm r) :
    r.mac = f ∧ r.nwk = n.f ∧ r.auth = n.auth ∧ r.nonce = n.nonce ∧ r.wb = n.wb.map fun w => (hm + w.1, w.2) := by
  cases hout <;> exact ⟨rfl, rfl, rfl, rfl, rfl⟩

/-- The end of a parse whose APS frame is cut (44_facade.md R305). -/
theorem ApsOutcome.of_error (hout : ApsOutcome f p n hm r) {off : Nat} (haps : apsDecode n.p = .error off) :
    r = (ParseResult.atNwk f p n hm).failAt .aps off := by
  cases hout with
  | badAps off' haps' =>
    obtain rfl := Except.error.inj (haps'.symm.trans haps)
    rfl
  | otherProfile _ _ haps' | badZcl _ _ haps' | handled _ _ _ _ haps' => cases haps'.symm.trans haps

/-- How far a parse goes below an APS frame that decodes (44_facade.md R301, R303, R305). -/
theorem ApsOutcome.of_ok (hout : ApsOutcome f p n hm r) {a : ApsFields} {q : Bytes}
    (haps : apsDecode n.p = .ok (a, q)) :
    r.aps = a ∧
    (a.profile ≠ 0x0104#16 → r.depth = .aps ∧ r.out = q ∧ r.dfail = false) ∧
    (a.profile = 0x0104#16 →
      (∀ z o, zclDecode q = .ok (z, o) → r.depth = .zcl ∧ r.zcl = z ∧ r.out = o ∧ r.dfail = false) ∧
      (q.length < 3 → r.depth = .aps ∧ r.out = q ∧ r.dfail = true ∧ r.layer = .zcl ∧ r.offset = q.length)) := by
  cases hout with
  | badAps off haps' => cases haps'.symm.trans haps
  | otherProfile a' q' haps' hprofile =>
    cases haps'.symm.trans haps
    exact ⟨rfl, fun _ => ⟨rfl, rfl, rfl⟩, fun h => absurd h hprofile⟩
  | badZcl a' q' haps' hprofile hshort =>
    cases haps'.symm.trans haps
    refine ⟨rfl, fun h => absurd hprofile h, fun _ => ⟨fun z o hzcl => ?_, fun _ => ⟨rfl, rfl, rfl, rfl, rfl⟩⟩⟩
    cases (if_pos hshort : zclDecode q = _).symm.trans hzcl
  | handled a' q' z o haps' hprofile hzcl =>
    cases haps'.symm.trans haps
    refine ⟨rfl, fun h => absurd hprofile h, fun _ => ⟨fun z' o' hzcl' => ?_, fun hshort => ?_⟩⟩
    · cases hzcl.symm.trans hzcl'
      exact ⟨rfl, rfl, rfl, rfl⟩
    · cases (if_pos hshort : zclDecode q = _).symm.trans hzcl

end

/-- Settles O41: each clause speaks of the outcomes whose conditions it names. -/
theorem parseDescends : Obligations.ParseDescends := by
  intro k keyset b p f hmac n
  obtain ⟨r, hr, hout⟩ := parseFn_outcome (aesEnc k) keyset b p f hmac
  have hwhole : n.f.valid = true → n.f.fail ≠ .hdr := fun hvalid => by
    rw [(nwkDecode_sound (aesEnc k) keyset p (aesEnc_length k)).2 hvalid]
    decide
  have hnotboth : n.f.valid = false → n.f.valid ≠ true := fun h => by rw [h]; decide
  refine ⟨r, hr, ?_⟩
  cases hout with
  | notMacData htype => exact ⟨rfl, fun _ => rfl, fun h => absurd h htype⟩
  | badHeader htype hhdr =>
    exact ⟨rfl, fun h => absurd htype h, fun _ => ⟨rfl, rfl, rfl, rfl, fun _ => ⟨rfl, rfl, rfl, rfl, rfl⟩,
      fun h => absurd hhdr h, fun h => absurd hhdr h, fun h => absurd hhdr (hwhole h)⟩⟩
  | notValid htype hhdr hvalid =>
    exact ⟨rfl, fun h => absurd htype h, fun _ => ⟨rfl, rfl, rfl, rfl, fun h => absurd h hhdr,
      fun _ _ => ⟨rfl, rfl, (congrArg Bool.not hvalid).symm⟩, fun _ _ => ⟨rfl, rfl⟩,
      fun h => absurd h (hnotboth hvalid)⟩⟩
  | notNwkData htype hhdr hvalid hdata =>
    exact ⟨rfl, fun h => absurd htype h, fun _ => ⟨rfl, rfl, rfl, rfl, fun h => absurd h hhdr,
      fun _ _ => ⟨rfl, rfl, (congrArg Bool.not hvalid).symm⟩, fun _ h => absurd hvalid (hnotboth h),
      fun _ h => absurd h hdata⟩⟩
  | descends r htype hhdr hvalid hdata haps =>
    obtain ⟨hmacf, hnwk, hauth, hnonce, hwb⟩ := haps.keeps
    refine ⟨hmacf, fun h => absurd htype h, fun _ => ⟨hnwk, hauth, hnonce, hwb, fun h => absurd h hhdr,
      fun _ h => h.elim (fun h => absurd hvalid (hnotboth h)) (fun h => absurd hdata h),
      fun _ h => absurd hvalid (hnotboth h), fun _ _ => ⟨fun off herr => ?_, fun a q hok => haps.of_ok hok⟩⟩⟩
    rw [haps.of_error herr]
    exact ⟨rfl, rfl, rfl, rfl, rfl⟩

/-! ### The report -/

theorem otherRoute_ne_zcl (a : ApsFields) : otherRoute a ≠ .zcl := by
  unfold otherRoute
  split <;> decide

theorem otherRoute_eq_joinMgmt_iff (a : ApsFields) :
    otherRoute a = .joinMgmt ↔ a.profile = 0x0000#16 ∧ a.cluster = 0x0036#16 := by
  unfold otherRoute
  split <;> simp [*]

/-- The route, the failure and the cleared records of a parse that goes on to the APS layer
(44_facade.md R304, R305, R307). -/
theorem ApsOutcome.report {f : MacFields} {p : Bytes} {n : NwkResult} {hm : Nat} {r : ParseResult}
    (hout : ApsOutcome f p n hm r) :
    (r.route = .zcl ↔ (r.depth = .aps ∨ r.depth = .zcl) ∧ r.aps.profile = 0x0104#16) ∧
    (r.route = .joinMgmt ↔ r.depth = .aps ∧ r.aps.profile = 0x0000#16 ∧ r.aps.cluster = 0x0036#16) ∧
    (r.dfail = false → r.layer = .none ∧ r.offset = 0) ∧
    (r.dfail = true →
      (r.depth = .nwk ∧ r.layer = .aps ∧ apsMalformedAt r.out = some r.offset) ∨
      (r.depth = .aps ∧ r.layer = .zcl ∧ r.offset = r.out.length ∧ r.out.length < 3)) ∧
    r.depth ≠ .none ∧ r.depth ≠ .mac ∧ (r.depth = .nwk → r.aps = .zero) ∧ (r.depth ≠ .zcl → r.zcl = .zero) := by
  cases hout with
  | badAps off haps =>
    have hmal := (decodersFailExactly n.p off).2.1 haps
    simp [ParseResult.failAt, hmal]
  | otherProfile a q haps hprofile => simp [hprofile, otherRoute_ne_zcl, otherRoute_eq_joinMgmt_iff]
  | badZcl a q haps hprofile hshort => simp [ParseResult.failAt, hprofile, hshort]
  | handled a q z o haps hprofile hzcl => simp [hprofile]

/-- Settles O42: above the APS layer the result is written out, and below it `ApsOutcome.report` says the rest. -/
theorem parseReport : Obligations.ParseReport := by
  intro k keyset b r h
  obtain ⟨f, p, hmac, hout⟩ := outcome_of_parseFn (aesEnc k) keyset b r h
  generalize hn : nwkDecode (aesEnc k) keyset p = n at hout
  cases hout with
  | notMacData htype => simp
  | badHeader htype hhdr => simp [ParseResult.failAt, hhdr]
  | notValid htype hhdr hvalid => simp [ParseResult.failAt, hvalid, hmac, hn]
  | notNwkData htype hhdr hvalid hdata => simp
  | descends r htype hhdr hvalid hdata haps =>
    obtain ⟨hzcl, hjoin, hclean, hfailed, hdepth, hbelow, hnoAps, hnoZcl⟩ := haps.report
    exact ⟨hzcl, hjoin, hclean, fun hd => .inr (.inr (hfailed hd)), hdepth, fun hd => absurd hd hbelow,
      fun hd => hnoAps (hd.resolve_left hbelow), hnoZcl⟩

end Sys2Proof.Machine
end

section
/-! PARSE of a COMPOSE frame of all four layers (44_facade.md R313). -/

namespace Sys2Proof.Machine

/-- The canonical form does not look at the sequence number (30_encoding.md R146). -/
theorem MacFields.Canonical.withSeq {f : MacFields} (h : f.Canonical) (seq : Byte) :
    ({ f with seq := seq } : MacFields).Canonical := by
  obtain ⟨panc, noSource, both, noSpan, noDest, noSaddr, shortDest, shortSource, noCmd⟩ := h
  exact ⟨panc, noSource, both, noSpan, noDest, noSaddr, shortDest, shortSource, noCmd⟩

/-- The NWK layer of a COMPOSE of all four layers decodes back into its record, with the MIC it was sealed with, and
into the APS frame inside it (44_facade.md R311, 42_nwk.md R249). -/
theorem nwkDecode_composeNwk (enc : Bytes → Bytes) (henc : ∀ b, (enc b).length = 16) (s : State) (pl : Bytes)
    (hf : s.nwk.Canonical) (hsec : s.nwk.fc.getLsbD 9 = true) (hsource : s.hasNonceSource)
    (hfc : s.fc = s.nwk.secfc) :
    ∃ mic wb nonce, nwkDecode enc true (composeNwk enc s ⟨true, true, true, true⟩ pl).1 =
      { f := { s.nwk with mic := mic }, p := apsEncode s.aps (zclEncode s.zcl pl), wb := wb, nonce := nonce
        auth := .pass } := by
  have hframe : composeNwk enc s ⟨true, true, true, true⟩ pl =
      nwkFrame enc s.nwk (apsEncode s.aps (zclEncode s.zcl pl)) s.fc := rfl
  rw [hframe, hfc, nwkFrame_canonical enc _ _ hf hsec, nwkDecode_sealedFrame enc henc _ _ hf hsec hsource]
  exact ⟨_, _, _, rfl⟩

/-- Settles O43: each decoder takes back what its encoder built, so the descent reaches the payload. -/
theorem parseInvertsCompose : Obligations.ParseInvertsCompose := by
  intro s aseq pl hmac hnwk haps hmacData hnwkData hsec hprofile hfc hc
  have hmacTrip : macDecode (composeFrame (aesEnc s.key.bytes) s ⟨true, true, true, true⟩ aseq pl) = _ :=
    macDecode_macFrame (macOperand s aseq) _ (macOperand_eq s aseq ▸ hmac.withSeq _)
      (macOperand_eq s aseq ▸ hc.modes rfl)
  obtain ⟨mic, wb, nonce, hnwkTrip⟩ :=
    nwkDecode_composeNwk (aesEnc s.key.bytes) (aesEnc_length _) s pl hnwk hsec (hc.source rfl hsec) hfc
  have hapsTrip := apsDecode_apsEncode s.aps (zclEncode s.zcl pl) haps
  have hzclTrip : zclDecode (zclEncode s.zcl pl) = .ok (s.zcl, pl) := zclDecode_cons _ _ _ _
  obtain ⟨r, hr, hrmac, -, hdata⟩ := parseDescends s.key.bytes true _ _ _ hmacTrip
  obtain ⟨hrnwk, hauth, -, -, -, -, -, hdescends⟩ := hdata (by rw [macOperand_eq]; exact hmacData)
  rw [hnwkTrip] at hrnwk hauth hdescends
  obtain ⟨-, hbelow⟩ := hdescends hnwk.valid.1 hnwkData
  obtain ⟨hraps, -, hzcl⟩ := hbelow _ _ hapsTrip
  obtain ⟨hdepth, hrzcl, hout, hdfail⟩ := (hzcl hprofile).1 _ _ hzclTrip
  obtain ⟨hroute, -⟩ := parseReport s.key.bytes true _ r hr
  exact ⟨r, hr, hrmac.trans (macOperand_eq s aseq), by rw [hrnwk], hraps, hrzcl, hout, hdepth,
    hroute.2 ⟨.inr hdepth, hraps ▸ hprofile⟩, hauth, hdfail⟩

end Sys2Proof.Machine
end

section
/-! What the commands of the facade complete with (44_facade.md R300, R306 to R312). -/

namespace Sys2Proof.Machine

/-- Settles O20: NOP's body returns the state as it is, and the completion fields are those of a success. -/
theorem nopCompletes : Obligations.NopCompletes := fun s => finish_ok s s {}

/-! ### PARSE -/

/-- PARSE past its checks, when the deepest payload fits O (44_facade.md R306 to R310). -/
theorem exec_parse (s : State) (r : ParseResult) (hr : s.Ready .parse)
    (hparse : parseFn s.cipher s.keySet (s.bytesOf .i) = .ok r) (hfit : r.out.length ≤ s.regions.oCap.toNat) :
    exec .parse s =
      .next (State.complete
        { s with
          mac := r.mac, nwk := r.nwk, aps := r.aps, zcl := r.zcl, nonce := r.nonce.elim s.nonce .ofBytes
          dmem := (wroteBack s r.wb).dmem.writeBytes s.regions.oPtr.toNat r.out
          oLen := BitVec.ofNat 16 r.out.length } r.report) := by
  have hcore : coreOf .parse s = emit (wroteBack (putParsed s r) r.wb) r.out r.report := by simp only [coreOf, hparse]
  rw [exec_ready _ s hr, hcore, finish_emit _ _ _ _ (by simpa [Regions.len] using hfit), putParsed_eq, putParsed]
  cases r.nonce <;> cases r.wb <;> rfl

/-- Settles O31: the core emits the deepest payload over the parsed registers and the write-back. -/
theorem parseWritesEveryLayer : Obligations.ParseWritesEveryLayer := by
  intro s r hr hparse hfit
  refine ⟨_, ?_, fun a => read_wroteBack s r.wb r.out s.regions.oPtr.toNat a⟩
  rw [exec_parse s r hr hparse hfit]
  cases r.nonce <;> rfl

/-! ### COMPOSE -/

/-- The registers after a COMPOSE: those of NWK_ENC and of MAC_ENC for the layers it builds (44_facade.md R312). -/
theorem putComposed_derived (s : State) (l : LayerSet) (aseq : Bool) (u : Option NwkUpdate)
    (haseq : aseq = true → l.mac = true) :
    putComposed s l aseq u =
      { putNwkUpdate s u with
        mac := if l.mac then
            { s.mac with fc := s.mac.emittedFc, seq := if aseq then s.seqctr + 1 else s.mac.seq }
          else s.mac
        seqctr := if aseq then s.seqctr + 1 else s.seqctr } := by
  unfold putComposed
  cases hmac : l.mac with
  | false =>
    obtain rfl : aseq = false := Bool.eq_false_iff.2 fun h => by simp [haseq h] at hmac
    cases u <;> rfl
  | true =>
    rw [emittedFc_eq]
    cases u <;> cases aseq <;> rfl

/-- Settles O32: the checks pass, and the core emits the composed frame over the composed registers. -/
theorem composeWritesFrame : Obligations.ComposeWritesFrame := by
  intro l aseq s hr hc haseq seq d d' n frame hfit
  have hn : composeNwk s.cipher s l (s.bytesOf .p) = n := rfl
  have hframe : composeFrame s.cipher s l aseq (s.bytesOf .p) = frame := by
    rw [composeFrame, hn, macOperand_eq, ← frame_eq]
  have hcore : coreOf (.compose l aseq) s = emit (putComposed s l aseq n.2) frame {} := by
    rw [coreOf, (composeCheck_ok_iff s l).2 hc, ok_bind, hn, hframe]
  obtain ⟨m, hexec, hstored⟩ := exec_emits_over (.compose l aseq) s _ frame hr hcore (by simp) (by simp) hfit
  refine ⟨m, ?_, hstored⟩
  rw [hexec, putComposed_derived s l aseq n.2 haseq]
  cases n.2 <;> rfl

end Sys2Proof.Machine
end

section
/-! How a due command ends (60_exceptions.md R330 to R337): it raises an error and changes the completion fields alone, or
its core succeeds and reports; and the two checks that come first, of the parameter and of the key. -/

namespace Sys2Proof.Machine

/-! ### Completions -/

/-- Settles O6: a due word that decodes is executed. -/
theorem stepRunsDecodedCommand : Obligations.StepRunsDecodedCommand :=
  fun s i hbusy hwait hd => step_of_decodes s i ((completing_iff s).2 ⟨hbusy, hwait⟩) hd

/-- Everything a due command can do: an error completes the state it started from (an illegal word among them), or the
core of the decoded command succeeds and its own state completes (60_exceptions.md R333, R334, R337). -/
theorem due_step_cases (s t : State) (hbusy : s.status.busy = true) (hwait : s.wait = 0) (h : step s = .next t) :
    (∃ c l o, c ≠ .none ∧ t = s.raised c l o) ∨
      ∃ i u r, decode s.cur = .ok i ∧ didCore i s u r ∧ t = u.complete r := by
  have hc := (completing_iff s).2 ⟨hbusy, hwait⟩
  cases hd : decode s.cur with
  | error e =>
    exact .inl ⟨.illegalCmd, .none, 0, by decide, Host.Outcome.next.inj (h.symm.trans (step_of_decode_error s e hc hd))⟩
  | ok i =>
    have hexec := h.symm.trans (step_of_decodes s i hc hd)
    obtain ⟨c, l, o, hraised, herr, -⟩ | ⟨u, r, -, hcore, hdone⟩ := exec_cases i s
    · exact .inl ⟨c, l, o, herr, Host.Outcome.next.inj (hexec.trans hraised)⟩
    · exact .inr ⟨i, u, r, rfl, hcore, Host.Outcome.next.inj (hexec.trans hdone)⟩

/-- The core of a command leaves STATUS, the key-written bits and the inputs still to come: STATUS is the completion's to
write, the rest the host's (60_exceptions.md R333, R337). -/
theorem didCore_keeps (i : Instr) (s t : State) (r : Report) (h : didCore i s t r) :
    t.status = s.status ∧ t.kw = s.kw ∧ t.inbox = s.inbox := by
  rw [didCore_eq i s t r h]
  exact ⟨rfl, rfl, rfl⟩

/-- Settles O10: an error writes every result field; a success writes what `didCore_report` says of its command. -/
theorem completionWritesStatus : Obligations.CompletionWritesStatus := by
  intro s t hbusy hwait h
  obtain ⟨c, l, o, -, rfl⟩ | ⟨i, u, r, hd, hcore, rfl⟩ := due_step_cases s t hbusy hwait h
  · exact ⟨rfl, rfl, rfl, rfl, rfl, fun _ => ⟨rfl, rfl, rfl, rfl⟩, fun _ => ⟨rfl, rfl, rfl⟩, fun _ _ _ => rfl⟩
  · obtain ⟨hstatus, hkw, -⟩ := didCore_keeps i s u r hcore
    obtain ⟨hok, hfields, hauth⟩ := didCore_report i s u r hcore
    have other {j : Instr} (hj : decode s.cur ≠ .ok j) : i ≠ j := fun hij => hj (hij ▸ hd)
    have hovr : u.status.ovr = s.status.ovr := by rw [hstatus]
    have hbuserr : u.status.buserr = s.status.buserr := by rw [hstatus]
    refine ⟨rfl, rfl, hovr, hbuserr, congrArg KeyWritten.all hkw,
      fun herr => absurd hok herr, fun hparse => ?_, fun hparse hnwk hccm => ?_⟩
    · obtain ⟨hdepth, hroute, hdfail, -, -⟩ := hfields (other hparse)
      exact ⟨hdepth, hroute, hdfail⟩
    · exact hauth (other hparse) (other hnwk) fun v m => other (hccm v m)

/-- An error completion is known from the code, the layer and the offset it shows (60_exceptions.md R332). -/
theorem raised_eq_of_shown (s : State) (c : ErrCode) (l : Layer) (o : Nat) :
    s.raised c l o =
      s.raised (s.raised c l o).status.err (s.raised c l o).errInfo.layer (s.raised c l o).errInfo.offset.toNat := by
  have hoffset : BitVec.ofNat 12 (BitVec.ofNat 12 o).toNat = BitVec.ofNat 12 o := by
    rw [BitVec.ofNat_toNat, BitVec.setWidth_eq]
  simp only [State.raised, hoffset]

/-- Settles O11: a due command that shows an error did not succeed, so it raised. -/
theorem errorsArePrecise : Obligations.ErrorsArePrecise := by
  intro s t hbusy hwait h herr
  obtain ⟨c, l, o, -, rfl⟩ | ⟨i, u, r, -, hcore, rfl⟩ := due_step_cases s t hbusy hwait h
  · exact raised_eq_of_shown s c l o
  · exact absurd (didCore_report i s u r hcore).1 herr

/-! ### The parameter and the key -/

/-- Settles O12: the parameter check is the first of a command's checks. -/
theorem wrongParameterRaises : Obligations.WrongParameterRaises := by
  intro i s hp
  rw [exec_eq, checks_eq, (paramCheck_eq i s).2 hp]
  rfl

/-- The key check of a secured encode fails without a complete key (42_nwk.md R244). -/
theorem nwkNoKey_of_secured (f : NwkFields) (h : nwkSec f.fc = true) : nwkNoKey f false = true := by
  rw [nwkNoKey, h]
  rfl

/-- A command that runs the cipher whatever its data, or that secures a NWK frame, checks the key before anything else of
its core (60_exceptions.md R330, R331). -/
theorem coreOf_noKey (i : Instr) (s : State) (hkey : s.keySet = false) (hneeds : rawCipher i ∨ s.securesNwk i) :
    coreOf i s = raise .noKey := by
  cases i with
  | aesEnc | aesDec | ccmEnc | ccmDec =>
    rw [coreOf, hkey]
    rfl
  | nwkEnc =>
    have hsec : s.securesNwk .nwkEnc := hneeds.resolve_left id
    simp [coreOf, nwkEncode, hkey, nwkNoKey_of_secured _ hsec, NwkEncError.raised]
  | compose l aseq =>
    obtain ⟨hnwk, hsec⟩ : s.securesNwk (.compose l aseq) := hneeds.resolve_left id
    simp [coreOf, composeCheck, hkey, hnwk, nwkNoKey_of_secured _ hsec]
  | _ => exact (hneeds.elim id id).elim

/-- Settles O15: past the parameter and region checks, the key check of the core raises. -/
theorem missingKeyRaises : Obligations.MissingKeyRaises := by
  intro i s hr hkey hneeds
  rw [exec_ready i s hr, coreOf_noKey i s hkey hneeds]
  rfl

/-! ### Acceptance -/

/-- A CMD write in IDLE is accepted, with the next of the model's latencies (60_exceptions.md R336). -/
theorem writeCmd_idle (s : State) (w : Word) (h : s.status.busy = false) :
    writeCmd s w =
      { s with
        cur := w, status := { s.status with busy := true, done := false }, wait := s.latencies.headD 0
        latencies := s.latencies.tail } :=
  if_neg (by simp [h])

/-- A CMD write in BUSY is dropped with OVR (60_exceptions.md R336). -/
theorem writeCmd_busy (s : State) (w : Word) (h : s.status.busy = true) :
    writeCmd s w = { s with status := { s.status with ovr := true } } :=
  if_pos h

/-- A due command completes before the host's next input is taken (60_exceptions.md R336, R337). -/
theorem due_step_keeps_inbox (s t : State) (hbusy : s.status.busy = true) (hwait : s.wait = 0) (h : step s = .next t) :
    t.inbox = s.inbox ∧ t.status.busy = false := by
  obtain ⟨c, l, o, -, rfl⟩ | ⟨i, u, r, -, hcore, rfl⟩ := due_step_cases s t hbusy hwait h
  · exact ⟨rfl, rfl⟩
  · obtain ⟨-, -, hinbox⟩ := didCore_keeps i s u r hcore
    exact ⟨hinbox, rfl⟩

/-- Settles O48: the CMD write in each state of the sequencer, and the due completion that comes before it. -/
theorem cmdWriteIsAcceptedOrDropped : Obligations.CmdWriteIsAcceptedOrDropped := by
  refine fun s w => ⟨fun hidle => ?_, fun hbusy => ?_, fun hbusy hwait t h => due_step_keeps_inbox s t hbusy hwait h⟩
  · exact ⟨s.latencies.headD 0, s.latencies.tail, (hostWrite_cmd s w).trans (writeCmd_idle s w hidle)⟩
  · exact (hostWrite_cmd s w).trans (writeCmd_busy s w hbusy)

end Sys2Proof.Machine
end

section
/-! Reset (70_reset_and_hazards.md R360 to R363): the values a hardware reset gives, what a soft reset keeps, and what
an abandoned command may leave changed. -/

namespace Sys2Proof.Machine

/-! ### Hardware reset -/

/-- Settles O59. -/
theorem resetMeetsInvariant : Obligations.ResetMeetsInvariant := reset_inv

/-- Every register reads 0 after reset (70_reset_and_hazards.md R360). -/
theorem readReg_reset (r : Reg) : readReg State.reset r = 0 := by
  cases r with
  | nonce k => fin_cases k <;> rfl
  | _ => rfl

/-- A hardware reset in the course of a run differs from power-on in KEY, DMEM and the model's own fields, none of which
a register shows (70_reset_and_hazards.md R360). -/
theorem readReg_hardReset (s : State) (r : Reg) : readReg (hardReset s) r = readReg State.reset r := by
  cases r <;> rfl

/-- Settles O57: the fields stand in `State.reset`, which `hardReset` takes over. -/
theorem hardwareResetValues : Obligations.HardwareResetValues := by
  intro s t ht
  obtain rfl | rfl : t = State.reset ∨ t = hardReset s := by simpa using ht
  · exact ⟨rfl, rfl, rfl, rfl, rfl, rfl, rfl, rfl, rfl, rfl, rfl, rfl, rfl, rfl, rfl, rfl, readReg_reset⟩
  · exact ⟨rfl, rfl, rfl, rfl, rfl, rfl, rfl, rfl, rfl, rfl, rfl, rfl, rfl, rfl, rfl, rfl,
      fun r => (readReg_hardReset s r).trans (readReg_reset r)⟩

/-! ### Soft reset -/

/-- A CTRL write with SRST = 1 is a soft reset that then sets IE (10_state.md R37). -/
theorem hostWrite_srst (s : State) (v : Word) (h : v.getLsbD 1 = true) :
    hostWrite s .w32 0x008#12 v = softReset s (v.getLsbD 0) := by
  rw [hostWrite_ctrl, writeCtrl, if_pos h]

/-- A CTRL write with SRST = 0 sets IE alone (10_state.md R37). -/
theorem writeCtrl_ie (s : State) (v : Word) (h : v.getLsbD 1 = false) :
    writeCtrl s v = { s with ie := v.getLsbD 0 } := by
  rw [writeCtrl, if_neg (by rw [h]; exact Bool.false_ne_true)]

theorem softReset_idle (s : State) (ie : Bool) (h : s.status.busy = false) : softReset s ie = clearSoft s ie := by
  simp [softReset, h]

theorem softReset_busy (s : State) (ie : Bool) (h : s.status.busy = true) :
    softReset s ie = clearSoft (abortCommand s) ie := by
  simp [softReset, h]

/-- Settles O55: in IDLE no command is abandoned, and `clearSoft` keeps what R362 names. -/
theorem softResetKeepsKeyAndCounter : Obligations.SoftResetKeepsKeyAndCounter := by
  refine fun s v => ⟨fun hidle hsrst => ?_, fun hie => ?_⟩
  · rw [hostWrite_srst s v hsrst, softReset_idle s _ hidle]
    rfl
  · rw [hostWrite_ctrl, writeCtrl_ie s v hie]

/-! ### Abort -/

/-- Abandoning an illegal word changes nothing (70_reset_and_hazards.md R363). -/
theorem abortCommand_of_decode_error (s : State) (e : Reject) (h : decode s.cur = .error e) : abortCommand s = s := by
  simp [abortCommand, h]

/-- Abandoning a command may advance FC, and leaves its own bytes of DMEM free values (70_reset_and_hazards.md R363). -/
theorem abortCommand_of_decodes (s : State) (i : Instr) (h : decode s.cur = .ok i) :
    abortCommand s =
      { s with
        fc := if abortAdvancesFc s i then s.fc + 1 else s.fc
        dmem := scramble s.dmem s.draws (abortAddrs s i)
        draws := s.draws + 1 } := by
  simp [abortCommand, h]

/-- Abandoning a command leaves the key (70_reset_and_hazards.md R362). -/
theorem abortCommand_keeps_key (s : State) : (abortCommand s).key = s.key ∧ (abortCommand s).kw = s.kw := by
  cases h : decode s.cur with
  | error e => rw [abortCommand_of_decode_error s e h]; exact ⟨rfl, rfl⟩
  | ok i => rw [abortCommand_of_decodes s i h]; exact ⟨rfl, rfl⟩

/-- FC skips a value exactly where a secured encode may have used it (70_reset_and_hazards.md R363). -/
theorem abortAdvancesFc_iff (s : State) (i : Instr) :
    abortAdvancesFc s i = true ↔ s.securesNwk i ∧ s.keySet = true ∧ s.fc ≠ 0xFFFFFFFF#32 := by
  cases i with
  | nwkEnc => simp [abortAdvancesFc, State.securesNwk, nwkSec, and_assoc]
  | compose l aseq => simp [abortAdvancesFc, State.securesNwk, nwkSec, and_assoc]
  | _ => simp [abortAdvancesFc, State.securesNwk]

/-- Free values at some addresses change no byte elsewhere. -/
theorem scramble_changes (m : Dmem) (draw : Nat) (as : List Nat) (a : Nat)
    (h : (scramble m draw as).read a ≠ m.read a) : a ∈ as := by
  induction as generalizing m with
  | nil => exact absurd rfl h
  | cons b as ih =>
    by_cases hab : a = b
    · exact hab ▸ List.mem_cons_self
    · refine List.mem_cons_of_mem b (ih (m.write b (Config.abortByte draw b)) ?_)
      rwa [read_write_other _ _ _ _ hab]

/-- The addresses of a region lie in it (10_state.md R45). -/
theorem covers_of_mem_spanAddrs (s : State) (x : Region) (a : Nat)
    (h : a ∈ spanAddrs (s.regions.ptr x) (s.regions.len x)) : s.covers x a := by
  simp only [spanAddrs, List.mem_map, List.mem_range] at h
  obtain ⟨k, hk, rfl⟩ := h
  exact ⟨Nat.le_add_right _ _, by omega⟩

/-- The write-back address of an abandoned command is where the decode of its I region writes back (42_nwk.md R234). -/
theorem mem_writeBackAddr (s : State) (wb : Bytes → Option (Nat × Byte)) (a : Nat) (h : a ∈ writeBackAddr s wb) :
    s.inDmem .i ∧ ((wb (s.bytesOf .i)).map Prod.fst).map (s.regions.ptr .i + ·) = some a := by
  unfold writeBackAddr at h
  split at h
  · next hi =>
    refine ⟨(inRange_iff _ _).1 hi, ?_⟩
    rw [State.bytesOf]
    split at h
    · cases h
    · next off v hw =>
      rw [hw, List.mem_singleton.1 h]
      rfl
  · cases h

/-- A PARSE that writes back at all writes back where R309 says. -/
theorem parseWriteBack_at (s : State) (b : Bytes) (a : Nat) (f : Nat → Nat)
    (h : ((parseWriteBack s b).map Prod.fst).map f = some a) : (parseWriteBackAt b).map f = some a := by
  unfold parseWriteBack at h
  split at h
  · cases h
  · next r hr => rwa [parseFn_writeBack _ _ _ _ hr] at h

/-- What an abandoned command leaves unspecified, its rule lets it write (70_reset_and_hazards.md R363). -/
theorem mayWrite_of_mem_abortAddrs (s : State) (i : Instr) (a : Nat) (h : a ∈ abortAddrs s i) : s.mayWrite i a := by
  have output (hi : hasOutput i) (ha : a ∈ spanAddrs (s.regions.ptr .o) (s.regions.len .o)) : s.mayWrite i a :=
    .inl ⟨hi, covers_of_mem_spanAddrs s .o a ha⟩
  cases i with
  | nop => cases h
  | ccmEnc | ccmDec => exact .inr (.inl ⟨by simp [regionsOf], covers_of_mem_spanAddrs s .m a h⟩)
  | nwkDec =>
    rcases List.mem_append.1 h with h | h
    · exact output (by simp [hasOutput, regionsOf]) h
    · obtain ⟨hi, hat⟩ := mem_writeBackAddr s _ a h
      rw [nwkDecode_writeBack] at hat
      exact .inr (.inr ⟨hi, .inl ⟨rfl, hat⟩⟩)
  | parse =>
    rcases List.mem_append.1 h with h | h
    · exact output (by simp [hasOutput, regionsOf]) h
    · obtain ⟨hi, hat⟩ := mem_writeBackAddr s _ a h
      exact .inr (.inr ⟨hi, .inr ⟨rfl, parseWriteBack_at s _ a _ hat⟩⟩)
  | _ => exact output (by simp [hasOutput, regionsOf]) h

/-- Settles O56: the registers are those of `clearSoft`, FC and DMEM those of `abortCommand`. -/
theorem abortTouchesOnlyTheCommandsBytes : Obligations.AbortTouchesOnlyTheCommandsBytes := by
  intro s v hbusy hsrst
  rw [hostWrite_srst s v hsrst, softReset_busy s _ hbusy]
  obtain ⟨hkey, hkw⟩ := abortCommand_keeps_key s
  refine ⟨by rw [← hkey, ← hkw]; rfl, fun hillegal => ?_, fun i hd => ?_⟩
  · obtain ⟨e, he⟩ := (decodeRefusesIllegalWords s.cur).2 hillegal
    rw [abortCommand_of_decode_error s e he]
    exact ⟨rfl, rfl⟩
  · rw [abortCommand_of_decodes s i hd]
    refine ⟨fun hsec hset hfc => if_pos ((abortAdvancesFc_iff s i).2 ⟨hsec, hset, hfc⟩),
      fun hnot => if_neg fun hadv => ?_,
      fun a ha => mayWrite_of_mem_abortAddrs s i a (scramble_changes s.dmem s.draws _ a ha)⟩
    obtain ⟨hsec, hset, hfc⟩ := (abortAdvancesFc_iff s i).1 hadv
    rcases hnot with h | h | h
    · exact h hsec
    · exact Bool.false_ne_true (h.symm.trans hset)
    · exact hfc h

end Sys2Proof.Machine
end

section
/-! What a completion leaves does not depend on what the host may move while a command runs: the W1C bits of STATUS,
CTRL.IE and the model's own fields (70_reset_and_hazards.md R368). No command reads one of them, and no access of the
host in BUSY moves anything else, short of a reset. -/

namespace Sys2Proof.Machine

/-! ### The fields of the host -/

/-- `s` with what the host may move while a command runs taken from `h`; see `hostMovedOnly_iff`. -/
def State.withHost (s h : State) : State :=
  { s with
    status := { s.status with done := h.status.done, ovr := h.status.ovr, buserr := h.status.buserr }
    ie := h.ie, wait := h.wait, latencies := h.latencies, inbox := h.inbox, busData := h.busData, draws := h.draws }

/-- The result of a command's body with the host's fields of `h`. -/
def withHostResult (h : State) (p : State × Report) : State × Report := (p.1.withHost h, p.2)

theorem hostMovedOnly_iff (s t : State) : hostMovedOnly s t ↔ t = s.withHost t := Iff.rfl

@[simp] theorem withHost_withHost (s h k : State) : (s.withHost h).withHost k = s.withHost k := rfl

theorem hostMovedOnly_refl (s : State) : hostMovedOnly s s := rfl

theorem hostMovedOnly_trans {s t u : State} (hst : hostMovedOnly s t) (htu : hostMovedOnly t u) : hostMovedOnly s u :=
  calc
    u = t.withHost u := htu
    _ = (s.withHost t).withHost u := congrArg (State.withHost · u) hst
    _ = s.withHost u := withHost_withHost s t u

/-! ### Commands under other fields of the host -/

@[simp] theorem withHost_bytesOf (s h : State) (x : Region) : (s.withHost h).bytesOf x = s.bytesOf x := rfl
@[simp] theorem withHost_keySet (s h : State) : (s.withHost h).keySet = s.keySet := rfl
@[simp] theorem withHost_cipher (s h : State) : (s.withHost h).cipher = s.cipher := rfl
@[simp] theorem withHost_key (s h : State) : (s.withHost h).key = s.key := rfl
@[simp] theorem withHost_nwk (s h : State) : (s.withHost h).nwk = s.nwk := rfl
@[simp] theorem withHost_fc (s h : State) : (s.withHost h).fc = s.fc := rfl

theorem macOperand_withHost (s h : State) (aseq : Bool) : macOperand (s.withHost h) aseq = macOperand s aseq := rfl

theorem composeCheck_withHost (s h : State) (l : LayerSet) : composeCheck (s.withHost h) l = composeCheck s l := rfl

theorem composeNwk_withHost (enc : Bytes → Bytes) (s h : State) (l : LayerSet) (pl : Bytes) :
    composeNwk enc (s.withHost h) l pl = composeNwk enc s l pl := rfl

theorem composeFrame_withHost (enc : Bytes → Bytes) (s h : State) (l : LayerSet) (aseq : Bool) (pl : Bytes) :
    composeFrame enc (s.withHost h) l aseq pl = composeFrame enc s l aseq pl := rfl

theorem putNonce_withHost (s h : State) (n : Option Bytes) :
    putNonce (s.withHost h) n = (putNonce s n).withHost h := by cases n <;> rfl

theorem wroteBack_withHost (s h : State) (wb : Option (Nat × Byte)) :
    wroteBack (s.withHost h) wb = (wroteBack s wb).withHost h := by cases wb <;> rfl

theorem putParsed_withHost (s h : State) (r : ParseResult) :
    putParsed (s.withHost h) r = (putParsed s r).withHost h :=
  putNonce_withHost { s with mac := r.mac, nwk := r.nwk, aps := r.aps, zcl := r.zcl } h r.nonce

theorem putNwkUpdate_withHost (s h : State) (u : Option NwkUpdate) :
    putNwkUpdate (s.withHost h) u = (putNwkUpdate s u).withHost h := by cases u <;> rfl

theorem putMacEncoded_withHost (s h : State) (aseq panc : Bool) :
    putMacEncoded (s.withHost h) aseq panc = (putMacEncoded s aseq panc).withHost h := by cases aseq <;> rfl

theorem putComposed_withHost (s h : State) (l : LayerSet) (aseq : Bool) (u : Option NwkUpdate) :
    putComposed (s.withHost h) l aseq u = (putComposed s l aseq u).withHost h := by
  unfold putComposed
  cases l.mac with
  | false => exact putNwkUpdate_withHost s h u
  | true =>
    show putMacEncoded (putNwkUpdate (s.withHost h) u) aseq _ = _
    rw [putNwkUpdate_withHost, putMacEncoded_withHost, macOperand_withHost]
    rfl

/-- The output of a command is checked and written alike under other fields of the host (30_encoding.md R126). -/
theorem emit_withHost (u h : State) (out : Bytes) (r : Report) :
    emit (u.withHost h) out r = (emit u out r).map (withHostResult h) := by
  unfold emit
  by_cases hfit : out.length ≤ u.regions.len .o
  · rw [if_pos hfit, if_pos (show out.length ≤ (u.withHost h).regions.len .o from hfit)]
    rfl
  · rw [if_neg hfit, if_neg (show ¬ out.length ≤ (u.withHost h).regions.len .o from hfit)]
    rfl

/-- The key is checked alike under other fields of the host. -/
theorem keyed_withHost (s h : State) (c d : Except Halt (State × Report)) (hcd : d = c.map (withHostResult h)) :
    (if (s.withHost h).keySet then d else raise .noKey) =
      (if s.keySet then c else raise .noKey).map (withHostResult h) := by
  by_cases hk : s.keySet = true
  · rw [if_pos hk, if_pos (show (s.withHost h).keySet = true from hk), hcd]
  · rw [if_neg hk, if_neg (show ¬ (s.withHost h).keySet = true from hk)]
    rfl

/-- The core of a command reads none of the host's fields and writes none. -/
theorem coreOf_withHost (i : Instr) (s h : State) :
    coreOf i (s.withHost h) = (coreOf i s).map (withHostResult h) := by
  cases i <;> simp only [coreOf, withHost_bytesOf, withHost_cipher]
  case nop => rfl
  case aesEnc | aesDec => exact keyed_withHost s h _ _ (emit_withHost s h _ {})
  case ccmEnc | ccmDec => exact keyed_withHost s h _ _ rfl
  case macDec =>
    cases macDecode (s.bytesOf .i) with
    | error off => rfl
    | ok r => exact emit_withHost { s with mac := r.1 } h r.2 {}
  case macEnc aseq =>
    rw [macOperand_withHost]
    cases macEncode (macOperand s aseq) (s.bytesOf .p) with
    | none => rfl
    | some r =>
      simp only [putMacEncoded_withHost]
      exact emit_withHost _ h r.1 {}
  case nwkDec =>
    rw [withHost_keySet]
    generalize nwkDecode s.cipher s.keySet (s.bytesOf .i) = r
    rw [show { s.withHost h with nwk := r.f } = State.withHost { s with nwk := r.f } h from rfl, putNonce_withHost,
      wroteBack_withHost]
    exact emit_withHost _ h r.p _
  case nwkEnc =>
    rw [withHost_nwk, withHost_keySet, withHost_fc]
    cases nwkEncode s.cipher s.nwk (s.bytesOf .p) s.keySet s.fc with
    | error e => cases e <;> rfl
    | ok r =>
      simp only [putNwkUpdate_withHost]
      exact emit_withHost _ h r.1 {}
  case apsDec =>
    cases apsDecode (s.bytesOf .i) with
    | error off => rfl
    | ok r => exact emit_withHost { s with aps := r.1 } h r.2 {}
  case apsEnc => exact emit_withHost s h _ {}
  case zclDec =>
    cases zclDecode (s.bytesOf .i) with
    | error off => rfl
    | ok r => exact emit_withHost { s with zcl := r.1 } h r.2 {}
  case zclEnc => exact emit_withHost s h _ {}
  case parse =>
    rw [withHost_keySet]
    cases parseFn s.cipher s.keySet (s.bytesOf .i) with
    | error off => rfl
    | ok r =>
      simp only [putParsed_withHost, wroteBack_withHost]
      exact emit_withHost _ h r.out r.report
  case compose l aseq =>
    rw [composeCheck_withHost, composeNwk_withHost, composeFrame_withHost, putComposed_withHost]
    cases composeCheck s l with
    | error e => rfl
    | ok _ => exact emit_withHost _ h _ {}

/-- A completion writes DONE and leaves the host's other fields (60_exceptions.md R333). -/
theorem complete_moved (s h : State) (r : Report) : hostMovedOnly (s.complete r) ((s.withHost h).complete r) := rfl

/-- The end of a command is the same under other fields of the host. -/
theorem finish_moved (s h u : State) (body : Except Halt (State × Report)) (hu : s.finish body = .next u) :
    ∃ t, (s.withHost h).finish (body.map (withHostResult h)) = .next t ∧ hostMovedOnly u t := by
  match body, hu with
  | .ok (v, r), hu =>
    obtain rfl : v.complete r = u := Host.Outcome.next.inj hu
    exact ⟨_, rfl, complete_moved v h r⟩
  | .error (.error e), hu =>
    obtain rfl : s.complete e.report = u := Host.Outcome.next.inj hu
    exact ⟨_, rfl, complete_moved s h e.report⟩

/-- A command leaves the same under other fields of the host (60_exceptions.md R338). -/
theorem exec_moved (i : Instr) (s h u : State) (hu : exec i s = .next u) :
    ∃ t, exec i (s.withHost h) = .next t ∧ hostMovedOnly u t := by
  rw [exec_eq] at hu
  have hbody : (checks i (s.withHost h) >>= fun _ => coreOf i (s.withHost h)) =
      (checks i s >>= fun _ => coreOf i s).map (withHostResult h) := by
    rw [coreOf_withHost, show checks i (s.withHost h) = checks i s from rfl]
    cases checks i s <;> rfl
  rw [exec_eq, hbody]
  exact finish_moved s h u _ hu

/-- A due command completes, and leaves the same whatever the host moved before (70_reset_and_hazards.md R368). -/
theorem due_step_moved (s t u : State) (hbusy : s.status.busy = true) (hs : s.wait = 0) (ht : t.wait = 0)
    (hst : hostMovedOnly s t) (hu : step s = .next u) : ∃ v, step t = .next v ∧ hostMovedOnly u v := by
  rw [hostMovedOnly_iff] at hst
  have hcs := (completing_iff s).2 ⟨hbusy, hs⟩
  have hct : (s.withHost t).completing = true := (completing_iff _).2 ⟨hbusy, ht⟩
  rw [hst]
  cases hd : decode s.cur with
  | error e =>
    rw [step_of_decode_error s e hcs hd] at hu
    obtain rfl := Host.Outcome.next.inj hu
    exact ⟨_, step_of_decode_error (s.withHost t) e hct hd, rfl⟩
  | ok i =>
    rw [step_of_decodes s i hcs hd] at hu
    rw [step_of_decodes (s.withHost t) i hct hd]
    exact exec_moved i s t u hu

/-! ### The host while a command runs -/

/-- A host write in BUSY that resets nothing is dropped, refused, clears W1C bits or sets IE (20_memory.md R87;
60_exceptions.md R336; 10_state.md R36, R37). -/
theorem hostWrite_busy_moved (s : State) (width : AccessWidth) (off : BitVec 12) (v : Word)
    (hbusy : s.status.busy = true) (hno : ¬ (HostInput.write width off v).resets) :
    let t := hostWrite s width off v
    hostMovedOnly s t ∧ t.wait = s.wait ∧ t.inbox = s.inbox := by
  have hrefused : hostMovedOnly s s.refuseAccess ∧ s.refuseAccess.wait = s.wait ∧ s.refuseAccess.inbox = s.inbox :=
    ⟨rfl, rfl, rfl⟩
  by_cases hw : writableBusy off.toNat
  swap
  · rwa [hostWrite_busy_refused s width off v hbusy hw]
  by_cases hp : permitted width off.toNat
  swap
  · rwa [hostWrite_refused s width off v hp]
  obtain ⟨r, rfl, hat⟩ | ⟨-, hhigh⟩ := permitted_cases width off hp
  swap
  · unfold writableBusy at hw
    omega
  rw [hostWrite_reg s off v r hat]
  obtain rfl | rfl | rfl := (writableBusy_iff _ r hat).1 hw
  · rw [writeTarget, writeCmd_busy s v hbusy]
    exact ⟨rfl, rfl, rfl⟩
  · exact ⟨rfl, rfl, rfl⟩
  · have hoff : off = 0x008#12 := BitVec.eq_of_toNat_eq ((regAt_special _ _ hat).2.2 rfl)
    have hsrst : v.getLsbD 1 = false := Bool.eq_false_of_not_eq_true fun h => hno ⟨rfl, hoff, h⟩
    rw [writeTarget, writeCtrl_ie s v hsrst]
    exact ⟨rfl, rfl, rfl⟩

/-- An input of the host in BUSY that resets nothing moves the host's fields alone (20_memory.md R87, R88). -/
theorem take_busy_moved (s : State) (x : HostInput) (hbusy : s.status.busy = true) (hno : ¬ x.resets) :
    hostMovedOnly s (s.take x) ∧ (s.take x).wait = s.wait ∧ (s.take x).inbox = s.inbox := by
  cases x with
  | hardReset => exact absurd trivial hno
  | read width off =>
    obtain ⟨b, v, n, h⟩ := hostRead_eq s width off
    rw [State.take, h]
    exact ⟨rfl, rfl, rfl⟩
  | write width off v => exact hostWrite_busy_moved s width off v hbusy hno

/-- A turn of the host in BUSY, without a reset among its inputs, counts against the latency and moves the host's fields
alone (20_memory.md R93). -/
theorem hostTurn_busy_moved (s : State) (hbusy : s.status.busy = true) (hno : ∀ x ∈ s.inbox, ¬ x.resets) :
    hostMovedOnly s (hostTurn s) ∧ (hostTurn s).wait = s.wait - 1 ∧ (hostTurn s).inbox = s.inbox.tail := by
  cases hin : s.inbox with
  | nil =>
    rw [hostTurn_nil s hin]
    exact ⟨rfl, rfl, hin⟩
  | cons x rest =>
    rw [hostTurn_cons s x rest hin]
    obtain ⟨hmoved, hwait, hinbox⟩ :=
      take_busy_moved { s with wait := s.wait - 1, inbox := rest } x hbusy (hno x (by simp [hin]))
    have hturn : hostMovedOnly s { s with wait := s.wait - 1, inbox := rest } := rfl
    exact ⟨hostMovedOnly_trans hturn hmoved, hwait, hinbox⟩

/-- One step of a run. -/
theorem run_succ (s t : State) (k : Nat) (h : step s = .next t) :
    Host.Core.run Sys2Proof.core (k + 1) s = Host.Core.run Sys2Proof.core k t := by
  have hcore : Sys2Proof.core.step s = .next t := h
  simp only [Host.Core.run, hcore]

/-- A busy state whose host resets nothing comes to the completion of its command after `n` turns, in a state that
differs from the first in the host's fields alone. -/
theorem run_to_due (n : Nat) (s : State) (hn : s.wait = n) (hbusy : s.status.busy = true)
    (hno : ∀ x ∈ s.inbox, ¬ x.resets) :
    ∃ d, hostMovedOnly s d ∧ d.wait = 0 ∧
      ∀ t, step d = .next t → Host.Core.run Sys2Proof.core (n + 1) s = .next t := by
  induction n generalizing s with
  | zero => exact ⟨s, hostMovedOnly_refl s, hn, fun t ht => run_succ s t 0 ht⟩
  | succ n ih =>
    obtain ⟨hmoved, hwait, hinbox⟩ := hostTurn_busy_moved s hbusy hno
    have hstep : step s = .next (hostTurn s) := step_of_not_completing s (by simp [State.completing, hn])
    have hbusy' : (hostTurn s).status.busy = true := by rw [hmoved]; exact hbusy
    obtain ⟨d, hd, hdue, hrun⟩ := ih (hostTurn s) (by omega) hbusy'
      (by rw [hinbox]; exact fun x hx => hno x (List.mem_of_mem_tail hx))
    exact ⟨d, hostMovedOnly_trans hmoved hd, hdue, fun t ht => (run_succ s _ _ hstep).trans (hrun t ht)⟩

/-- Settles O9: the run comes to a due state (`run_to_due`), whose completion leaves what the immediate one does
(`due_step_moved`). -/
theorem resultIgnoresLatency : Obligations.ResultIgnoresLatency := by
  intro s hbusy hno
  obtain ⟨d, hd, hdue, hrun⟩ := run_to_due s.wait s rfl hbusy hno
  obtain ⟨u, hu⟩ := everyStepAnswersNext { s with wait := 0 }
  obtain ⟨t, ht, hmoved⟩ := due_step_moved { s with wait := 0 } d u hbusy rfl hdue hd hu
  have hdbusy : d.status.busy = true := by rw [hd]; exact hbusy
  exact ⟨t, u, hrun t ht, hu, (due_step_keeps_inbox d t hdbusy hdue ht).2,
    (step_completion d t ((completing_iff d).2 ⟨hdbusy, hdue⟩) ht).1, hmoved⟩

end Sys2Proof.Machine
end
